-- ==== Sys2Proof/Config.lean ====
section
/-!
DEFINITION. Config.lean: the parameters of the port layer (`00_scope.md` rule R7).

The spec fixes every one of them; none is left to an implementation but the untimed `LATENCY`, which no rule depends
on (R298) and which this model does not hold (assumption log 9). The function layer's constants (R6, R27) are the
constant ROM and stand in `Sys2Proof/Machine/Rom.lean`. No open value of the spec needs a free constant here.
-/

namespace Sys2Proof

/-- `XLEN`: width in bits of every operand and result register (R7). -/
abbrev Config.xlen : Nat := 256

/-- `NX`: number of operand registers (R7). -/
abbrev Config.nx : Nat := 9

/-- `NY`: number of result registers (R7). -/
abbrev Config.ny : Nat := 4

/-- `CMDLEN`: width in bits of a command word (R7). -/
abbrev Config.cmdlen : Nat := 32

/-- `PRICE_BITS`: width the port accepts and produces for a sqrt price (R7). -/
abbrev Config.priceBits : Nat := 160

/-- `LIQ_BITS`: width the port accepts for a liquidity magnitude (R7). -/
abbrev Config.liqBits : Nat := 128

/-- `IDXLEN`: width in bits of a host register index (R7). -/
abbrev Config.idxlen : Nat := 5

end Sys2Proof
end

