-- ==== Sys2Proof/Word.lean ====
section
/-!
DEFINITION. Word.lean: the widths the port moves (`00_scope.md` R7, R8; `20_memory.md` R57).

Only what the spec treats as bits is a bit vector: register contents, write data, register indices and the `STATUS`
word. Function-layer values are unbounded integers (R9) and never appear here.
-/

namespace Sys2Proof

/-- The contents of an operand or result register, and the data of every host transaction (R20, R21, R57). -/
abbrev Word := BitVec Config.xlen

/-- A host register index, 0 to 31 (R51). -/
abbrev RegIndex := BitVec Config.idxlen

/-- The `STATUS` register as the port shows it: 32 bits (R25). -/
abbrev StatusWord := BitVec 32

/-- The operand registers `X[0..8]` (R20). -/
abbrev XFile := Vector Word Config.nx

/-- The result registers `Y[0..3]` (R21). -/
abbrev YFile := Vector Word Config.ny

end Sys2Proof
end

