-- ==== Sys2Proof/Syntax.lean ====
section
/-!
DEFINITION. Syntax.lean: the fourteen commands (`30_encoding.md` R73), the two host transactions and reset
(`20_memory.md` R52, R53; `70_reset_and_hazards.md` R291), and the assembler's statements (`30_encoding.md` R80, R81).

A command carries no register numbers and no immediates (R71): its only fields are the two Booleans D0 gives to four of
the functions.
-/

namespace Sys2Proof

/-- The commands, one constructor for each row of `opcode_table.json`, in the table's order (R73, R76). -/
inductive Instr where
  /-- `MSB`: most significant bit (R122). -/
  | msb
  /-- `MULDIVRU`: full-precision multiply-divide, rounding up (R132). -/
  | muldivru
  /-- `ADDDELTA`: apply a signed liquidity delta (R141). -/
  | adddelta
  /-- `TICK2SQRT`: tick to sqrt price (R153). -/
  | tick2sqrt
  /-- `SQRT2TICK`: sqrt price to tick (R161). -/
  | sqrt2tick
  /-- `AMT0DELTA`: token0 amount between two prices; `roundUp` is the command bit `RU` (R181). -/
  | amt0delta (roundUp : Bool)
  /-- `AMT1DELTA`: token1 amount between two prices; `roundUp` is the command bit `RU` (R183). -/
  | amt1delta (roundUp : Bool)
  /-- `NEXTPIN`: next price from an input amount; `zeroForOne` is the command bit `ZFO` (R191). -/
  | nextpin (zeroForOne : Bool)
  /-- `NEXTPOUT`: next price from an output amount; `zeroForOne` is the command bit `ZFO` (R193). -/
  | nextpout (zeroForOne : Bool)
  /-- `SWAPSTEP`: one swap step (R211). -/
  | swapstep
  /-- `SUBIN256`: subtraction modulo 2^256 (R231). -/
  | subin256
  /-- `FEEINSIDE`: fee growth inside a tick range (R233). -/
  | feeinside
  /-- `TOKOWED`: tokens owed since a snapshot (R235). -/
  | tokowed
  /-- `CLRF`: clear the failure state (R250). -/
  | clrf
deriving DecidableEq, Repr

/-- What can happen at the unit's boundary: the two host transactions (R52, R53) and a reset of the unit by the
surrounding system between two of them (R291). -/
inductive HostEvent where
  /-- `RegRead(idx)` (R52). -/
  | regRead (idx : RegIndex)
  /-- `RegWrite(idx, v)` (R53). -/
  | regWrite (idx : RegIndex) (v : Word)
  /-- The surrounding system resets the unit (R290, R291). -/
  | reset
deriving DecidableEq, Repr

/-- The names an assembler literal may use: the named operands of `95_test_vectors.md` section 0 (R80). -/
inductive AsmName where
  | minSqrtRatio
  | maxSqrtRatio
  | p101
  | p121
  | p1000
  | p10000
  | p100over101
  | p100over1000
deriving DecidableEq, Repr

/-- The assembler's integer operand: a literal (decimal and hexadecimal spell the same value), a power `2^k` or
`10^k`, a sum, difference or product of those, or a name (R80). -/
inductive AsmInt where
  | lit (v : Int)
  | pow2 (k : Nat)
  | pow10 (k : Nat)
  | add (a b : AsmInt)
  | sub (a b : AsmInt)
  | mul (a b : AsmInt)
  | named (n : AsmName)
deriving DecidableEq, Repr

/-- The locations `RD` can name (R80). -/
inductive AsmSource where
  | x (n : Fin Config.nx)
  | y (m : Fin Config.ny)
  | status
deriving DecidableEq, Repr

/-- A statement of a host program (R80, R81). The mandatory suffix of the four commands with a mode bit is the Boolean
field of the `Instr`. -/
inductive AsmStmt where
  /-- `WR X<n>, <int>`. -/
  | wr (n : Fin Config.nx) (v : AsmInt)
  /-- `RD X<n> | Y<m> | STATUS`. -/
  | rd (src : AsmSource)
  /-- `EXEC <mnemonic>[.<suffix>]`. -/
  | exec (i : Instr)
  /-- `EXEC 0x<hex>`: the only way to write an illegal word. -/
  | execRaw (v : Word)
  /-- `CALL <mnemonic>[.<suffix>] a0, ..., a(k-1)`: the one pseudo-instruction (R81). -/
  | call (i : Instr) (args : List AsmInt)
deriving DecidableEq, Repr

end Sys2Proof
end

