-- ==== Sys2Proof/WellFormed.lean ====
section
/-!
DEFINITION. WellFormed.lean: which words are legal commands (`30_encoding.md` R74, R76, R78), stated from the opcode
table's match and mask pairs, apart from the decoder; and which commands are well formed.
-/

namespace Sys2Proof

/-- The names under which `decode` rejects a word: the four ways of R78, the last one split by the mode bit. The unit
records nothing about the offending word (R268); every one of them ends in `ILLEGAL`. -/
inductive IllegalReason where
  /-- Data bits 255:32 are not zero. Safe: the spec names this rejection (R78). -/
  | highDataBits
  /-- `RSV`, bits 31:10, is not zero. Safe: the spec names this rejection (R78). -/
  | reservedBits
  /-- `OPC` is 0x00 or 0x0F to 0xFF. Safe: the spec names this rejection (R78). -/
  | undefinedOpcode
  /-- `RU` is set on an operation without `roundUp`. Safe: the spec names this rejection (R78). -/
  | strayRoundUp
  /-- `ZFO` is set on an operation without `zeroForOne`. Safe: the spec names this rejection (R78). -/
  | strayZeroForOne
deriving DecidableEq, Repr

/-- A row of the opcode table: a word `w` selects it when `w & mask = match` (R74, R76). -/
structure TableRow where
  pattern : Nat
  mask : Nat
deriving DecidableEq, Repr

/-- The fourteen match and mask pairs of R74, in the table's order. -/
def opcodeTable : List TableRow :=
  [ ⟨0x00000001, 0xFFFFFFFF⟩, ⟨0x00000002, 0xFFFFFFFF⟩, ⟨0x00000003, 0xFFFFFFFF⟩, ⟨0x00000004, 0xFFFFFFFF⟩,
    ⟨0x00000005, 0xFFFFFFFF⟩, ⟨0x00000006, 0xFFFFFEFF⟩, ⟨0x00000007, 0xFFFFFEFF⟩, ⟨0x00000008, 0xFFFFFDFF⟩,
    ⟨0x00000009, 0xFFFFFDFF⟩, ⟨0x0000000A, 0xFFFFFFFF⟩, ⟨0x0000000B, 0xFFFFFFFF⟩, ⟨0x0000000C, 0xFFFFFFFF⟩,
    ⟨0x0000000D, 0xFFFFFFFF⟩, ⟨0x0000000E, 0xFFFFFFFF⟩ ]

/-- `w & mask = match` (R74). -/
def TableRow.selects (row : TableRow) (w : Nat) : Bool :=
  w &&& row.mask == row.pattern

/-- Write data is a legal command word when it fits 32 bits and selects a row of the table (R74, R76, R78). -/
def legalCommandWord (v : Word) : Bool :=
  v.toNat < 2 ^ Config.cmdlen && opcodeTable.any fun row => row.selects v.toNat

/-- Every term of `Instr` is well formed: its only fields are the Booleans of the four commands that take one, and
each value of each is one of the eighteen legal words (R71, R74). -/
def Instr.wellFormed : Instr → Bool
  | .msb => true
  | .muldivru => true
  | .adddelta => true
  | .tick2sqrt => true
  | .sqrt2tick => true
  | .amt0delta _ => true
  | .amt1delta _ => true
  | .nextpin _ => true
  | .nextpout _ => true
  | .swapstep => true
  | .subin256 => true
  | .feeinside => true
  | .tokowed => true
  | .clrf => true

/-- The number of `X` registers a command reads; they are `X[0]` up to that number (R22). -/
def Instr.operandCount : Instr → Nat
  | .msb => 1
  | .muldivru => 3
  | .adddelta => 2
  | .tick2sqrt => 1
  | .sqrt2tick => 1
  | .amt0delta _ => 3
  | .amt1delta _ => 3
  | .nextpin _ => 3
  | .nextpout _ => 3
  | .swapstep => 5
  | .subin256 => 2
  | .feeinside => 9
  | .tokowed => 5
  | .clrf => 0

/-- The number of `Y` registers a command's port-layer rule names; they are `Y[0]` up to that number, and a command
writes 0 to the others (R21, R22). -/
def Instr.resultCount : Instr → Nat
  | .msb => 1
  | .muldivru => 1
  | .adddelta => 1
  | .tick2sqrt => 1
  | .sqrt2tick => 1
  | .amt0delta _ => 1
  | .amt1delta _ => 1
  | .nextpin _ => 1
  | .nextpout _ => 1
  | .swapstep => 4
  | .subin256 => 1
  | .feeinside => 2
  | .tokowed => 2
  | .clrf => 0

/-- `CALL` needs exactly the operands its command reads (R81). -/
def AsmStmt.wellFormed : AsmStmt → Bool
  | .wr _ _ => true
  | .rd _ => true
  | .exec _ => true
  | .execRaw _ => true
  | .call i args => args.length == i.operandCount

end Sys2Proof
end

