-- ==== Sys2Proof/Decode.lean ====
section
/-!
DEFINITION. Decode.lean: the decoder of `30_encoding.md` R75 over the whole 256-bit write data, and the encoder of R70
and R73. `decode` depends on the data alone (R79) and is total.
-/

namespace Sys2Proof

/-- The slice `w[hi:lo]` as an unsigned integer (`00_scope.md` R8). -/
def bitField (w hi lo : Nat) : Nat :=
  w / 2 ^ lo % 2 ^ (hi - lo + 1)

/-- The command an opcode selects, with the two mode bits already found legal (R73). `none` for an opcode R73 does not
define. -/
def opcodeCommand (opc : Nat) (roundUp zeroForOne : Bool) : Option Instr :=
  if opc = 0x01 then some .msb
  else if opc = 0x02 then some .muldivru
  else if opc = 0x03 then some .adddelta
  else if opc = 0x04 then some .tick2sqrt
  else if opc = 0x05 then some .sqrt2tick
  else if opc = 0x06 then some (.amt0delta roundUp)
  else if opc = 0x07 then some (.amt1delta roundUp)
  else if opc = 0x08 then some (.nextpin zeroForOne)
  else if opc = 0x09 then some (.nextpout zeroForOne)
  else if opc = 0x0A then some .swapstep
  else if opc = 0x0B then some .subin256
  else if opc = 0x0C then some .feeinside
  else if opc = 0x0D then some .tokowed
  else if opc = 0x0E then some .clrf
  else none

/-- `decode(v)`: the tests of R75 in its order, each rejection under its name. -/
def decode (v : Word) : Except IllegalReason Instr :=
  let w := v.toNat
  let opc := bitField w 7 0
  let ru := bitField w 8 8
  let zfo := bitField w 9 9
  if w ≥ 2 ^ Config.cmdlen then .error .highDataBits
  else if bitField w 31 10 ≠ 0 then .error .reservedBits
  else if opc = 0 ∨ opc > 0x0E then .error .undefinedOpcode
  else if ru = 1 ∧ ¬(opc = 0x06 ∨ opc = 0x07) then .error .strayRoundUp
  else if zfo = 1 ∧ ¬(opc = 0x08 ∨ opc = 0x09) then .error .strayZeroForOne
  else
    match opcodeCommand opc (ru == 1) (zfo == 1) with
    | some i => .ok i
    | none => .error .undefinedOpcode

/-- The `OPC` field of a command (R73). -/
def Instr.opcode : Instr → Nat
  | .msb => 0x01
  | .muldivru => 0x02
  | .adddelta => 0x03
  | .tick2sqrt => 0x04
  | .sqrt2tick => 0x05
  | .amt0delta _ => 0x06
  | .amt1delta _ => 0x07
  | .nextpin _ => 0x08
  | .nextpout _ => 0x09
  | .swapstep => 0x0A
  | .subin256 => 0x0B
  | .feeinside => 0x0C
  | .tokowed => 0x0D
  | .clrf => 0x0E

/-- The `RU` bit of a command: its `roundUp`, 0 where it has none (R70). -/
def Instr.ruBit : Instr → Bool
  | .amt0delta roundUp => roundUp
  | .amt1delta roundUp => roundUp
  | .msb | .muldivru | .adddelta | .tick2sqrt | .sqrt2tick | .nextpin _ | .nextpout _ | .swapstep | .subin256
  | .feeinside | .tokowed | .clrf => false

/-- The `ZFO` bit of a command: its `zeroForOne`, 0 where it has none (R70). -/
def Instr.zfoBit : Instr → Bool
  | .nextpin zeroForOne => zeroForOne
  | .nextpout zeroForOne => zeroForOne
  | .msb | .muldivru | .adddelta | .tick2sqrt | .sqrt2tick | .amt0delta _ | .amt1delta _ | .swapstep | .subin256
  | .feeinside | .tokowed | .clrf => false

/-- `encode(i)`: the write data that executes `i`: `OPC` in bits 7:0, `RU` in bit 8, `ZFO` in bit 9, every other bit 0
(R70). -/
def encode (i : Instr) : Word :=
  BitVec.ofNat Config.xlen (i.opcode + 2 ^ 8 * i.ruBit.toNat + 2 ^ 9 * i.zfoBit.toNat)

/-- The instruction the decoder reads from the table's word `w` of `nbits` bits: the write data that holds those bits
with every bit above them 0 (R57, R70). -/
def decodeTableWord (nbits w : Nat) : Option Instr :=
  match decode (BitVec.ofNat Config.xlen (w % 2 ^ nbits)) with
  | .ok i => some i
  | .error _ => none

end Sys2Proof
end

