-- ==== Sys2Proof/Machine/Rom.lean ====
section
/-!
DEFINITION. Machine/Rom.lean: the function layer's constants (`00_scope.md` R6) and the constant ROM (`10_state.md`
R27). Not state: nothing writes it and the host cannot read it. The ladder and the three logarithm constants are the
spec author's values, not D0's (G1 to G3; UNVERIFIED, assumption log 8).
-/

namespace Sys2Proof.Machine

/-- `MIN_TICK` (R6). -/
abbrev minTick : Int := -887272

/-- `MAX_TICK` (R6). -/
abbrev maxTick : Int := 887272

/-- `MIN_SQRT_RATIO` (R6). -/
abbrev minSqrtRatio : Nat := 4295128739

/-- `MAX_SQRT_RATIO` (R6). -/
abbrev maxSqrtRatio : Nat := 1461446703485210103287273052203988822378723970342

/-- `MAX_FEE`, the denominator of a fee rate (R6). -/
abbrev maxFee : Nat := 1000000

/-- `MAX_UINT256` (R6). -/
abbrev maxUint256 : Nat := 2 ^ Config.xlen - 1

/-- `MAX_UINT160`: the largest price the port accepts or produces (R6, R7). -/
abbrev maxUint160 : Nat := 2 ^ Config.priceBits - 1

/-- `MAX_UINT128`: the largest liquidity the port accepts (R6, R7). -/
abbrev maxUint128 : Nat := 2 ^ Config.liqBits - 1

/-- `Q96` (R6). -/
abbrev q96 : Nat := 2 ^ 96

/-- `Q128` (R6). -/
abbrev q128 : Nat := 2 ^ 128

/-- `Q256` (R6). -/
abbrev q256 : Nat := 2 ^ 256

/-- `LADDER[0]`, the start value of the ladder walk when bit 0 of the tick is set (R27). -/
def ladderStart : Nat := 0xfffcb933bd6fad37aa2d162d1a594001

/-- `LADDER[1]` to `LADDER[19]`, in order: the entries applied through `mulShift` (R27). -/
def ladderSteps : List Nat :=
  [ 0xfff97272373d413259a46990580e213a, 0xfff2e50f5f656932ef12357cf3c7fdcc, 0xffe5caca7e10e4e61c3624eaa0941cd0,
    0xffcb9843d60f6159c9db58835c926644, 0xff973b41fa98c081472e6896dfb254c0, 0xff2ea16466c96a3843ec78b326b52861,
    0xfe5dee046a99a2a811c461f1969c3053, 0xfcbe86c7900a88aedcffc83b479aa3a4, 0xf987a7253ac413176f2b074cf7815e54,
    0xf3392b0822b70005940c7a398e4b70f3, 0xe7159475a2c29b7443b29c7fa6e889d9, 0xd097f3bdfd2022b8845ad8f792aa5825,
    0xa9f746462d870fdf8a65dc1f90e061e5, 0x70d869a156d2a1b890bb3df62baf32f7, 0x31be135f97d08fd981231505542fcfa6,
    0x9aa508b5b7a84e1c677de54f3e99bc9, 0x5d6af8dedb81196699c329225ee604, 0x2216e584f5fa1ea926041bedfe98,
    0x48a170391f7dc42444e8fa2 ]

/-- `LOG_MUL`: turns the Q64.64 `log_2` into the Q128.128 `log_sqrt10001` (R27). -/
def logMul : Int := 255738958999603826347141

/-- `LOG_LO`: subtracted before the shift that gives `tickLow` (R27). -/
def logLo : Int := 3402992956809132418596140100660247210

/-- `LOG_HI`: added before the shift that gives `tickHigh` (R27). -/
def logHi : Int := 291339464771989622907027621153398088495

/-- The number of fraction bits of the logarithm that `getTickAtSqrtRatio` computes (R160). -/
def logIterations : Nat := 14

/-- The thresholds of the most-significant-bit search, descending (R27, R120). -/
def msbThresholds : List Nat := [128, 64, 32, 16, 8, 4, 2, 1]

end Sys2Proof.Machine
end

