-- ==== Sys2Proof/Machine/State.lean ====
section
/-!
DEFINITION. Machine/State.lean: everything the spec gives the machine (`10_state.md` R20 to R29), as plain data, and
its reset value (`70_reset_and_hazards.md` R290).

`X`, `Y`, `CODE` and `STICKY` are all of the spec's state. `CMD` holds nothing (R23), the constant ROM is not state
(R27), and there is no memory (R50) and no program counter (R24). `pending` and `reply` are the model's own fields for
the host's side of the port (assumption logs 1 and 2).
-/

namespace Sys2Proof.Machine

/-- The failure tags of the function layer (`00_scope.md` R11). -/
inductive Tag where
  | tick
  | sqrtRatio
  | zero
  | range
  | precond
deriving DecidableEq, Repr

/-- The causes for which a command fails (`60_exceptions.md` R260): the function layer's five and the port's three. -/
inductive Cause where
  | tick
  | sqrtRatio
  | zero
  | range
  | precond
  | operand
  | result
  | illegal
deriving DecidableEq, Repr

/-- `STATUS.CODE`: `OK` or a failure's cause. Nine values, as R25 and R260 allow; 9 to 15 never occur (U10). -/
inductive Code where
  | ok
  | failed (c : Cause)
deriving DecidableEq, Repr

/-- The machine. -/
structure State where
  /-- Operand registers `X[0..8]` (R20). -/
  x : XFile
  /-- Result registers `Y[0..3]` (R21). -/
  y : YFile
  /-- `STATUS.CODE`, the outcome of the latest command (R25). -/
  code : Code
  /-- `STATUS.STICKY`: a command failed since reset or the last `CLRF` (R26). -/
  sticky : Bool
  /-- The model's own: the host's events not yet performed, oldest first (R59; log 1). -/
  pending : List HostEvent
  /-- The model's own: what the latest transaction returned to the host (R52; log 2). -/
  reply : Option Word
deriving DecidableEq, Repr

/-- Why the machine would stop with a fault: there is no reason. A failing command is a next state (R270), and there is
no state in which the unit refuses commands (R274); every command on every state has exactly one successor (log 6). -/
inductive Fault where
deriving DecidableEq, Repr

/-- Why a command would have no meaning. -/
inductive Refusal where
  /-- Raised by an arm of `exec` whose instruction has no meaning yet; no arm raises it in this model. Safe: nothing can
  be proved of an instruction refused so. -/
  | notModelled (mnemonic : String)
deriving DecidableEq, Repr

/-- What a command's execution and a step answer. -/
abbrev Result := Host.Outcome State Fault Refusal

/-- The state after reset, before the first host transaction: every register 0, `CODE` = `OK`, `STICKY` = 0 (R290). The
host has no event pending and has read nothing (logs 1 and 2). -/
def State.reset : State where
  x := Vector.replicate Config.nx 0
  y := Vector.replicate Config.ny 0
  code := .ok
  sticky := false
  pending := []
  reply := none

end Sys2Proof.Machine
end

