-- ==== Sys2Proof/Machine/Arith.lean ====
section
/-!
DEFINITION. Machine/Arith.lean: the integer primitives of `40_arithmetic_primitives.md` R100 to R106, over unbounded
integers. A quantity the spec restricts to non-negative integers is a `Nat` (assumption log 7); a signed one an `Int`.
-/

namespace Sys2Proof.Machine

/-- `a div b`: the floor of the quotient, `fail PRECOND` for every dividend when `b = 0` (R100). -/
def divide (a b : Nat) : Except Tag Nat :=
  if b = 0 then .error .precond else .ok (a / b)

/-- `a << n = a * 2^n` (R101). -/
def shl (a n : Nat) : Nat := a * 2 ^ n

/-- `a >> n = floor(a / 2^n)` (R101). -/
def shr (a n : Nat) : Nat := a / 2 ^ n

/-- `a << n` on every integer (R101). -/
def shlInt (a : Int) (n : Nat) : Int := a * 2 ^ n

/-- `a >> n` on every integer, rounding toward minus infinity (R101). -/
def shrInt (a : Int) (n : Nat) : Int := a / 2 ^ n

/-- `absTick & 2^k != 0`: bit `k` of a non-negative integer (R102). -/
def bitSet (a k : Nat) : Bool := a &&& 2 ^ k != 0

/-- `u256(v) = v mod 2^256` (R103). -/
def u256 (v : Nat) : Nat := v % q256

/-- `mul256(a, b) = u256(a * b)` (R103). -/
def mul256 (a b : Nat) : Nat := u256 (a * b)

/-- `add256(a, b) = u256(a + b)` (R103). -/
def add256 (a b : Nat) : Nat := u256 (a + b)

/-- `sint256(w)`: a register read as a two's-complement integer (R104, R72). -/
def sint256 (w : Word) : Int :=
  if w.toNat < 2 ^ 255 then (w.toNat : Int) else (w.toNat : Int) - q256

/-- `enc256(v)`: `v` if `v >= 0`, else `v + 2^256`, as a register holds it (R104). The spec defines it on
`[-2^255, 2^255 - 1]`; outside, this is `v` modulo `2^256`, which nothing in the model reaches. -/
def enc256 (v : Int) : Word :=
  if v ≥ 0 then BitVec.ofInt Config.xlen v else BitVec.ofInt Config.xlen (v + q256)

/-- `mulDiv(a, b, d) = (a * b) div d`, the product exact (R105). -/
def mulDiv (a b d : Nat) : Except Tag Nat := divide (a * b) d

/-- `mulShift(a, b) = (a * b) >> 128` (`44_tick_sqrt_price.md` R151). -/
def mulShift (a b : Nat) : Nat := shr (a * b) 128

end Sys2Proof.Machine
end

