-- ==== Sys2Proof/Machine/Flags.lean ====
section
/-!
DEFINITION. Machine/Flags.lean: the `STATUS` register (`10_state.md` R25, R26; `60_exceptions.md` R260). There are no
other flags: no operation sets a carry, overflow, zero or sign flag (`40_arithmetic_primitives.md` R108).
-/

namespace Sys2Proof.Machine

/-- The cause a function-layer failure is reported under (R260). -/
def Tag.cause : Tag → Cause
  | .tick => .tick
  | .sqrtRatio => .sqrtRatio
  | .zero => .zero
  | .range => .range
  | .precond => .precond

/-- `code(T)`: the number of a cause (R260). -/
def Cause.number : Cause → Nat
  | .tick => 1
  | .sqrtRatio => 2
  | .zero => 3
  | .range => 4
  | .precond => 5
  | .operand => 6
  | .result => 7
  | .illegal => 8

/-- `STATUS.CODE` as a number, 0 for `OK` (R260). -/
def Code.number : Code → Nat
  | .ok => 0
  | .failed c => c.number

/-- The 32-bit `STATUS` register: `CODE` in bits 3:0, `STICKY` in bit 4, bits 31:5 zero (R25, R52). -/
def State.statusWord (s : State) : StatusWord :=
  BitVec.ofNat 32 (s.code.number + 16 * s.sticky.toNat)

end Sys2Proof.Machine
end

