-- ==== Sys2Proof/Machine/Operands.lean ====
section
/-!
DEFINITION. Machine/Operands.lean: how a command reads its operands (`10_state.md` R22, `30_encoding.md` R72), the
operand checks (`60_exceptions.md` R266), and the ranges and encodings of results (`60_exceptions.md` R267).
-/

namespace Sys2Proof.Machine

/-- `X[i]` as an unsigned integer (`00_scope.md` R10). -/
def State.xUnsigned (s : State) (i : Fin Config.nx) : Nat := s.x[i].toNat

/-- `sint256(X[i])`: `X[i]` as a signed operand (R72). -/
def State.xSigned (s : State) (i : Fin Config.nx) : Int := sint256 s.x[i]

/-- One operand check: register `reg` holds at most `bound` (R266). -/
structure OperandCheck where
  reg : Fin Config.nx
  bound : Nat
deriving DecidableEq, Repr

/-- A price operand: at most 160 bits (R266). -/
def priceOperand (i : Fin Config.nx) : OperandCheck := ⟨i, maxUint160⟩

/-- A liquidity operand: at most 128 bits (R266). -/
def liquidityOperand (i : Fin Config.nx) : OperandCheck := ⟨i, maxUint128⟩

/-- A fee operand: below `MAX_FEE` (R266). -/
def feeOperand (i : Fin Config.nx) : OperandCheck := ⟨i, maxFee - 1⟩

/-- All of a command's operand checks at once (R266, R269 step 3). -/
def State.operandsAccepted (s : State) (checks : List OperandCheck) : Bool :=
  checks.all fun c => s.xUnsigned c.reg ≤ c.bound

/-- One component of a function's result, under the range its `Y` register has (R267). -/
inductive Component where
  /-- An unsigned value: fits in `[0, 2^256 - 1]`. -/
  | unsigned (v : Int)
  /-- A sqrt price: fits in `[0, 2^160 - 1]`. -/
  | price (v : Int)
  /-- A tick, written through `enc256`: fits in `[-2^255, 2^255 - 1]` (R104, R161). -/
  | tick (v : Int)
deriving DecidableEq, Repr

/-- The component is inside its register's range (R267, R269 step 5). -/
def Component.fits : Component → Bool
  | .unsigned v => 0 ≤ v && v ≤ (maxUint256 : Int)
  | .price v => 0 ≤ v && v ≤ (maxUint160 : Int)
  | .tick v => -(2 ^ 255) ≤ v && v < 2 ^ 255

/-- What the `Y` register receives (R269 step 6). -/
def Component.word : Component → Word
  | .unsigned v => BitVec.ofInt Config.xlen v
  | .price v => BitVec.ofInt Config.xlen v
  | .tick v => enc256 v

/-- The word `Y[i]` receives from a result tuple: its component, or 0 past the tuple's end (R21, R269 step 6). -/
def componentWord (r : List Component) (i : Nat) : Word :=
  match r[i]? with
  | some c => c.word
  | none => 0

/-- The `Y` file a result tuple gives (R21, R269 step 6). -/
def resultFile (r : List Component) : YFile :=
  #v[componentWord r 0, componentWord r 1, componentWord r 2, componentWord r 3]

end Sys2Proof.Machine
end

