-- ==== Sys2Proof/Machine/Ops.lean ====
section
/-!
DEFINITION. Machine/Ops.lean: the shared operations. `raise` is failure entry, the unit's only kind of exception
(`60_exceptions.md` R270); there is no return from it, since nothing is saved and control goes nowhere (R274).
`commit` and `runCommand` are the common command sequence (R269). `regRead` and `storeRegister` are the port's reads
and plain writes (`20_memory.md` R52, R53).
-/

namespace Sys2Proof.Machine

/-- The `Y` file with 0 in every register. -/
def zeroResults : YFile := #v[0, 0, 0, 0]

/-- `raise T` (R270): `Y` zeroed, `CODE` the cause, `STICKY` set; nothing else changes. -/
def State.raise (s : State) (c : Cause) : State :=
  { s with y := zeroResults, code := .failed c, sticky := true }

/-- Success (R269 step 6, R271): the results and `CODE` = `OK` at once; `STICKY` unchanged. -/
def State.commit (s : State) (y : YFile) : State :=
  { s with y := y, code := .ok }

/-- `CLRF`'s effect (R250, R269 step 2). -/
def State.clearFailure (s : State) : State :=
  { s with y := zeroResults, code := .ok, sticky := false }

/-- Steps 3 to 6 of the command sequence (R269): operand checks, the function's value or failure, result checks,
commit. -/
def State.runCommand (s : State) (checks : List OperandCheck) (f : Except Tag (List Component)) : Result :=
  if s.operandsAccepted checks then
    match f with
    | .error t => .next (s.raise t.cause)
    | .ok r => if r.all Component.fits then .next (s.commit (resultFile r)) else .next (s.raise .result)
  else .next (s.raise .operand)

/-- The index of `CMD` (R51). -/
def cmdIndex : RegIndex := 24

/-- The index of `STATUS` (R51). -/
def statusIndex : RegIndex := 25

/-- `RegRead(idx)`: the value returned; no state changes (R52). Reserved indices and `CMD` read 0 (R54). -/
def State.regRead (s : State) (idx : RegIndex) : Word :=
  if h : idx.toNat < Config.nx then s.x[idx.toNat]
  else if h : 16 ≤ idx.toNat ∧ idx.toNat < 16 + Config.ny then s.y[idx.toNat - 16]
  else if idx = statusIndex then s.statusWord.zeroExtend Config.xlen
  else 0

/-- `RegWrite(idx, v)` at every index but `CMD`: an `X` register stores the value; `Y`, `STATUS` and reserved indices
drop it (R53, R54). -/
def State.storeRegister (s : State) (idx : RegIndex) (v : Word) : State :=
  if h : idx.toNat < Config.nx then { s with x := s.x.set idx.toNat v } else s

/-- A reset of the unit (R290, R291): every register to its reset value. The events the host has not yet performed
stay pending (log 4). -/
def State.resetUnit (s : State) : State :=
  { State.reset with pending := s.pending, reply := s.reply }

/-- The unit takes the oldest event off the port: `rest` stays pending and nothing has been answered yet
(logs 1 and 2). -/
def State.accept (s : State) (rest : List HostEvent) : State :=
  { s with pending := rest, reply := none }

/-- The unit answers the host's read with `v` (log 2). -/
def State.answer (s : State) (v : Word) : State :=
  { s with reply := some v }

end Sys2Proof.Machine
end

