-- ==== Sys2Proof/Machine/Control.lean ====
section
/-!
DEFINITION. Machine/Control.lean: `CLRF`, the one control operation (`48_control.md` R250 to R255).
-/

namespace Sys2Proof.Machine

/-- `CLRF`: `Y`, `CODE` and `STICKY` to 0; it reads nothing and cannot fail (R250). -/
def execClrf (s : State) : Result :=
  .next s.clearFailure

end Sys2Proof.Machine
end

