-- ==== Sys2Proof/Machine/FeeMath.lean ====
section
/-!
DEFINITION. Machine/FeeMath.lean: `SUBIN256`, `FEEINSIDE`, `TOKOWED` (`47_fee_growth.md` R230 to R238).
-/

namespace Sys2Proof.Machine

/-- `subIn256(x, y)`: the difference, with 2^256 added once if it is negative (R230). -/
def subIn256 (x y : Int) : Int :=
  if x - y < 0 then (q256 : Int) + (x - y) else x - y

/-- The growth below the lower tick, for one token (R232). -/
def growthBelow (outsideLower tickLower tickCurrent global : Int) : Int :=
  if tickCurrent ≥ tickLower then outsideLower else subIn256 global outsideLower

/-- The growth above the upper tick, for one token; the comparison is strict (R232). -/
def growthAbove (outsideUpper tickUpper tickCurrent global : Int) : Int :=
  if tickCurrent < tickUpper then outsideUpper else subIn256 global outsideUpper

/-- `getFeeGrowthInside` for one token: `global - below - above`, each subtraction wrapped (R232). The spec's function
is this one for each token, with the same three ticks. -/
def growthInside (outsideLower outsideUpper tickLower tickUpper tickCurrent global : Int) : Int :=
  subIn256 (subIn256 global (growthBelow outsideLower tickLower tickCurrent global))
    (growthAbove outsideUpper tickUpper tickCurrent global)

/-- `getTokensOwed` for one token: the wrapped growth since the snapshot, scaled by liquidity (R234). The spec's
function is this one for each token, with the same liquidity. -/
def tokenOwed (last liquidity current : Int) : Int :=
  shrInt (subIn256 current last * liquidity) 128

/-- `SUBIN256` (R231). -/
def execSubIn256 (s : State) : Result :=
  s.runCommand [] (.ok [.unsigned (subIn256 (s.xUnsigned 0) (s.xUnsigned 1))])

/-- `FEEINSIDE` (R233): `X[0..3]` the outside snapshots, `X[4..6]` the ticks, `X[7..8]` the global growths. -/
def execFeeInside (s : State) : Result :=
  s.runCommand []
    (.ok [.unsigned (growthInside (s.xUnsigned 0) (s.xUnsigned 2) (s.xSigned 4) (s.xSigned 5) (s.xSigned 6) (s.xUnsigned 7)),
      .unsigned (growthInside (s.xUnsigned 1) (s.xUnsigned 3) (s.xSigned 4) (s.xSigned 5) (s.xSigned 6) (s.xUnsigned 8))])

/-- `TOKOWED` (R235). -/
def execTokOwed (s : State) : Result :=
  s.runCommand [liquidityOperand 2]
    (.ok [.unsigned (tokenOwed (s.xUnsigned 0) (s.xUnsigned 2) (s.xUnsigned 3)),
      .unsigned (tokenOwed (s.xUnsigned 1) (s.xUnsigned 2) (s.xUnsigned 4))])

end Sys2Proof.Machine
end

