-- ==== Sys2Proof/Machine/FullMath.lean ====
section
/-!
DEFINITION. Machine/FullMath.lean: `MULDIVRU` (`42_fullmath.md` R130 to R133).
-/

namespace Sys2Proof.Machine

/-- `mulDivRoundingUp(a, b, denominator)`: the exact ceiling, `fail PRECOND` on a zero denominator (R130). -/
def mulDivRoundingUp (a b denominator : Nat) : Except Tag Nat :=
  if denominator = 0 then .error .precond
  else
    let product := a * b
    let result := product / denominator
    .ok (if product % denominator ≠ 0 then result + 1 else result)

/-- `MULDIVRU` (R132). -/
def execMulDivRu (s : State) : Result :=
  s.runCommand [] ((mulDivRoundingUp (s.xUnsigned 0) (s.xUnsigned 1) (s.xUnsigned 2)).map fun (r : Nat) => [.unsigned r])

end Sys2Proof.Machine
end

