-- ==== Sys2Proof/Machine/LiquidityMath.lean ====
section
/-!
DEFINITION. Machine/LiquidityMath.lean: `ADDDELTA` (`43_liquidity_delta.md` R140 to R142).
-/

namespace Sys2Proof.Machine

/-- `addDelta(x, y)`, in D0's two-arm form; never fails and may be negative (R140). -/
def addDelta (x y : Int) : Int :=
  if y < 0 then x - -y else x + y

/-- `ADDDELTA` (R141). -/
def execAddDelta (s : State) : Result :=
  s.runCommand [liquidityOperand 0] (.ok [.unsigned (addDelta (s.xUnsigned 0) (s.xSigned 1))])

end Sys2Proof.Machine
end

