-- ==== Sys2Proof/Machine/Msb.lean ====
section
/-!
DEFINITION. Machine/Msb.lean: `MSB` (`41_msb.md` R120 to R123).
-/

namespace Sys2Proof.Machine

/-- The search loop of R120 over the thresholds that are left, from the remaining value and the index so far. -/
def msbSearch : List Nat → Nat → Nat → Nat
  | [], _, msb => msb
  | p :: ps, x, msb => if x ≥ 2 ^ p then msbSearch ps (shr x p) (msb + p) else msbSearch ps x msb

/-- `mostSignificantBit(x)`, for any integer (R120). -/
def mostSignificantBit (x : Int) : Except Tag Nat :=
  if x ≤ 0 then .error .zero
  else if x > (maxUint256 : Int) then .error .range
  else .ok (msbSearch msbThresholds x.toNat 0)

/-- `MSB` (R122). -/
def execMsb (s : State) : Result :=
  s.runCommand [] ((mostSignificantBit (s.xUnsigned 0)).map fun (r : Nat) => [.unsigned r])

end Sys2Proof.Machine
end

