-- ==== Sys2Proof/Machine/SqrtPriceMath.lean ====
section
/-!
DEFINITION. Machine/SqrtPriceMath.lean: `AMT0DELTA`, `AMT1DELTA`, `NEXTPIN`, `NEXTPOUT` (`45_sqrt_price_movement.md`
R180 to R197). The formulas are the spec author's (G4, G5; UNVERIFIED, assumption log 8).
-/

namespace Sys2Proof.Machine

/-- `getAmount0Delta(a, b, L, roundUp)`: the prices sorted, then two divisions, each rounded in the chosen direction;
a zero lower price fails `PRECOND` (R180). -/
def getAmount0Delta (a b liquidity : Nat) (roundUp : Bool) : Except Tag Nat :=
  let lower := if a > b then b else a
  let upper := if a > b then a else b
  let numerator1 := shl liquidity 96
  let numerator2 := upper - lower
  if roundUp then mulDivRoundingUp numerator1 numerator2 upper >>= fun t => mulDivRoundingUp t 1 lower
  else divide (numerator1 * numerator2) upper >>= fun t => divide t lower

/-- `getAmount1Delta(a, b, L, roundUp)`: never fails, its divisor being the constant `Q96` (R182). -/
def getAmount1Delta (a b liquidity : Nat) (roundUp : Bool) : Except Tag Nat :=
  let lower := if a > b then b else a
  let upper := if a > b then a else b
  if roundUp then mulDivRoundingUp liquidity (upper - lower) q96
  else divide (liquidity * (upper - lower)) q96

/-- The second formula of the amount0 routine's add branch (R194). -/
def nextFromAmount0Fallback (sqrtP liquidity amount : Nat) : Except Tag Nat :=
  divide (shl liquidity 96) sqrtP >>= fun quotient => mulDivRoundingUp (shl liquidity 96) 1 (quotient + amount)

/-- The amount0 routine, rounding up (R194). A wrapped multiplication and a wrapped addition both reach the second
formula in the add branch; a wrapped multiplication fails in the subtract branch. -/
def nextFromAmount0RoundingUp (sqrtP liquidity amount : Nat) (add : Bool) : Except Tag Nat :=
  if amount = 0 then .ok sqrtP
  else
    let numerator1 := shl liquidity 96
    let product := mul256 amount sqrtP
    if add then
      if product / amount = sqrtP then
        let denominator := add256 numerator1 product
        if denominator ≥ numerator1 then mulDivRoundingUp numerator1 sqrtP denominator
        else nextFromAmount0Fallback sqrtP liquidity amount
      else nextFromAmount0Fallback sqrtP liquidity amount
    else if product / amount = sqrtP then
      if numerator1 > product then mulDivRoundingUp numerator1 sqrtP (numerator1 - product)
      else .error .precond
    else .error .precond

/-- The quotient of the amount1 routine's add branch: a shift when the amount fits 160 bits, else a full-precision
division (R195). -/
def amount1AddQuotient (liquidity amount : Nat) : Except Tag Nat :=
  if amount ≤ maxUint160 then divide (shl amount 96) liquidity else mulDiv amount q96 liquidity

/-- The amount1 routine, rounding down (R195). -/
def nextFromAmount1RoundingDown (sqrtP liquidity amount : Nat) (add : Bool) : Except Tag Nat :=
  if add then (amount1AddQuotient liquidity amount).map fun (quotient : Nat) => sqrtP + quotient
  else
    mulDivRoundingUp amount q96 liquidity >>= fun quotient =>
      if sqrtP > quotient then .ok (sqrtP - quotient) else .error .precond

/-- `getNextSqrtPriceFromInput(sqrtP, L, amountIn, zeroForOne)` (R190). -/
def getNextSqrtPriceFromInput (sqrtP liquidity amountIn : Nat) (zeroForOne : Bool) : Except Tag Nat :=
  if sqrtP = 0 then .error .precond
  else if liquidity = 0 then .error .precond
  else if zeroForOne then nextFromAmount0RoundingUp sqrtP liquidity amountIn true
  else nextFromAmount1RoundingDown sqrtP liquidity amountIn true

/-- `getNextSqrtPriceFromOutput(sqrtP, L, amountOut, zeroForOne)`: the mirror image (R192). -/
def getNextSqrtPriceFromOutput (sqrtP liquidity amountOut : Nat) (zeroForOne : Bool) : Except Tag Nat :=
  if sqrtP = 0 then .error .precond
  else if liquidity = 0 then .error .precond
  else if zeroForOne then nextFromAmount1RoundingDown sqrtP liquidity amountOut false
  else nextFromAmount0RoundingUp sqrtP liquidity amountOut false

/-- `AMT0DELTA` (R181). -/
def execAmt0Delta (roundUp : Bool) (s : State) : Result :=
  s.runCommand [priceOperand 0, priceOperand 1, liquidityOperand 2]
    ((getAmount0Delta (s.xUnsigned 0) (s.xUnsigned 1) (s.xUnsigned 2) roundUp).map fun (r : Nat) => [.unsigned r])

/-- `AMT1DELTA` (R183). -/
def execAmt1Delta (roundUp : Bool) (s : State) : Result :=
  s.runCommand [priceOperand 0, priceOperand 1, liquidityOperand 2]
    ((getAmount1Delta (s.xUnsigned 0) (s.xUnsigned 1) (s.xUnsigned 2) roundUp).map fun (r : Nat) => [.unsigned r])

/-- `NEXTPIN` (R191). -/
def execNextPIn (zeroForOne : Bool) (s : State) : Result :=
  s.runCommand [priceOperand 0, liquidityOperand 1]
    ((getNextSqrtPriceFromInput (s.xUnsigned 0) (s.xUnsigned 1) (s.xUnsigned 2) zeroForOne).map fun (r : Nat) => [.price r])

/-- `NEXTPOUT` (R193). -/
def execNextPOut (zeroForOne : Bool) (s : State) : Result :=
  s.runCommand [priceOperand 0, liquidityOperand 1]
    ((getNextSqrtPriceFromOutput (s.xUnsigned 0) (s.xUnsigned 1) (s.xUnsigned 2) zeroForOne).map fun (r : Nat) => [.price r])

end Sys2Proof.Machine
end

