-- ==== Sys2Proof/Machine/SwapMath.lean ====
section
/-!
DEFINITION. Machine/SwapMath.lean: `SWAPSTEP` (`46_swap_step.md` R210 to R215).
-/

namespace Sys2Proof.Machine

/-- The 4-tuple `computeSwapStep` returns (R210). Only the fee is a difference that the function layer does not prove
non-negative (R214), so only it is signed. -/
structure SwapStep where
  sqrtNext : Nat
  amountIn : Nat
  amountOut : Nat
  feeAmount : Int
deriving DecidableEq, Repr

/-- The amount paid in to move the price from `cur` to `price`, rounded up: token0 when `zeroForOne`, else token1
(R210). -/
def amountInBetween (zeroForOne : Bool) (cur price liquidity : Nat) : Except Tag Nat :=
  if zeroForOne then getAmount0Delta price cur liquidity true else getAmount1Delta cur price liquidity true

/-- The amount taken out when the price moves from `cur` to `price`, rounded down: token1 when `zeroForOne`, else
token0 (R210). -/
def amountOutBetween (zeroForOne : Bool) (cur price liquidity : Nat) : Except Tag Nat :=
  if zeroForOne then getAmount1Delta price cur liquidity false else getAmount0Delta cur price liquidity false

/-- `remLessFee`: the exact-in amount after the fee is set aside (R210). -/
def lessFee (rem fee : Nat) : Nat := rem * (maxFee - fee) / maxFee

/-- The amount to the target that decides stage 1 of R210: what must be paid in when `exactIn`, else what can be taken
out. -/
def amountToTarget (zeroForOne exactIn : Bool) (cur tgt liquidity : Nat) : Except Tag Nat :=
  if exactIn then amountInBetween zeroForOne cur tgt liquidity else amountOutBetween zeroForOne cur tgt liquidity

/-- Stage 1 of R210: the next price, the target when the amount (less the fee when `exactIn`) covers `toTarget`.
`amount` is the magnitude of `amountRemaining`. -/
def swapNextPrice (zeroForOne exactIn : Bool) (cur tgt liquidity amount fee toTarget : Nat) : Except Tag Nat :=
  if exactIn then
    if lessFee amount fee ≥ toTarget then .ok tgt
    else getNextSqrtPriceFromInput cur liquidity (lessFee amount fee) zeroForOne
  else if amount ≥ toTarget then .ok tgt
  else getNextSqrtPriceFromOutput cur liquidity amount zeroForOne

/-- The amount in of stage 2 of R210: the stage-1 amount kept exactly when `max and exactIn`. -/
def swapAmountIn (zeroForOne exactIn : Bool) (cur tgt liquidity next toTarget : Nat) : Except Tag Nat :=
  if next = tgt ∧ exactIn = true then .ok toTarget else amountInBetween zeroForOne cur next liquidity

/-- The amount out of stage 2 of R210: the stage-1 amount kept exactly when `max and not exactIn`. -/
def swapAmountOut (zeroForOne exactIn : Bool) (cur tgt liquidity next toTarget : Nat) : Except Tag Nat :=
  if next = tgt ∧ exactIn = false then .ok toTarget else amountOutBetween zeroForOne cur next liquidity

/-- The clamp, stage 3 of R210: an exact-out step never gives more than the request. -/
def swapClamp (exactIn : Bool) (amount amountOut : Nat) : Nat :=
  if exactIn = false ∧ amountOut > amount then amount else amountOut

/-- Stage 4 of R210: the whole remainder when an exact-in step stops short of the target, else the fee on `amountIn`,
rounded up. -/
def swapFee (exactIn : Bool) (tgt amount fee next amountIn : Nat) : Except Tag Int :=
  if exactIn = true ∧ next ≠ tgt then .ok ((amount : Int) - amountIn)
  else (mulDivRoundingUp amountIn fee (maxFee - fee)).map fun (n : Nat) => (n : Int)

/-- `computeSwapStep(cur, tgt, L, rem, fee)`, for `fee < MAX_FEE` (R210). -/
def computeSwapStep (cur tgt liquidity : Nat) (rem : Int) (fee : Nat) : Except Tag SwapStep :=
  let zeroForOne := decide (cur ≥ tgt)
  let exactIn := decide (rem ≥ 0)
  let amount := rem.natAbs
  amountToTarget zeroForOne exactIn cur tgt liquidity >>= fun toTarget =>
    swapNextPrice zeroForOne exactIn cur tgt liquidity amount fee toTarget >>= fun next =>
      swapAmountIn zeroForOne exactIn cur tgt liquidity next toTarget >>= fun amountIn =>
        swapAmountOut zeroForOne exactIn cur tgt liquidity next toTarget >>= fun amountOut =>
          (swapFee exactIn tgt amount fee next amountIn).map fun (feeAmount : Int) =>
            ⟨next, amountIn, swapClamp exactIn amount amountOut, feeAmount⟩

/-- `SWAPSTEP` (R211). -/
def execSwapStep (s : State) : Result :=
  s.runCommand [priceOperand 0, priceOperand 1, liquidityOperand 2, feeOperand 4]
    ((computeSwapStep (s.xUnsigned 0) (s.xUnsigned 1) (s.xUnsigned 2) (s.xSigned 3) (s.xUnsigned 4)).map fun (r : SwapStep) =>
      [.price r.sqrtNext, .unsigned r.amountIn, .unsigned r.amountOut, .unsigned r.feeAmount])

end Sys2Proof.Machine
end

