-- ==== Sys2Proof/Machine/TickMath.lean ====
section
/-!
DEFINITION. Machine/TickMath.lean: `TICK2SQRT` and `SQRT2TICK` (`44_tick_sqrt_price.md` R150 to R164).
-/

namespace Sys2Proof.Machine

/-- The ladder walk of R152: for the entries that are left, from bit `k` upwards, multiply the running ratio by each
entry whose bit of `absTick` is set. -/
def ladderWalk (absTick : Nat) : List Nat → Nat → Nat → Nat
  | [], _, ratio => ratio
  | c :: cs, k, ratio => ladderWalk absTick cs (k + 1) (if bitSet absTick k then mulShift ratio c else ratio)

/-- The running ratio after the whole ladder: the Q128 value of `sqrt(1.0001^(-absTick))` (R152). -/
def ladderRatio (absTick : Nat) : Nat :=
  ladderWalk absTick ladderSteps 1 (if bitSet absTick 0 then ladderStart else q128)

/-- The last step of R152: rescale a Q128 ratio to Q96, rounding up. -/
def ratioToPrice (ratio : Nat) : Nat :=
  if ratio % 2 ^ 32 ≠ 0 then shr ratio 32 + 1 else shr ratio 32

/-- The inversion of R152: the ratio of a positive tick is the reciprocal of the ladder's. -/
def signedRatio (tick : Int) : Except Tag Nat :=
  if tick > 0 then divide maxUint256 (ladderRatio tick.natAbs) else .ok (ladderRatio tick.natAbs)

/-- `getSqrtRatioAtTick(tick)`, for any integer (R152). -/
def getSqrtRatioAtTick (tick : Int) : Except Tag Nat :=
  if minTick ≤ tick ∧ tick ≤ maxTick then (signedRatio tick).map ratioToPrice else .error .tick

/-- The logarithm loop of R160: `n` iterations left, the next one number `i`, from `r` and the accumulator `log_2`. -/
def logLoop : Nat → Nat → Nat → Int → Int
  | 0, _, _, log2 => log2
  | n + 1, i, r, log2 =>
    let squared := shr (r * r) 127
    let f := shr squared 128
    logLoop n (i + 1) (shr squared f) (log2 + shl f (63 - i))

/-- `r` normalised to `[2^127, 2^128)` by the index of the top bit (R160). -/
def normalizeRatio (x128 msb : Nat) : Nat :=
  if msb ≥ 128 then shr x128 (msb - 127) else shl x128 (127 - msb)

/-- `log_2`: the signed Q64.64 base-2 logarithm of a Q128 ratio whose top bit is `msb` (R160). -/
def log2Ratio (x128 msb : Nat) : Int :=
  logLoop logIterations 0 (normalizeRatio x128 msb) (shlInt ((msb : Int) - 128) 64)

/-- `tickLow` (R160). -/
def tickLowOf (log : Int) : Int := shrInt (log - logLo) 128

/-- `tickHigh` (R160). -/
def tickHighOf (log : Int) : Int := shrInt (log + logHi) 128

/-- The choice between the two candidates (R160): the high one when its price does not exceed `p`. The inner `TICK`
arm is kept (R163). -/
def chooseTick (p tickLow tickHigh : Int) : Except Tag Int :=
  if tickLow = tickHigh then .ok tickLow
  else (getSqrtRatioAtTick tickHigh).map fun (sqrtHigh : Nat) => if (sqrtHigh : Int) ≤ p then tickHigh else tickLow

/-- The Q128.128 logarithm to base `sqrt(1.0001)` of a price, from the index of the top bit of its Q128 form (R160). -/
def logSqrt10001 (x128 msb : Nat) : Int := log2Ratio x128 msb * logMul

/-- `getTickAtSqrtRatio(p)`, for any integer (R160). -/
def getTickAtSqrtRatio (p : Int) : Except Tag Int :=
  if (minSqrtRatio : Int) ≤ p ∧ p < (maxSqrtRatio : Int) then
    let x128 := shl p.toNat 32
    mostSignificantBit x128 >>= fun msb =>
      chooseTick p (tickLowOf (logSqrt10001 x128 msb)) (tickHighOf (logSqrt10001 x128 msb))
  else .error .sqrtRatio

/-- `TICK2SQRT` (R153). -/
def execTick2Sqrt (s : State) : Result :=
  s.runCommand [] ((getSqrtRatioAtTick (s.xSigned 0)).map fun (r : Nat) => [.price r])

/-- `SQRT2TICK` (R161). -/
def execSqrt2Tick (s : State) : Result :=
  s.runCommand [] ((getTickAtSqrtRatio (s.xUnsigned 0)).map fun (t : Int) => [.tick t])

end Sys2Proof.Machine
end

