-- ==== Sys2Proof/Machine/Dispatch.lean ====
section
/-!
DEFINITION. Machine/Dispatch.lean: from a command to its meaning (`30_encoding.md` R73).
-/

namespace Sys2Proof.Machine

/-- Execute one legal command to completion: steps 2 to 6 of `60_exceptions.md` R269. -/
def exec (i : Instr) (s : State) : Host.Outcome State Fault Refusal :=
  match i with
  | .msb => Sys2Proof.Machine.execMsb s
  | .muldivru => Sys2Proof.Machine.execMulDivRu s
  | .adddelta => Sys2Proof.Machine.execAddDelta s
  | .tick2sqrt => Sys2Proof.Machine.execTick2Sqrt s
  | .sqrt2tick => Sys2Proof.Machine.execSqrt2Tick s
  | .amt0delta roundUp => Sys2Proof.Machine.execAmt0Delta roundUp s
  | .amt1delta roundUp => Sys2Proof.Machine.execAmt1Delta roundUp s
  | .nextpin zeroForOne => Sys2Proof.Machine.execNextPIn zeroForOne s
  | .nextpout zeroForOne => Sys2Proof.Machine.execNextPOut zeroForOne s
  | .swapstep => Sys2Proof.Machine.execSwapStep s
  | .subin256 => Sys2Proof.Machine.execSubIn256 s
  | .feeinside => Sys2Proof.Machine.execFeeInside s
  | .tokowed => Sys2Proof.Machine.execTokOwed s
  | .clrf => Sys2Proof.Machine.execClrf s

end Sys2Proof.Machine
end

