-- ==== Sys2Proof/Machine/Port.lean ====
section
/-!
DEFINITION. Machine/Port.lean: what the unit does with one host event (`20_memory.md` R52, R53, R59;
`60_exceptions.md` R269; `70_reset_and_hazards.md` R291). This is where a command word reaches the decoder: the unit
fetches nothing, and the write that delivers a word executes it (R23, R62).
-/

namespace Sys2Proof.Machine

/-- `execute(v)`: decode the write data, raise `ILLEGAL` on a word that is no command, else run the command (R78,
R269). -/
def execute (v : Word) (s : State) : Result :=
  match decode v with
  | .ok i => exec i s
  | .error _ => .next (s.raise .illegal)

/-- One host event, performed completely (R59). -/
def perform (ev : HostEvent) (s : State) : Result :=
  match ev with
  | .regRead idx => .next (s.answer (s.regRead idx))
  | .regWrite idx v => if idx = cmdIndex then execute v s else .next (s.storeRegister idx v)
  | .reset => .next s.resetUnit

/-- Perform the oldest pending event. With none pending nothing happens (log 3). -/
def serveHost (s : State) : Result :=
  match s.pending with
  | [] => .next s
  | ev :: rest => perform ev (s.accept rest)

/-- The state with a write of the data `w`'s low `nbits` bits to `CMD` as the host's next event (R23, R70). -/
def State.withCommand (s : State) (nbits w : Nat) : State :=
  { s with pending := .regWrite cmdIndex (BitVec.ofNat Config.xlen (w % 2 ^ nbits)) :: s.pending }

end Sys2Proof.Machine
end

