-- ==== Sys2Proof/Machine/Step.lean ====
section
/-!
DEFINITION. Machine/Step.lean: one step of the machine, the performance of the host's next event (`20_memory.md` R59).
-/

namespace Sys2Proof.Machine

/-- One step (R59). -/
def step (s : State) : Host.Outcome State Fault Refusal :=
  serveHost s

/-- The state whose very next step executes the command word `w` (log 1). -/
def State.withFetchWord (s : State) (nbits w : Nat) : State :=
  s.withCommand nbits w

end Sys2Proof.Machine
end

