-- ==== Sys2Proof/Machine/Assembler.lean ====
section
/-!
DEFINITION. Machine/Assembler.lean: the host program statements of `30_encoding.md` R80 and R81 as host events. The
spec's assembler is a way of writing programs, not part of the unit (R80); `step` does not use this file.
-/

namespace Sys2Proof.Machine

/-- The value of a named operand (`95_test_vectors.md` section 0). -/
def asmNameValue : AsmName → Int
  | .minSqrtRatio => (minSqrtRatio : Int)
  | .maxSqrtRatio => (maxSqrtRatio : Int)
  | .p101 => 79623317895830914510639640423
  | .p121 => 87150978765690771352898345369
  | .p1000 => 250541448375047931186413801569
  | .p10000 => 792281625142643375935439503360
  | .p100over101 => 78834968213693974763009544974
  | .p100over1000 => 25054144837504793118641380156

/-- The value of an assembler integer (R80). -/
def asmIntValue : AsmInt → Int
  | .lit v => v
  | .pow2 k => 2 ^ k
  | .pow10 k => 10 ^ k
  | .add a b => asmIntValue a + asmIntValue b
  | .sub a b => asmIntValue a - asmIntValue b
  | .mul a b => asmIntValue a * asmIntValue b
  | .named n => asmNameValue n

/-- The register contents an assembler integer stands for: itself, or `2^256 - v` for `-v`; `none` outside
`[-2^255, 2^256 - 1]` (R80, log 11). -/
def asmWord (e : AsmInt) : Option Word :=
  if -(2 ^ 255) ≤ asmIntValue e ∧ asmIntValue e ≤ (maxUint256 : Int) then some (enc256 (asmIntValue e)) else none

/-- The register index an `RD` source names (R80, R51). -/
def asmSourceIndex : AsmSource → RegIndex
  | .x n => BitVec.ofNat Config.idxlen n.val
  | .y m => BitVec.ofNat Config.idxlen (16 + m.val)
  | .status => statusIndex

/-- `WR X<n>, <int>` (R80). -/
def asmWrite (n : Nat) (e : AsmInt) : Option HostEvent :=
  (asmWord e).map fun v => .regWrite (BitVec.ofNat Config.idxlen n) v

/-- `WR X<n>, a0; WR X<n+1>, a1; ...` (R81). -/
def asmOperands : Nat → List AsmInt → Option (List HostEvent)
  | _, [] => some []
  | n, e :: es => do
    let ev ← asmWrite n e
    let evs ← asmOperands (n + 1) es
    some (ev :: evs)

/-- The host events of one statement; `none` for a statement R80 and R81 do not allow. -/
def assembleStmt (st : AsmStmt) : Option (List HostEvent) :=
  if st.wellFormed then
    match st with
    | .wr n e => (asmWrite n.val e).map fun ev => [ev]
    | .rd src => some [.regRead (asmSourceIndex src)]
    | .exec i => some [.regWrite cmdIndex (encode i)]
    | .execRaw v => some [.regWrite cmdIndex v]
    | .call i args => (asmOperands 0 args).map fun evs => evs ++ [.regWrite cmdIndex (encode i)]
  else none

/-- The host events of a program, in order (R80). -/
def assemble : List AsmStmt → Option (List HostEvent)
  | [] => some []
  | st :: sts => do
    let evs ← assembleStmt st
    let rest ← assemble sts
    some (evs ++ rest)

end Sys2Proof.Machine
end

