-- ==== Sys2Proof/Safety.lean ====
section
/-!
DEFINITION. Safety.lean: the terms in which statements speak of good states, good runs, and what a command leaves.
-/

namespace Sys2Proof.Machine

/-- The register contents that hold the number `n`. -/
abbrev word (n : Nat) : Word := BitVec.ofNat 256 n

/-- The ceiling of `a / b`, in the form `(a + b - 1) div b` (`40_arithmetic_primitives.md` R106). -/
def ceilDiv (a b : Nat) : Nat := (a + b - 1) / b

/-- The exact token0 amount between two prices: `L * 2^96 * (b - a)` over `b` and then over the smaller price `a`, each
division rounded in the chosen direction (`45_sqrt_price_movement.md` R180). -/
def amount0Exact (roundUp : Bool) (p q liquidity : Nat) : Nat :=
  let n := liquidity * 2 ^ 96 * (max p q - min p q)
  if roundUp then ceilDiv (ceilDiv n (max p q)) (min p q) else n / max p q / min p q

/-- The exact token1 amount between two prices: `L * (b - a) / 2^96`, rounded in the chosen direction
(`45_sqrt_price_movement.md` R182). -/
def amount1Exact (roundUp : Bool) (p q liquidity : Nat) : Nat :=
  let n := liquidity * (max p q - min p q)
  if roundUp then ceilDiv n (2 ^ 96) else n / 2 ^ 96

/-- `s` after a command that succeeded with the results `y`: everything but `Y` and `CODE` as it was. -/
abbrev succeeded (s : State) (y : YFile) : State := { s with y := y, code := .ok }

/-- `s` after a command that failed for the cause `c`: everything but `Y`, `CODE` and `STICKY` as it was
(`60_exceptions.md` R270). -/
abbrev failedWith (s : State) (c : Cause) : State :=
  { s with y := #v[0, 0, 0, 0], code := .failed c, sticky := true }

/-- `s` with its oldest pending event taken off and nothing answered yet: what the host's side of the port looks like
while that event is performed. -/
abbrev served (s : State) (rest : List HostEvent) : State := { s with pending := rest, reply := none }

/-- A failure leaves no partial result and is remembered: whenever `CODE` is not `OK`, `STICKY` is 1 and every `Y`
register is 0 (`10_state.md` R25, R26; `60_exceptions.md` R270). -/
def State.Coherent (s : State) : Prop :=
  s.code ≠ .ok → s.sticky = true ∧ s.y = #v[0, 0, 0, 0]

/-- Two states agree on the operand registers a command reads (`10_state.md` R20, R22). -/
def State.AgreeOnOperands (i : Instr) (s s' : State) : Prop :=
  ∀ k : Fin Config.nx, k.val < i.operandCount → s.x[k] = s'.x[k]

/-- The table of operand checks (`60_exceptions.md` R266): the command's operands in `s` are all within the widths the
port accepts. -/
def operandsInWidth : Instr → State → Prop
  | .adddelta, s => s.xUnsigned 0 ≤ 2 ^ 128 - 1
  | .amt0delta _, s => s.xUnsigned 0 ≤ 2 ^ 160 - 1 ∧ s.xUnsigned 1 ≤ 2 ^ 160 - 1 ∧ s.xUnsigned 2 ≤ 2 ^ 128 - 1
  | .amt1delta _, s => s.xUnsigned 0 ≤ 2 ^ 160 - 1 ∧ s.xUnsigned 1 ≤ 2 ^ 160 - 1 ∧ s.xUnsigned 2 ≤ 2 ^ 128 - 1
  | .nextpin _, s => s.xUnsigned 0 ≤ 2 ^ 160 - 1 ∧ s.xUnsigned 1 ≤ 2 ^ 128 - 1
  | .nextpout _, s => s.xUnsigned 0 ≤ 2 ^ 160 - 1 ∧ s.xUnsigned 1 ≤ 2 ^ 128 - 1
  | .swapstep, s =>
    s.xUnsigned 0 ≤ 2 ^ 160 - 1 ∧ s.xUnsigned 1 ≤ 2 ^ 160 - 1 ∧ s.xUnsigned 2 ≤ 2 ^ 128 - 1 ∧ s.xUnsigned 4 ≤ 999999
  | .tokowed, s => s.xUnsigned 2 ≤ 2 ^ 128 - 1
  | .msb, _ | .muldivru, _ | .tick2sqrt, _ | .sqrt2tick, _ | .subin256, _ | .feeinside, _ | .clrf, _ => True

/-- The column "Commands that can raise it" of the code table (`60_exceptions.md` R260), for a legal command. -/
def mayRaise : Cause → Instr → Prop
  | .tick, i => i = .tick2sqrt ∨ i = .sqrt2tick
  | .sqrtRatio, i => i = .sqrt2tick
  | .zero, i => i = .msb
  | .range, _ => False
  | .precond, i =>
    i = .muldivru ∨ (∃ b, i = .amt0delta b) ∨ (∃ b, i = .nextpin b) ∨ (∃ b, i = .nextpout b) ∨ i = .swapstep
  | .operand, i =>
    i = .adddelta ∨ (∃ b, i = .amt0delta b) ∨ (∃ b, i = .amt1delta b) ∨ (∃ b, i = .nextpin b) ∨
      (∃ b, i = .nextpout b) ∨ i = .swapstep ∨ i = .tokowed
  | .result, i => i = .muldivru ∨ i = .adddelta ∨ (∃ b, i = .nextpin b) ∨ (∃ b, i = .nextpout b) ∨ i = .swapstep
  | .illegal, _ => False

/-- `SWAPSTEP`'s function with both amounts always recomputed between the current and the next price, where R210 keeps
the stage-1 amount when the step reached the target in the matching mode (`46_swap_step.md` R210). -/
def swapStepRecomputed (cur tgt liquidity : Nat) (rem : Int) (fee : Nat) : Except Tag SwapStep :=
  let zeroForOne := decide (cur ≥ tgt)
  let exactIn := decide (rem ≥ 0)
  let amount := rem.natAbs
  amountToTarget zeroForOne exactIn cur tgt liquidity >>= fun toTarget =>
    swapNextPrice zeroForOne exactIn cur tgt liquidity amount fee toTarget >>= fun next =>
      amountInBetween zeroForOne cur next liquidity >>= fun amountIn =>
        amountOutBetween zeroForOne cur next liquidity >>= fun amountOut =>
          (swapFee exactIn tgt amount fee next amountIn).map fun (feeAmount : Int) =>
            ⟨next, amountIn, swapClamp exactIn amount amountOut, feeAmount⟩

/-- `k` steps of the machine, stopping at the first fault or refusal. -/
def runSteps (k : Nat) (s : State) : Result := Sys2Proof.core.run k s

/-- The event writes `CMD`. -/
def isCommand : HostEvent → Bool
  | .regWrite idx _ => idx == cmdIndex
  | .regRead _ => false
  | .reset => false

/-- The event is a reset, or the write of `CLRF`'s word: what writes `STICKY` to 0 (`10_state.md` R26). -/
def clearsSticky : HostEvent → Bool
  | .regWrite idx v => idx == cmdIndex && v == encode .clrf
  | .regRead _ => false
  | .reset => true

/-- The event leaves operand register `idx` as it is: no reset and no write of that index. -/
def keepsOperand (idx : RegIndex) : HostEvent → Bool
  | .regWrite idx' _ => idx' != idx
  | .regRead _ => true
  | .reset => false

/-- The event leaves `Y` and `STATUS` as they are: no reset and no command. -/
def keepsResults : HostEvent → Bool
  | .regWrite idx _ => idx != cmdIndex
  | .regRead _ => true
  | .reset => false

end Sys2Proof.Machine
end

