-- ==== Sys2Proof/Certificates/Slice0/Obligations.lean ====
section
/-!
DEFINITION. Certificates/Slice0/Obligations.lean: the statements about the model, for the provers.

A statement about a command says what the command leaves in every case its port-layer rule distinguishes, as the whole
next state: `succeeded s y` and `failedWith s c` change `Y`, `CODE` and (on failure) `STICKY` of `s` and nothing else,
so each equation is also the command's frame. It keeps `pending` and `reply` too, which are the model's own fields and
not the spec's (assumption logs 1 and 2, DESIGN CHOICE).
-/

open Sys2Proof Sys2Proof.Machine

/-! ## Encoding -/

/-- Decoding accepts exactly the encodings, and reads each as the command it encodes (R70, R73, R75). -/
def Obligations.DecodeExactlyInvertsEncode : Prop :=
  ∀ (v : Word) (i : Instr), i.wellFormed = true ∧ decode v = .ok i ↔ v = encode i

/-- The eighteen legal words with the commands they are and that the assembler writes so; every other value is illegal;
a word is legal when it selects a row of the match and mask table, and it selects at most one (R74). -/
def Obligations.LegalWordsAreTheEighteen : Prop :=
  (∀ p ∈ ([(0x1, .msb), (0x2, .muldivru), (0x3, .adddelta), (0x4, .tick2sqrt), (0x5, .sqrt2tick),
      (0x6, .amt0delta false), (0x106, .amt0delta true), (0x7, .amt1delta false), (0x107, .amt1delta true),
      (0x8, .nextpin false), (0x208, .nextpin true), (0x9, .nextpout false), (0x209, .nextpout true),
      (0xA, .swapstep), (0xB, .subin256), (0xC, .feeinside), (0xD, .tokowed), (0xE, .clrf)] : List (Nat × Instr)),
    decode (word p.1) = .ok p.2 ∧ assembleStmt (.exec p.2) = some [.regWrite 24 (word p.1)]) ∧
  (∀ v : Word, (∃ i, decode v = .ok i) ↔
    v.toNat ∈ [0x1, 0x2, 0x3, 0x4, 0x5, 0x6, 0x106, 0x7, 0x107, 0x8, 0x208, 0x9, 0x209, 0xA, 0xB, 0xC, 0xD, 0xE]) ∧
  (∀ v : Word, (∃ i, decode v = .ok i) ↔
    v.toNat < 2 ^ 32 ∧ ∃ row ∈ opcodeTable, v.toNat &&& row.mask = row.pattern) ∧
  (∀ w : Nat, w < 2 ^ 32 → opcodeTable.Pairwise fun a b =>
    ¬ (w &&& a.mask = a.pattern ∧ w &&& b.mask = b.pattern))

/-- The four ways a word is illegal, what writing such a word to `CMD` does, and that any other word is a command
(R78). -/
def Obligations.IllegalWordRunsNoOperation : Prop :=
  Code.number (.failed .illegal) = 8 ∧
  ∀ (s : State) (v : Word),
    (let w := v.toNat
     let illegal :=
      w / 2 ^ 32 ≠ 0 ∨ w / 2 ^ 10 % 2 ^ 22 ≠ 0 ∨ w % 2 ^ 8 = 0 ∨ 0x0F ≤ w % 2 ^ 8 ∨
        (w / 2 ^ 8 % 2 = 1 ∧ w % 2 ^ 8 ≠ 0x06 ∧ w % 2 ^ 8 ≠ 0x07) ∨
        (w / 2 ^ 9 % 2 = 1 ∧ w % 2 ^ 8 ≠ 0x08 ∧ w % 2 ^ 8 ≠ 0x09)
     (illegal → execute v s = .next (failedWith s .illegal)) ∧ (¬ illegal → ∃ i, decode v = .ok i))

/-- A few of the words of R74, written out bit by bit, decode to the commands they stand for. -/
def Obligations.SpecWordsDecode : Prop :=
  decode 0b0000000001#256 = .ok .msb ∧ decode 0b0100000110#256 = .ok (.amt0delta true) ∧
  decode 0b0000001000#256 = .ok (.nextpin false) ∧ decode 0b1000001001#256 = .ok (.nextpout true) ∧
  decode 0b0000001010#256 = .ok .swapstep ∧ decode 0b0000001110#256 = .ok .clrf ∧
  decode 0b0100000001#256 = .error .strayRoundUp

/-- When the write data of the host's next event decodes to a well-formed command, the step is that command's
execution, with the event taken off the port and nothing answered (R53, R269). The pending events and the reply are the
model's own fields (assumption logs 1 and 2, DESIGN CHOICE). -/
def Obligations.StepRunsTheDecodedCommand : Prop :=
  ∀ (s : State) (v : Word) (rest : List HostEvent) (i : Instr),
    s.pending = .regWrite 24 v :: rest → decode v = .ok i → i.wellFormed = true → step s = exec i (served s rest)

/-! ## Primitives -/

/-- `MSB` (R122): the index of the highest set bit; `ZERO` on 0. -/
def Obligations.MsbReturnsTheHighestSetBit : Prop :=
  encode .msb = 0x00000001#256 ∧
  ∀ s : State,
    (s.xUnsigned 0 = 0 → exec .msb s = .next (failedWith s .zero)) ∧
    (s.xUnsigned 0 ≠ 0 →
      ∃ i : Nat, i ≤ 255 ∧ 2 ^ i ≤ s.xUnsigned 0 ∧ s.xUnsigned 0 < 2 ^ (i + 1) ∧
        exec .msb s = .next (succeeded s #v[word i, 0, 0, 0]))

/-- `mostSignificantBit` over all integers (R120, R121): its two failures, and the closed form in between. -/
def Obligations.MostSignificantBitOnEveryInteger : Prop :=
  ∀ x : Int,
    (x ≤ 0 → mostSignificantBit x = .error .zero) ∧
    (x > 2 ^ 256 - 1 → mostSignificantBit x = .error .range) ∧
    (1 ≤ x → x ≤ 2 ^ 256 - 1 →
      ∃ i : Nat, mostSignificantBit x = .ok i ∧ i ≤ 255 ∧ (2 : Int) ^ i ≤ x ∧ x < 2 ^ (i + 1) ∧
        ∀ j : Nat, (2 : Int) ^ j ≤ x → x < 2 ^ (j + 1) → j = i)

/-- `MULDIVRU` (R132): the ceiling; `PRECOND` on a zero denominator whatever the product; `RESULT` when the ceiling
does not fit. -/
def Obligations.MulDivRuReturnsTheCeiling : Prop :=
  encode .muldivru = 0x00000002#256 ∧
  ∀ s : State,
    (let r := ceilDiv (s.xUnsigned 0 * s.xUnsigned 1) (s.xUnsigned 2)
     (s.xUnsigned 2 = 0 → exec .muldivru s = .next (failedWith s .precond)) ∧
     (s.xUnsigned 2 ≠ 0 → r ≤ 2 ^ 256 - 1 → exec .muldivru s = .next (succeeded s #v[word r, 0, 0, 0])) ∧
     (s.xUnsigned 2 ≠ 0 → 2 ^ 256 - 1 < r → exec .muldivru s = .next (failedWith s .result)))

/-- The ceiling identity (R106): the rounding-up division is the exact ceiling, in both forms, and exceeds the
rounding-down one by 1 exactly when the division leaves a remainder. -/
def Obligations.CeilingIdentity : Prop :=
  ∀ a b d : Nat, 0 < d →
    ∃ q r : Nat, mulDiv a b d = .ok q ∧ mulDivRoundingUp a b d = .ok r ∧
      (r : Int) = ⌈((a : ℚ) * b) / d⌉ ∧ r = (a * b + d - 1) / d ∧ (r = q ∨ r = q + 1) ∧
      (r = q + 1 ↔ a * b % d ≠ 0)

/-- The signed view of a register (R104): its value, its range, and that reading and writing invert each other. -/
def Obligations.SignedViewRoundTrips : Prop :=
  (∀ w : Word, (w.toNat < 2 ^ 255 → sint256 w = w.toNat) ∧ (2 ^ 255 ≤ w.toNat → sint256 w = w.toNat - 2 ^ 256) ∧
    -(2 ^ 255) ≤ sint256 w ∧ sint256 w ≤ 2 ^ 255 - 1 ∧ enc256 (sint256 w) = w) ∧
  (∀ v : Int, -(2 ^ 255) ≤ v → v ≤ 2 ^ 255 - 1 →
    (0 ≤ v → ((enc256 v).toNat : Int) = v) ∧ (v < 0 → ((enc256 v).toNat : Int) = v + 2 ^ 256) ∧
    sint256 (enc256 v) = v)

/-- `ADDDELTA` (R141): the exact signed sum; `OPERAND` on an oversized liquidity; `RESULT` on a negative sum; no check
against 128 bits. -/
def Obligations.AddDeltaAddsExactly : Prop :=
  encode .adddelta = 0x00000003#256 ∧
  ∀ s : State,
    (let r : Int := s.xUnsigned 0 + sint256 s.x[1]
     (2 ^ 128 - 1 < s.xUnsigned 0 → exec .adddelta s = .next (failedWith s .operand)) ∧
     (s.xUnsigned 0 ≤ 2 ^ 128 - 1 → r < 0 → exec .adddelta s = .next (failedWith s .result)) ∧
     (s.xUnsigned 0 ≤ 2 ^ 128 - 1 → 0 ≤ r → exec .adddelta s = .next (succeeded s #v[word r.toNat, 0, 0, 0])))

/-! ## Ticks and prices -/

/-- `TICK2SQRT` (R153): `TICK` outside the tick range, in register terms; inside it, the function's price, which never
fails the result check because it lies between the two bounds of D0. -/
def Obligations.Tick2SqrtConvertsEveryValidTick : Prop :=
  encode .tick2sqrt = 0x00000004#256 ∧
  ∀ s : State,
    (887272 < s.xUnsigned 0 → s.xUnsigned 0 < 2 ^ 256 - 887272 →
      exec .tick2sqrt s = .next (failedWith s .tick)) ∧
    (s.xUnsigned 0 ≤ 887272 ∨ 2 ^ 256 - 887272 ≤ s.xUnsigned 0 →
      ∃ q : Nat, getSqrtRatioAtTick (sint256 s.x[0]) = .ok q ∧ minSqrtRatio ≤ q ∧ q ≤ maxSqrtRatio ∧
        q ≤ 2 ^ 160 - 1 ∧ exec .tick2sqrt s = .next (succeeded s #v[word q, 0, 0, 0]))

/-- The properties of `getSqrtRatioAtTick` (R154): strictly increasing over all valid ticks, the two bounds of D0 at
the ends, every value within 160 bits, and `2^96` at tick 0. -/
def Obligations.TickToPriceIsStrictlyIncreasing : Prop :=
  (∀ (t u : Int) (p q : Nat), minTick ≤ t → t < u → u ≤ maxTick →
    getSqrtRatioAtTick t = .ok p → getSqrtRatioAtTick u = .ok q → p < q) ∧
  getSqrtRatioAtTick minTick = .ok minSqrtRatio ∧ getSqrtRatioAtTick maxTick = .ok maxSqrtRatio ∧
  (∀ t : Int, minTick ≤ t → t ≤ maxTick →
    ∃ p, getSqrtRatioAtTick t = .ok p ∧ minSqrtRatio ≤ p ∧ p ≤ maxSqrtRatio ∧ p ≤ 2 ^ 160 - 1) ∧
  getSqrtRatioAtTick 0 = .ok (2 ^ 96)

/-- `SQRT2TICK` (R161): `SQRT_RATIO` outside the half-open price range; inside it, a tick, so that the inner `TICK` arm
of R163 is never reached and every valid price converts. -/
def Obligations.Sqrt2TickConvertsEveryValidPrice : Prop :=
  encode .sqrt2tick = 0x00000005#256 ∧
  ∀ s : State,
    (s.xUnsigned 0 < minSqrtRatio ∨ maxSqrtRatio ≤ s.xUnsigned 0 →
      exec .sqrt2tick s = .next (failedWith s .sqrtRatio)) ∧
    (minSqrtRatio ≤ s.xUnsigned 0 → s.xUnsigned 0 < maxSqrtRatio →
      ∃ t : Int, getTickAtSqrtRatio (s.xUnsigned 0) = .ok t ∧ minTick ≤ t ∧ t < maxTick ∧
        exec .sqrt2tick s = .next (succeeded s #v[BitVec.ofInt 256 t, 0, 0, 0]))

/-- The round trip (R162): the tick of a valid price is the greatest tick whose price does not exceed it. -/
def Obligations.TickIsTheGreatestNotAbove : Prop :=
  ∀ p : Nat, minSqrtRatio ≤ p → p < maxSqrtRatio →
    ∃ (t : Int) (below above : Nat), getTickAtSqrtRatio p = .ok t ∧ getSqrtRatioAtTick t = .ok below ∧
      getSqrtRatioAtTick (t + 1) = .ok above ∧ below ≤ p ∧ p < above

/-- The running ratio of the ladder walk is positive and at most `2^128` for the magnitude of every valid tick, so the
inversion of R152 never divides by zero. -/
def Obligations.LadderRatioIsPositiveAndAtMostOne : Prop :=
  ∀ n : Nat, n ≤ 887272 → 0 < ladderRatio n ∧ ladderRatio n ≤ 2 ^ 128

/-! ## Price movement -/

/-- `AMT0DELTA`, both roundings (R181, R180): `OPERAND`, then `PRECOND` when the smaller price is 0, else the two-stage
division rounded up or down, which always fits. -/
def Obligations.Amt0DeltaReturnsTheAmount : Prop :=
  encode (.amt0delta false) = 0x00000006#256 ∧ encode (.amt0delta true) = 0x00000106#256 ∧
  ∀ (s : State) (roundUp : Bool),
    (let r := amount0Exact roundUp (s.xUnsigned 0) (s.xUnsigned 1) (s.xUnsigned 2)
     let accepted := s.xUnsigned 0 ≤ 2 ^ 160 - 1 ∧ s.xUnsigned 1 ≤ 2 ^ 160 - 1 ∧ s.xUnsigned 2 ≤ 2 ^ 128 - 1
     (¬ accepted → exec (.amt0delta roundUp) s = .next (failedWith s .operand)) ∧
     (accepted → s.xUnsigned 0 = 0 ∨ s.xUnsigned 1 = 0 →
       exec (.amt0delta roundUp) s = .next (failedWith s .precond)) ∧
     (accepted → s.xUnsigned 0 ≠ 0 → s.xUnsigned 1 ≠ 0 →
       r < 2 ^ 224 ∧ exec (.amt0delta roundUp) s = .next (succeeded s #v[word r, 0, 0, 0])))

/-- Corner cases of the token0 amount (R181): the order of the prices does not matter, equal prices and zero liquidity
give 0, and rounding up exceeds rounding down by 0 or 1. -/
def Obligations.Amt0RoundingsDifferByAtMostOne : Prop :=
  ∀ (a b liquidity : Nat) (roundUp : Bool),
    getAmount0Delta a b liquidity roundUp = getAmount0Delta b a liquidity roundUp ∧
    (0 < a → getAmount0Delta a a liquidity roundUp = .ok 0) ∧
    (0 < a → 0 < b → getAmount0Delta a b 0 roundUp = .ok 0) ∧
    (0 < a → 0 < b → ∃ down up : Nat, getAmount0Delta a b liquidity false = .ok down ∧
      getAmount0Delta a b liquidity true = .ok up ∧ (up = down ∨ up = down + 1))

/-- `AMT1DELTA`, both roundings (R183, R182): `OPERAND` is the only failure; a zero price is accepted. -/
def Obligations.Amt1DeltaReturnsTheAmount : Prop :=
  encode (.amt1delta false) = 0x00000007#256 ∧ encode (.amt1delta true) = 0x00000107#256 ∧
  ∀ (s : State) (roundUp : Bool),
    (let r := amount1Exact roundUp (s.xUnsigned 0) (s.xUnsigned 1) (s.xUnsigned 2)
     let accepted := s.xUnsigned 0 ≤ 2 ^ 160 - 1 ∧ s.xUnsigned 1 ≤ 2 ^ 160 - 1 ∧ s.xUnsigned 2 ≤ 2 ^ 128 - 1
     (¬ accepted → exec (.amt1delta roundUp) s = .next (failedWith s .operand)) ∧
     (accepted → r < 2 ^ 192 ∧ exec (.amt1delta roundUp) s = .next (succeeded s #v[word r, 0, 0, 0])))

/-- `NEXTPIN.OFZ` (R191, R195): the price rises by `floor(amount * 2^96 / L)`, one number for both forms of the
quotient; `RESULT` past 160 bits. -/
def Obligations.NextPInOneForZero : Prop :=
  ∀ s : State,
    (let p := s.xUnsigned 0
     let liq := s.xUnsigned 1
     let r := p + s.xUnsigned 2 * 2 ^ 96 / liq
     let accepted := p ≤ 2 ^ 160 - 1 ∧ liq ≤ 2 ^ 128 - 1
     (¬ accepted → exec (.nextpin false) s = .next (failedWith s .operand)) ∧
     (accepted → p = 0 ∨ liq = 0 → exec (.nextpin false) s = .next (failedWith s .precond)) ∧
     (accepted → p ≠ 0 → liq ≠ 0 → r ≤ 2 ^ 160 - 1 →
       exec (.nextpin false) s = .next (succeeded s #v[word r, 0, 0, 0])) ∧
     (accepted → p ≠ 0 → liq ≠ 0 → 2 ^ 160 - 1 < r → exec (.nextpin false) s = .next (failedWith s .result)))

/-- `NEXTPIN.ZFO` (R191, R194): the first formula exactly when neither the product nor the sum wraps 256 bits, the
fallback otherwise; the price never rises and never reaches 0, so a command that passes its checks always completes. -/
def Obligations.NextPInZeroForOne : Prop :=
  ∀ s : State,
    (let p := s.xUnsigned 0
     let liq := s.xUnsigned 1
     let amount := s.xUnsigned 2
     let n := liq * 2 ^ 96
     let r :=
      if amount = 0 then p
      else if n + amount * p < 2 ^ 256 then ceilDiv (n * p) (n + amount * p)
      else ceilDiv n (n / p + amount)
     let accepted := p ≤ 2 ^ 160 - 1 ∧ liq ≤ 2 ^ 128 - 1
     (¬ accepted → exec (.nextpin true) s = .next (failedWith s .operand)) ∧
     (accepted → p = 0 ∨ liq = 0 → exec (.nextpin true) s = .next (failedWith s .precond)) ∧
     (accepted → p ≠ 0 → liq ≠ 0 →
       1 ≤ r ∧ r ≤ p ∧ exec (.nextpin true) s = .next (succeeded s #v[word r, 0, 0, 0])))

/-- `NEXTPOUT.ZFO` (R193, R195): the price falls by `ceil(amount * 2^96 / L)` when that is strictly less than the
price, else `PRECOND`; it never fails the result check. -/
def Obligations.NextPOutZeroForOne : Prop :=
  ∀ s : State,
    (let p := s.xUnsigned 0
     let liq := s.xUnsigned 1
     let q := ceilDiv (s.xUnsigned 2 * 2 ^ 96) liq
     let accepted := p ≤ 2 ^ 160 - 1 ∧ liq ≤ 2 ^ 128 - 1
     (¬ accepted → exec (.nextpout true) s = .next (failedWith s .operand)) ∧
     (accepted → p = 0 ∨ liq = 0 ∨ p ≤ q → exec (.nextpout true) s = .next (failedWith s .precond)) ∧
     (accepted → p ≠ 0 → liq ≠ 0 → q < p →
       exec (.nextpout true) s = .next (succeeded s #v[word (p - q), 0, 0, 0])))

/-- `NEXTPOUT.OFZ` (R193, R194): the masked overflow test accepts exactly the amounts whose exact product stays
strictly below `L * 2^96`; the others fail `PRECOND`; `RESULT` past 160 bits. -/
def Obligations.NextPOutOneForZero : Prop :=
  ∀ s : State,
    (let p := s.xUnsigned 0
     let liq := s.xUnsigned 1
     let amount := s.xUnsigned 2
     let n := liq * 2 ^ 96
     let r := ceilDiv (n * p) (n - amount * p)
     let accepted := p ≤ 2 ^ 160 - 1 ∧ liq ≤ 2 ^ 128 - 1
     (¬ accepted → exec (.nextpout false) s = .next (failedWith s .operand)) ∧
     (accepted → p = 0 ∨ liq = 0 ∨ n ≤ amount * p → exec (.nextpout false) s = .next (failedWith s .precond)) ∧
     (accepted → p ≠ 0 → liq ≠ 0 → amount * p < n → r ≤ 2 ^ 160 - 1 →
       exec (.nextpout false) s = .next (succeeded s #v[word r, 0, 0, 0])) ∧
     (accepted → p ≠ 0 → liq ≠ 0 → amount * p < n → 2 ^ 160 - 1 < r →
       exec (.nextpout false) s = .next (failedWith s .result)))

/-- The direction summary (R196): which routine and branch serves each form, and which way the price moves. -/
def Obligations.PriceMovesInItsDirection : Prop :=
  ∀ p liq amount r : Nat, 0 < p → 0 < liq →
    (getNextSqrtPriceFromInput p liq amount true = nextFromAmount0RoundingUp p liq amount true ∧
      (getNextSqrtPriceFromInput p liq amount true = .ok r → r ≤ p)) ∧
    (getNextSqrtPriceFromInput p liq amount false = nextFromAmount1RoundingDown p liq amount true ∧
      (getNextSqrtPriceFromInput p liq amount false = .ok r → p ≤ r)) ∧
    (getNextSqrtPriceFromOutput p liq amount true = nextFromAmount1RoundingDown p liq amount false ∧
      (getNextSqrtPriceFromOutput p liq amount true = .ok r → r ≤ p ∧ (0 < amount → r < p))) ∧
    (getNextSqrtPriceFromOutput p liq amount false = nextFromAmount0RoundingUp p liq amount false ∧
      (getNextSqrtPriceFromOutput p liq amount false = .ok r → p ≤ r))

/-! ## The swap step -/

/-- `SWAPSTEP` completes on all operands within the port's widths whose prices are not 0 (R211, R213, R214): no
assertion of a callee fails, the next price lies between the two prices, and all four results fit. It bounds the next
price; `SwapStepAmountsMatchTheMove` gives it. -/
def Obligations.SwapStepCompletesOnNonzeroPrices : Prop :=
  ∀ s : State, operandsInWidth .swapstep s → s.xUnsigned 0 ≠ 0 → s.xUnsigned 1 ≠ 0 →
    ∃ next amountIn amountOut fee : Nat,
      computeSwapStep (s.xUnsigned 0) (s.xUnsigned 1) (s.xUnsigned 2) (sint256 s.x[3]) (s.xUnsigned 4) =
        .ok ⟨next, amountIn, amountOut, fee⟩ ∧
      min (s.xUnsigned 0) (s.xUnsigned 1) ≤ next ∧ next ≤ max (s.xUnsigned 0) (s.xUnsigned 1) ∧
      amountIn < 2 ^ 256 ∧ amountOut < 2 ^ 256 ∧ fee < 2 ^ 256 ∧
      exec .swapstep s = .next (succeeded s #v[word next, word amountIn, word amountOut, word fee])

/-- The values of a swap step that answers (R210), a zero target included. Stage 1: the next price is the target when
the amount (less the fee when exact-in) covers the amount to the target, and in exact-in mode only then; short of that
it is the price the input or the output routine reaches with that amount. Each amount is the exact amount between the
current and the next price, in rounded up and out rounded down, the out amount cut to the request in exact-out mode; the
fee is `ceil(amountIn * fee / (MAX_FEE - fee))` unless an exact-in step stops short. -/
def Obligations.SwapStepAmountsMatchTheMove : Prop :=
  ∀ (cur tgt liq fee : Nat) (rem : Int) (r : SwapStep),
    0 < cur → cur ≤ 2 ^ 160 - 1 → tgt ≤ 2 ^ 160 - 1 → liq ≤ 2 ^ 128 - 1 → fee < 1000000 →
    computeSwapStep cur tgt liq rem fee = .ok r →
    (let zeroForOne := decide (tgt ≤ cur)
     let amount := rem.natAbs
     let afterFee := amount * (1000000 - fee) / 1000000
     let amountIn := fun q => if tgt ≤ cur then amount0Exact true cur q liq else amount1Exact true cur q liq
     let amountOut := fun q => if tgt ≤ cur then amount1Exact false cur q liq else amount0Exact false cur q liq
     (0 ≤ rem → (r.sqrtNext = tgt ↔ amountIn tgt ≤ afterFee)) ∧
     (0 ≤ rem → afterFee < amountIn tgt →
       getNextSqrtPriceFromInput cur liq afterFee zeroForOne = .ok r.sqrtNext) ∧
     (rem < 0 → amountOut tgt ≤ amount → r.sqrtNext = tgt) ∧
     (rem < 0 → amount < amountOut tgt →
       getNextSqrtPriceFromOutput cur liq amount zeroForOne = .ok r.sqrtNext) ∧
     r.amountIn = amountIn r.sqrtNext ∧
     (0 ≤ rem → r.amountOut = amountOut r.sqrtNext) ∧
     (rem < 0 → r.amountOut = min (amountOut r.sqrtNext) amount) ∧
     (r.sqrtNext = tgt ∨ rem < 0 → r.feeAmount = ceilDiv (r.amountIn * fee) (1000000 - fee)) ∧
     (0 ≤ rem → r.sqrtNext ≠ tgt → r.feeAmount = rem - r.amountIn))

/-- Conservation in a swap step (R212): exact-in short of the target, what is paid in and the fee are the whole
remaining amount; exact-in at the target, they do not exceed it; exact-out, the amount out never exceeds the request. -/
def Obligations.SwapStepConservesTheAmount : Prop :=
  ∀ (cur tgt liq fee : Nat) (rem : Int) (r : SwapStep),
    cur ≤ 2 ^ 160 - 1 → tgt ≤ 2 ^ 160 - 1 → liq ≤ 2 ^ 128 - 1 → fee < 1000000 →
    computeSwapStep cur tgt liq rem fee = .ok r →
    (0 ≤ rem → r.sqrtNext ≠ tgt → r.amountIn + r.feeAmount = rem) ∧
    (0 ≤ rem → r.sqrtNext = tgt → r.amountIn + r.feeAmount ≤ rem) ∧
    (rem < 0 → r.amountOut ≤ -rem)

/-- Corner cases of a swap step (R212): equal prices, zero liquidity, and a zero remaining amount. -/
def Obligations.SwapStepCornerCases : Prop :=
  ∀ s : State, operandsInWidth .swapstep s → s.xUnsigned 0 ≠ 0 → s.xUnsigned 1 ≠ 0 →
    (s.xUnsigned 0 = s.xUnsigned 1 → exec .swapstep s = .next (succeeded s #v[s.x[0], 0, 0, 0])) ∧
    (s.xUnsigned 2 = 0 → exec .swapstep s = .next (succeeded s #v[s.x[1], 0, 0, 0])) ∧
    (sint256 s.x[3] = 0 → s.xUnsigned 0 ≠ s.xUnsigned 1 → s.xUnsigned 2 ≠ 0 →
      exec .swapstep s = .next (succeeded s #v[s.x[0], 0, 0, 0]))

/-- Zero prices in a swap step (R213): a zero current price always fails `PRECOND`; a zero target fails `PRECOND` in
exact-in mode, and in exact-out mode unless the request is less than the whole output and the price stays above 0. It
then moves to that price, with the amounts and the fee of R210 for that move.
(R213 says the last case succeeds whenever the target is not reached; R195's strict assertion, which R213 itself
cites, refuses it when the rounded-up quotient equals the price: assumption log 12.) -/
def Obligations.SwapStepOnZeroPrices : Prop :=
  ∀ s : State, operandsInWidth .swapstep s →
    (let p := s.xUnsigned 0
     let liq := s.xUnsigned 2
     let rem := sint256 s.x[3]
     let next := p - ceilDiv (rem.natAbs * 2 ^ 96) liq
     let amountIn := amount0Exact true p next liq
     (p = 0 → exec .swapstep s = .next (failedWith s .precond)) ∧
     (p ≠ 0 → s.xUnsigned 1 = 0 → 0 ≤ rem → exec .swapstep s = .next (failedWith s .precond)) ∧
     (p ≠ 0 → s.xUnsigned 1 = 0 → rem < 0 → liq * p / 2 ^ 96 ≤ rem.natAbs ∨ p ≤ ceilDiv (rem.natAbs * 2 ^ 96) liq →
       exec .swapstep s = .next (failedWith s .precond)) ∧
     (p ≠ 0 → s.xUnsigned 1 = 0 → rem < 0 → rem.natAbs < liq * p / 2 ^ 96 → ceilDiv (rem.natAbs * 2 ^ 96) liq < p →
       exec .swapstep s = .next (succeeded s
         #v[word next, word amountIn, word (min (amount1Exact false p next liq) rem.natAbs),
           word (ceilDiv (amountIn * s.xUnsigned 4) (1000000 - s.xUnsigned 4))])))

/-- Keeping the stage-1 amount and recomputing it always give one result (R210): skipping the recomputation is no
change of meaning. -/
def Obligations.SkippedRecomputationIsEqual : Prop :=
  ∀ (cur tgt liq : Nat) (rem : Int) (fee : Nat),
    computeSwapStep cur tgt liq rem fee = swapStepRecomputed cur tgt liq rem fee

/-- `SWAPSTEP` never raises `RESULT` (R214): its result checks are unreachable, whatever the operands. -/
def Obligations.SwapStepResultsAlwaysFit : Prop :=
  ∀ s t : State, exec .swapstep s = .next t → t.code ≠ .failed .result

/-! ## Fee growth -/

/-- `subIn256` (R230): the modulus is added once; between register values the result is the difference modulo 2^256;
outside that domain it may stay negative or unreduced. -/
def Obligations.SubIn256WrapsOnce : Prop :=
  ∀ x y : Int,
    (x - y < 0 → subIn256 x y = 2 ^ 256 + (x - y)) ∧ (0 ≤ x - y → subIn256 x y = x - y) ∧
    (0 ≤ x → x ≤ 2 ^ 256 - 1 → 0 ≤ y → y ≤ 2 ^ 256 - 1 →
      subIn256 x y = (x - y) % 2 ^ 256 ∧ 0 ≤ subIn256 x y ∧ subIn256 x y ≤ 2 ^ 256 - 1) ∧
    (x - y < -(2 ^ 256) → subIn256 x y < 0) ∧ (2 ^ 256 ≤ x - y → 2 ^ 256 ≤ subIn256 x y)

/-- `SUBIN256` (R231): the difference of the registers modulo 2^256; it cannot fail. -/
def Obligations.SubIn256Subtracts : Prop :=
  encode .subin256 = 0x0000000B#256 ∧
  ∀ s : State, exec .subin256 s = .next (succeeded s #v[s.x[0] - s.x[1], 0, 0, 0])

/-- `FEEINSIDE` (R233, R232): for each token, global minus below minus above modulo 2^256, the ticks compared as signed
numbers, `>=` at the lower tick and strict `<` at the upper; it cannot fail. -/
def Obligations.FeeInsideSubtractsBelowAndAbove : Prop :=
  encode .feeinside = 0x0000000C#256 ∧
  ∀ s : State,
    (let below := fun (outside global : Word) => if s.x[4].toInt ≤ s.x[6].toInt then outside else global - outside
     let above := fun (outside global : Word) => if s.x[6].toInt < s.x[5].toInt then outside else global - outside
     exec .feeinside s = .next (succeeded s
       #v[s.x[7] - below s.x[0] s.x[7] - above s.x[2] s.x[7], s.x[8] - below s.x[1] s.x[8] - above s.x[3] s.x[8], 0, 0]))

/-- `TOKOWED` (R235, R234): for each token, the growth since the snapshot modulo 2^256, times the liquidity, shifted
down 128 bits; `OPERAND` on an oversized liquidity is the only failure. -/
def Obligations.TokOwedScalesTheGrowth : Prop :=
  encode .tokowed = 0x0000000D#256 ∧
  ∀ s : State,
    (2 ^ 128 - 1 < s.xUnsigned 2 → exec .tokowed s = .next (failedWith s .operand)) ∧
    (s.xUnsigned 2 ≤ 2 ^ 128 - 1 → exec .tokowed s = .next (succeeded s
      #v[word ((s.x[3] - s.x[0]).toNat * s.xUnsigned 2 / 2 ^ 128),
        word ((s.x[4] - s.x[1]).toNat * s.xUnsigned 2 / 2 ^ 128), 0, 0]))

/-! ## Control -/

/-- `CLRF` (R250): `Y`, `CODE` and `STICKY` to their reset values, `X` unchanged; no other legal command writes `STICKY`
to 0; its word with a mode or reserved bit is illegal. -/
def Obligations.ClrfClearsTheFailureState : Prop :=
  encode .clrf = 0x0000000E#256 ∧
  (∀ s : State, exec .clrf s =
    .next { s with y := State.reset.y, code := State.reset.code, sticky := State.reset.sticky }) ∧
  (∀ (i : Instr) (s t : State), exec i s = .next t → s.sticky = true → t.sticky = false → i = .clrf) ∧
  (∀ (v : Word) (s : State), v.toNat % 2 ^ 8 = 0x0E → v.toNat ≠ 0x0E →
    execute v s = .next (failedWith s .illegal))

/-! ## The command sequence -/

/-- Failure entry (R270): a write to `CMD` that ends with a cause, at whatever step, leaves `Y` zeroed, the cause in
`CODE`, `STICKY` set, and everything else as it was. -/
def Obligations.FailureEntryWritesOnlyResultsAndStatus : Prop :=
  ∀ (v : Word) (s t : State) (c : Cause), execute v s = .next t → t.code = .failed c →
    t = { s with y := #v[0, 0, 0, 0], code := .failed c, sticky := true }

/-- The frame of every command (R20, R21, R26, R271): no write to `CMD` changes an `X` register; a success changes only
`Y` and `CODE`, and `STICKY` too if it is `CLRF`; a `Y` register the command does not name is 0. That `pending` and
`reply` stay as well is the model's choice and no rule of the spec: they are the model's own fields (assumption logs 1
and 2, DESIGN CHOICE). -/
def Obligations.CommandFrame : Prop :=
  ∀ (v : Word) (s t : State), execute v s = .next t →
    t.x = s.x ∧ t.pending = s.pending ∧ t.reply = s.reply ∧
    (t.code = .ok → ∃ i, decode v = .ok i ∧ (i ≠ .clrf → t = { s with y := t.y, code := .ok }) ∧
      ∀ k : Fin Config.ny, i.resultCount ≤ k.val → t.y[k] = 0)

/-- The sticky bit (R26): every failing command sets it, every success but `CLRF` leaves it, `CLRF` clears it, reset
clears it, and no command's results depend on it. -/
def Obligations.StickyFollowsEveryCommand : Prop :=
  State.reset.sticky = false ∧
  ∀ (v : Word) (s t : State), execute v s = .next t →
    (t.code ≠ .ok → t.sticky = true) ∧
    (t.code = .ok → decode v ≠ .ok .clrf → t.sticky = s.sticky) ∧
    (decode v = .ok .clrf → t.sticky = false) ∧
    (∀ (b : Bool) (u : State), execute v { s with sticky := b } = .next u → u.y = t.y ∧ u.code = t.code)

/-- Results and `CODE` depend on the command and on the operand registers it reads, and on nothing else of the state
(R20, R25, R29). -/
def Obligations.OutcomeDependsOnOperandsOnly : Prop :=
  ∀ (i : Instr) (s s' t t' : State), s.AgreeOnOperands i s' → exec i s = .next t → exec i s' = .next t' →
    t.y = t'.y ∧ t.code = t'.code

/-- A legal command raises `OPERAND` exactly when one of its listed checks is false (R266). -/
def Obligations.OperandRaisedExactlyOnWidth : Prop :=
  ∀ (i : Instr) (s t : State), exec i s = .next t →
    (t.code = .failed .operand ↔ ¬ operandsInWidth i s)

/-- The code table (R260): the nine code numbers, and that a legal command raises only the causes the table lists for
it. -/
def Obligations.CausesAreRaisedOnlyWhereListed : Prop :=
  (Code.number .ok = 0 ∧ Code.number (.failed .tick) = 1 ∧ Code.number (.failed .sqrtRatio) = 2 ∧
    Code.number (.failed .zero) = 3 ∧ Code.number (.failed .range) = 4 ∧ Code.number (.failed .precond) = 5 ∧
    Code.number (.failed .operand) = 6 ∧ Code.number (.failed .result) = 7 ∧ Code.number (.failed .illegal) = 8) ∧
  ∀ (i : Instr) (s t : State) (c : Cause), exec i s = .next t → t.code = .failed c → mayRaise c i

/-- Priority among causes (R272): a word with `RU` on `MSB` is `ILLEGAL` whatever `X[0]` holds; a swap step with a zero
price and an oversized fee is `OPERAND`; a zero denominator is `PRECOND` whatever the product. -/
def Obligations.PriorityAmongCauses : Prop :=
  ∀ s : State,
    execute 0x101#256 s = .next (failedWith s .illegal) ∧
    (s.xUnsigned 0 = 0 → s.xUnsigned 4 = 1000000 → exec .swapstep s = .next (failedWith s .operand)) ∧
    (s.xUnsigned 2 = 0 → exec .muldivru s = .next (failedWith s .precond))

/-! ## The port -/

/-- `RegRead` (R52): what each index returns, and that no state changes but the host's side of the port, which is the
model's own (assumption logs 1 and 2, DESIGN CHOICE). -/
def Obligations.RegReadReturnsTheMap : Prop :=
  ∀ (s : State) (idx : RegIndex) (rest : List HostEvent), s.pending = .regRead idx :: rest →
    ∃ v : Word, step s = .next { s with pending := rest, reply := some v } ∧
      (∀ k : Fin Config.nx, idx.toNat = k.val → v = s.x[k]) ∧
      (∀ m : Fin Config.ny, idx.toNat = 16 + m.val → v = s.y[m]) ∧
      (idx.toNat = 25 → v.toNat = s.code.number + 16 * s.sticky.toNat) ∧
      (9 ≤ idx.toNat → idx.toNat < 16 ∨ 20 ≤ idx.toNat → idx.toNat ≠ 25 → v = 0)

/-- `RegWrite` (R53, R54): an operand index stores the value, `CMD` executes it, every other index has no effect. The
pending events are the model's own field (assumption log 1, DESIGN CHOICE). -/
def Obligations.RegWriteStoresOrExecutes : Prop :=
  ∀ (s : State) (idx : RegIndex) (v : Word) (rest : List HostEvent), s.pending = .regWrite idx v :: rest →
    (∀ k : Fin Config.nx, idx.toNat = k.val → step s = .next { served s rest with x := s.x.set k.val v }) ∧
    (idx.toNat = 24 → step s = execute v (served s rest)) ∧
    (9 ≤ idx.toNat → idx.toNat ≠ 24 → step s = .next (served s rest))

/-- A read of an operand register returns the latest value written to it, whatever reads, commands and other writes
stand between (R59). The pending events and the reply are the model's own fields (assumption logs 1 and 2, DESIGN
CHOICE). -/
def Obligations.OperandReadsLatestWrite : Prop :=
  ∀ (s : State) (idx : RegIndex) (v : Word) (evs rest : List HostEvent), idx.toNat < 9 →
    s.pending = .regWrite idx v :: (evs ++ .regRead idx :: rest) → (∀ ev ∈ evs, keepsOperand idx ev = true) →
    ∃ t : State, runSteps (evs.length + 2) s = .next t ∧ t.reply = some v ∧ t.pending = rest

/-- A read of a result register or of `STATUS` after a command returns that command's outcome, whatever reads and
operand writes stand between (R59). The pending events and the reply are the model's own fields (assumption logs 1 and
2, DESIGN CHOICE). -/
def Obligations.ResultsReadBackAfterCommand : Prop :=
  ∀ (s u : State) (v : Word) (idx : RegIndex) (evs rest : List HostEvent),
    s.pending = .regWrite 24 v :: (evs ++ .regRead idx :: rest) → (∀ ev ∈ evs, keepsResults ev = true) →
    execute v s = .next u →
    ∃ t : State, runSteps (evs.length + 2) s = .next t ∧ t.pending = rest ∧
      (∀ m : Fin Config.ny, idx.toNat = 16 + m.val → t.reply = some u.y[m]) ∧
      (idx.toNat = 25 → ∃ w : Word, t.reply = some w ∧ w.toNat = u.code.number + 16 * u.sticky.toNat)

/-! ## Reset and runs -/

/-- Reset values (R290): every operand and result register 0, `CODE` = `OK`, `STICKY` = 0, `STATUS`, `CMD` and the
reserved indices read 0. -/
def Obligations.ResetValues : Prop :=
  (∀ k : Fin Config.nx, State.reset.x[k] = 0) ∧ (∀ m : Fin Config.ny, State.reset.y[m] = 0) ∧
  State.reset.code = .ok ∧ State.reset.sticky = false ∧ State.reset.statusWord = 0 ∧
  (∀ s : State, s.regRead 24 = 0 ∧ s.statusWord.toNat / 2 ^ 5 = 0) ∧
  (∀ idx : RegIndex, State.reset.regRead idx = 0)

/-- A reset between two transactions sets the registers of R290 (R291); that the events still pending stay is the
model's choice (assumption logs 1 and 4, DESIGN CHOICE). -/
def Obligations.ResetEventRestoresRegisters : Prop :=
  ∀ (s : State) (rest : List HostEvent), s.pending = .reset :: rest →
    step s = .next { State.reset with pending := rest }

/-- The outcome of each command issued first after reset (R292). -/
def Obligations.FirstCommandAfterReset : Prop :=
  exec .msb State.reset = .next (failedWith State.reset .zero) ∧
  exec .muldivru State.reset = .next (failedWith State.reset .precond) ∧
  exec .adddelta State.reset = .next State.reset ∧
  exec .tick2sqrt State.reset = .next (succeeded State.reset #v[word (2 ^ 96), 0, 0, 0]) ∧
  exec .sqrt2tick State.reset = .next (failedWith State.reset .sqrtRatio) ∧
  (∀ b, exec (.amt0delta b) State.reset = .next (failedWith State.reset .precond)) ∧
  (∀ b, exec (.amt1delta b) State.reset = .next State.reset) ∧
  (∀ b, exec (.nextpin b) State.reset = .next (failedWith State.reset .precond)) ∧
  (∀ b, exec (.nextpout b) State.reset = .next (failedWith State.reset .precond)) ∧
  exec .swapstep State.reset = .next (failedWith State.reset .precond) ∧
  exec .subin256 State.reset = .next State.reset ∧
  exec .feeinside State.reset = .next State.reset ∧
  exec .tokowed State.reset = .next State.reset ∧
  exec .clrf State.reset = .next State.reset ∧
  (failedWith State.reset .zero).statusWord = 0x13 ∧ (failedWith State.reset .precond).statusWord = 0x15 ∧
  (failedWith State.reset .sqrtRatio).statusWord = 0x12

/-- The reset state is coherent. -/
def Obligations.ResetIsCoherent : Prop :=
  State.reset.Coherent

/-- Every step keeps coherence: a failure code always comes with `STICKY` set and all results zero (R25, R26, R270).
That a step can be a reset, or find nothing pending, is the model's choice (assumption logs 1, 3 and 4, DESIGN
CHOICE). -/
def Obligations.EveryStepKeepsCoherence : Prop :=
  ∀ s t : State, s.Coherent → step s = .next t → t.Coherent

/-- The unit never stops (R274, R300): every state has a next state, by every event, command and word. That no step
faults or is refused is the model's reading (assumption log 6, DEDUCED), and that a step with no event pending has a
next state, itself, is its choice (assumption log 3, DESIGN CHOICE). -/
def Obligations.EveryStateHasASuccessor : Prop :=
  ∀ s : State, ∃ t : State, step s = .next t

/-- The sticky bit accumulates (R251): over any run of transactions without `CLRF` or reset that starts with `STICKY` =
0, it ends as 1 exactly when some command of the run ended with a failure code. The pending events are the model's own
field (assumption log 1, DESIGN CHOICE). -/
def Obligations.StickyAccumulatesFailures : Prop :=
  ∀ (s t : State) (k : Nat), s.sticky = false → k ≤ s.pending.length →
    (∀ ev ∈ s.pending.take k, clearsSticky ev = false) → runSteps k s = .next t →
    (t.sticky = true ↔
      ∃ (j : Nat) (ev : HostEvent) (u : State), j < k ∧ s.pending[j]? = some ev ∧ isCommand ev = true ∧
        runSteps (j + 1) s = .next u ∧ u.code ≠ .ok)

/-! ## The assembler -/

/-- `CALL` (R81): with as many operands as its command reads it is the `WR` statements in order and then the `EXEC`;
with any other number it is refused. The statements are abstract syntax, the model's choice (assumption logs 10 and
11). -/
def Obligations.CallExpandsToWritesAndExec : Prop :=
  ∀ (i : Instr) (args : List AsmInt),
    (args.length = i.operandCount →
      assembleStmt (.call i args) =
        assemble ((args.zipIdx.map fun p => AsmStmt.wr (Fin.ofNat 9 p.2) p.1) ++ [.exec i])) ∧
    (args.length ≠ i.operandCount → assembleStmt (.call i args) = none)
end

