-- ==== Sys2Proof/Laws/Arith.lean ====
section
/-!
SUPPORT. Laws/Arith.lean: one law for each arithmetic primitive, and how a function-layer computation runs on.
-/

namespace Sys2Proof.Machine

/-- A failed call fails its caller with the same tag. -/
@[simp] theorem except_error_bind {α β : Type} (t : Tag) (f : α → Except Tag β) :
    (Except.error t >>= f) = .error t := rfl

/-- A successful call hands its value on. -/
@[simp] theorem except_ok_bind {α β : Type} (a : α) (f : α → Except Tag β) : (Except.ok a >>= f) = f a := rfl

/-- What a chain of two calls that succeeds went through. -/
theorem except_bind_ok {α β : Type} {e : Except Tag α} {f : α → Except Tag β} {b : β} (h : (e >>= f) = .ok b) :
    ∃ a, e = .ok a ∧ f a = .ok b := by
  cases e with
  | error t => cases h
  | ok a => exact ⟨a, rfl, h⟩

/-- What a mapped call that succeeds went through. -/
theorem except_map_ok {α β : Type} {e : Except Tag α} {f : α → β} {b : β} (h : e.map f = .ok b) :
    ∃ a, e = .ok a ∧ f a = b := by
  cases e with
  | error t => cases h
  | ok a => exact ⟨a, rfl, Except.ok.inj h⟩

/-- A failed call fails under any map. -/
@[simp] theorem except_map_error {α β : Type} (t : Tag) (f : α → β) :
    Except.map f (Except.error t : Except Tag α) = .error t := rfl

/-- A map acts on a successful value. -/
@[simp] theorem except_map_value {α β : Type} (a : α) (f : α → β) :
    Except.map f (Except.ok a : Except Tag α) = .ok (f a) := rfl

@[simp] theorem divide_zero (a : Nat) : divide a 0 = .error .precond := rfl

theorem divide_pos (a : Nat) {b : Nat} (h : 0 < b) : divide a b = .ok (a / b) := if_neg (Nat.ne_of_gt h)

/-- Everything a division can answer. -/
theorem divide_ok {a b q : Nat} (h : divide a b = .ok q) : 0 < b ∧ q = a / b := by
  unfold divide at h
  split at h
  · cases h
  · exact ⟨Nat.pos_of_ne_zero ‹_›, (Except.ok.inj h).symm⟩

/-- The only way a division fails. -/
theorem divide_error {a b : Nat} {t : Tag} (h : divide a b = .error t) : b = 0 ∧ t = .precond := by
  unfold divide at h
  split at h
  · exact ⟨‹_›, (Except.error.inj h).symm⟩
  · cases h

@[simp] theorem mulDivRoundingUp_zero (a b : Nat) : mulDivRoundingUp a b 0 = .error .precond := rfl

theorem mulDivRoundingUp_pos (a b : Nat) {d : Nat} (h : 0 < d) :
    mulDivRoundingUp a b d = .ok (if a * b % d ≠ 0 then a * b / d + 1 else a * b / d) :=
  if_neg (Nat.ne_of_gt h)

/-- The only way the rounding-up division fails. -/
theorem mulDivRoundingUp_error {a b d : Nat} {t : Tag} (h : mulDivRoundingUp a b d = .error t) :
    d = 0 ∧ t = .precond := by
  unfold mulDivRoundingUp at h
  split at h
  · exact ⟨‹_›, (Except.error.inj h).symm⟩
  · cases h

/-- The value of the rounding-up division is the least integer whose product with the divisor reaches the product. -/
theorem mulDivRoundingUp_bounds {a b d r : Nat} (h : mulDivRoundingUp a b d = .ok r) :
    0 < d ∧ a * b ≤ r * d ∧ r * d < a * b + d := by
  by_cases hd : d = 0
  · subst hd; cases h
  · have hpos : 0 < d := Nat.pos_of_ne_zero hd
    rw [mulDivRoundingUp_pos a b hpos] at h
    have hr := Except.ok.inj h
    have hdm := Nat.div_add_mod (a * b) d
    have hlt := Nat.mod_lt (a * b) hpos
    generalize a * b / d = q at *
    generalize a * b % d = m at *
    generalize a * b = p at *
    refine ⟨hpos, ?_⟩
    split at hr
    · rename_i hm
      have := Nat.pos_of_ne_zero hm
      subst hr
      constructor <;> nlinarith
    · rename_i hm
      have := not_not.mp hm
      subst hr
      constructor <;> nlinarith

theorem shl_eq (a n : Nat) : shl a n = a * 2 ^ n := rfl

theorem shr_eq (a n : Nat) : shr a n = a / 2 ^ n := rfl

theorem shrInt_eq (a : Int) (n : Nat) : shrInt a n = a / 2 ^ n := rfl

theorem u256_lt (v : Nat) : u256 v < 2 ^ 256 := Nat.mod_lt _ (by decide)

/-- Below the modulus a wrapped product is exact (R103). -/
theorem mul256_exact {a b : Nat} (h : a * b < 2 ^ 256) : mul256 a b = a * b := Nat.mod_eq_of_lt h

/-- Below the modulus a wrapped sum is exact (R103). -/
theorem add256_exact {a b : Nat} (h : a + b < 2 ^ 256) : add256 a b = a + b := Nat.mod_eq_of_lt h

/-- `mulShift` is monotone in both factors. -/
theorem mulShift_mono {a a' b b' : Nat} (ha : a ≤ a') (hb : b ≤ b') : mulShift a b ≤ mulShift a' b' :=
  Nat.div_le_div_right (Nat.mul_le_mul ha hb)

/-- Inside its range, an unsigned component is the number it names. -/
theorem unsigned_word (n : Nat) : (Component.unsigned n).word = BitVec.ofNat 256 n := by
  simp [Component.word]

/-- Inside its range, a price component is the number it names. -/
theorem price_word (n : Nat) : (Component.price n).word = BitVec.ofNat 256 n := by
  simp [Component.word]

@[simp] theorem unsigned_fits (n : Nat) : (Component.unsigned n).fits = decide (n ≤ maxUint256) := by
  simp only [Component.fits, Int.natCast_nonneg, decide_true, Bool.true_and, Nat.cast_le]

@[simp] theorem price_fits (n : Nat) : (Component.price n).fits = decide (n ≤ maxUint160) := by
  simp only [Component.fits, Int.natCast_nonneg, decide_true, Bool.true_and, Nat.cast_le]

end Sys2Proof.Machine
end

