-- ==== Sys2Proof/Laws/State.lean ====
section
/-!
SUPPORT. Laws/State.lean: what each update of the state leaves in each field, so that no proof unfolds a record update.
-/

namespace Sys2Proof.Machine

section Updates

@[simp] theorem State.raise_x (s : State) (c : Cause) : (s.raise c).x = s.x := rfl
@[simp] theorem State.raise_y (s : State) (c : Cause) : (s.raise c).y = zeroResults := rfl
@[simp] theorem State.raise_code (s : State) (c : Cause) : (s.raise c).code = .failed c := rfl
@[simp] theorem State.raise_sticky (s : State) (c : Cause) : (s.raise c).sticky = true := rfl
@[simp] theorem State.raise_pending (s : State) (c : Cause) : (s.raise c).pending = s.pending := rfl
@[simp] theorem State.raise_reply (s : State) (c : Cause) : (s.raise c).reply = s.reply := rfl

@[simp] theorem State.commit_x (s : State) (y : YFile) : (s.commit y).x = s.x := rfl
@[simp] theorem State.commit_y (s : State) (y : YFile) : (s.commit y).y = y := rfl
@[simp] theorem State.commit_code (s : State) (y : YFile) : (s.commit y).code = .ok := rfl
@[simp] theorem State.commit_sticky (s : State) (y : YFile) : (s.commit y).sticky = s.sticky := rfl
@[simp] theorem State.commit_pending (s : State) (y : YFile) : (s.commit y).pending = s.pending := rfl
@[simp] theorem State.commit_reply (s : State) (y : YFile) : (s.commit y).reply = s.reply := rfl

@[simp] theorem State.clearFailure_x (s : State) : (s.clearFailure).x = s.x := rfl
@[simp] theorem State.clearFailure_y (s : State) : (s.clearFailure).y = zeroResults := rfl
@[simp] theorem State.clearFailure_code (s : State) : (s.clearFailure).code = .ok := rfl
@[simp] theorem State.clearFailure_sticky (s : State) : (s.clearFailure).sticky = false := rfl
@[simp] theorem State.clearFailure_pending (s : State) : (s.clearFailure).pending = s.pending := rfl
@[simp] theorem State.clearFailure_reply (s : State) : (s.clearFailure).reply = s.reply := rfl

@[simp] theorem State.resetUnit_x (s : State) : (s.resetUnit).x = Vector.replicate Config.nx 0 := rfl
@[simp] theorem State.resetUnit_y (s : State) : (s.resetUnit).y = Vector.replicate Config.ny 0 := rfl
@[simp] theorem State.resetUnit_code (s : State) : (s.resetUnit).code = .ok := rfl
@[simp] theorem State.resetUnit_sticky (s : State) : (s.resetUnit).sticky = false := rfl
@[simp] theorem State.resetUnit_pending (s : State) : (s.resetUnit).pending = s.pending := rfl
@[simp] theorem State.resetUnit_reply (s : State) : (s.resetUnit).reply = s.reply := rfl

@[simp] theorem State.accept_x (s : State) (rest : List HostEvent) : (s.accept rest).x = s.x := rfl
@[simp] theorem State.accept_y (s : State) (rest : List HostEvent) : (s.accept rest).y = s.y := rfl
@[simp] theorem State.accept_code (s : State) (rest : List HostEvent) : (s.accept rest).code = s.code := rfl
@[simp] theorem State.accept_sticky (s : State) (rest : List HostEvent) : (s.accept rest).sticky = s.sticky := rfl
@[simp] theorem State.accept_pending (s : State) (rest : List HostEvent) : (s.accept rest).pending = rest := rfl
@[simp] theorem State.accept_reply (s : State) (rest : List HostEvent) : (s.accept rest).reply = none := rfl

@[simp] theorem State.answer_x (s : State) (v : Word) : (s.answer v).x = s.x := rfl
@[simp] theorem State.answer_y (s : State) (v : Word) : (s.answer v).y = s.y := rfl
@[simp] theorem State.answer_code (s : State) (v : Word) : (s.answer v).code = s.code := rfl
@[simp] theorem State.answer_sticky (s : State) (v : Word) : (s.answer v).sticky = s.sticky := rfl
@[simp] theorem State.answer_pending (s : State) (v : Word) : (s.answer v).pending = s.pending := rfl
@[simp] theorem State.answer_reply (s : State) (v : Word) : (s.answer v).reply = some v := rfl

@[simp] theorem State.withCommand_x (s : State) (nbits w : Nat) : (s.withCommand nbits w).x = s.x := rfl
@[simp] theorem State.withCommand_y (s : State) (nbits w : Nat) : (s.withCommand nbits w).y = s.y := rfl
@[simp] theorem State.withCommand_code (s : State) (nbits w : Nat) : (s.withCommand nbits w).code = s.code := rfl
@[simp] theorem State.withCommand_sticky (s : State) (nbits w : Nat) : (s.withCommand nbits w).sticky = s.sticky := rfl
@[simp] theorem State.withCommand_pending (s : State) (nbits w : Nat) : (s.withCommand nbits w).pending = .regWrite cmdIndex (BitVec.ofNat Config.xlen (w % 2 ^ nbits)) :: s.pending := rfl
@[simp] theorem State.withCommand_reply (s : State) (nbits w : Nat) : (s.withCommand nbits w).reply = s.reply := rfl

end Updates

section Stores

@[simp] theorem State.storeRegister_y (s : State) (idx : RegIndex) (v : Word) :
    (s.storeRegister idx v).y = s.y := by
  unfold State.storeRegister; split <;> rfl

@[simp] theorem State.storeRegister_code (s : State) (idx : RegIndex) (v : Word) :
    (s.storeRegister idx v).code = s.code := by
  unfold State.storeRegister; split <;> rfl

@[simp] theorem State.storeRegister_sticky (s : State) (idx : RegIndex) (v : Word) :
    (s.storeRegister idx v).sticky = s.sticky := by
  unfold State.storeRegister; split <;> rfl

@[simp] theorem State.storeRegister_pending (s : State) (idx : RegIndex) (v : Word) :
    (s.storeRegister idx v).pending = s.pending := by
  unfold State.storeRegister; split <;> rfl

@[simp] theorem State.storeRegister_reply (s : State) (idx : RegIndex) (v : Word) :
    (s.storeRegister idx v).reply = s.reply := by
  unfold State.storeRegister; split <;> rfl

/-- An operand index stores its value (R53). -/
theorem State.storeRegister_operand (s : State) {idx : RegIndex} (v : Word) (h : idx.toNat < Config.nx) :
    s.storeRegister idx v = { s with x := s.x.set idx.toNat v } := dif_pos h

/-- Every other index drops the write (R54). -/
theorem State.storeRegister_dropped (s : State) {idx : RegIndex} (v : Word) (h : ¬ idx.toNat < Config.nx) :
    s.storeRegister idx v = s := dif_neg h

end Stores

section Reset

@[simp] theorem State.reset_code : State.reset.code = .ok := rfl
@[simp] theorem State.reset_sticky : State.reset.sticky = false := rfl
@[simp] theorem State.reset_pending : State.reset.pending = [] := rfl
@[simp] theorem State.reset_reply : State.reset.reply = none := rfl
@[simp] theorem State.reset_x : State.reset.x = Vector.replicate Config.nx 0 := rfl
@[simp] theorem State.reset_y : State.reset.y = Vector.replicate Config.ny 0 := rfl

end Reset

end Sys2Proof.Machine
end

