-- ==== Sys2Proof/Laws/Ops.lean ====
section
/-!
SUPPORT. Laws/Ops.lean: what the shared operations can do, said once: the command sequence (R269), the port's reads
and writes (R52, R53), the performance of an event and the step (R59).
-/

namespace Sys2Proof.Machine

/-- Reading one operand: the register's number. -/
theorem State.xUnsigned_lt (s : State) (i : Fin Config.nx) : s.xUnsigned i < 2 ^ 256 := s.x[i].isLt

/-- No operand check: every operand is accepted. -/
@[simp] theorem State.operandsAccepted_nil (s : State) : s.operandsAccepted [] = true := rfl

/-- One operand check and the rest. -/
@[simp] theorem State.operandsAccepted_cons (s : State) (c : OperandCheck) (cs : List OperandCheck) :
    s.operandsAccepted (c :: cs) = (decide (s.xUnsigned c.reg ≤ c.bound) && s.operandsAccepted cs) := rfl

/-- Steps 3 to 6 of R269, said once: everything a command other than `CLRF` can do. -/
theorem State.runCommand_cases {s t : State} {checks : List OperandCheck} {f : Except Tag (List Component)}
    (h : s.runCommand checks f = .next t) :
    (s.operandsAccepted checks = false ∧ t = s.raise .operand) ∨
    (s.operandsAccepted checks = true ∧ ∃ tag, f = .error tag ∧ t = s.raise tag.cause) ∨
    (s.operandsAccepted checks = true ∧ ∃ r, f = .ok r ∧ r.all Component.fits = false ∧ t = s.raise .result) ∨
    (s.operandsAccepted checks = true ∧ ∃ r, f = .ok r ∧ r.all Component.fits = true ∧
      t = s.commit (resultFile r)) := by
  unfold State.runCommand at h
  split at h
  · rename_i hacc
    split at h
    · rename_i tag
      exact .inr (.inl ⟨hacc, tag, rfl, (Host.Outcome.next.inj h).symm⟩)
    · rename_i r
      split at h
      · rename_i hfit
        exact .inr (.inr (.inr ⟨hacc, r, rfl, hfit, (Host.Outcome.next.inj h).symm⟩))
      · rename_i hfit
        exact .inr (.inr (.inl ⟨hacc, r, rfl, Bool.eq_false_iff.mpr hfit, (Host.Outcome.next.inj h).symm⟩))
  · rename_i hacc
    exact .inl ⟨Bool.eq_false_iff.mpr hacc, (Host.Outcome.next.inj h).symm⟩

/-- A refused operand raises `OPERAND` (R269 step 3). -/
theorem State.runCommand_operand {s : State} {checks : List OperandCheck} (f : Except Tag (List Component))
    (h : s.operandsAccepted checks = false) : s.runCommand checks f = .next (s.raise .operand) := by
  simp [State.runCommand, h]

/-- A function failure raises its own cause (R269 step 4). -/
theorem State.runCommand_error {s : State} {checks : List OperandCheck} {f : Except Tag (List Component)} {t : Tag}
    (h : s.operandsAccepted checks = true) (hf : f = .error t) :
    s.runCommand checks f = .next (s.raise t.cause) := by
  simp [State.runCommand, h, hf]

/-- A result outside its register's range raises `RESULT` (R269 step 5). -/
theorem State.runCommand_result {s : State} {checks : List OperandCheck} {f : Except Tag (List Component)}
    {r : List Component} (h : s.operandsAccepted checks = true) (hf : f = .ok r)
    (hr : r.all Component.fits = false) : s.runCommand checks f = .next (s.raise .result) := by
  simp only [State.runCommand, h, hf, hr, if_true, Bool.false_eq_true, if_false]

/-- Success commits (R269 step 6). -/
theorem State.runCommand_commit {s : State} {checks : List OperandCheck} {f : Except Tag (List Component)}
    {r : List Component} (h : s.operandsAccepted checks = true) (hf : f = .ok r)
    (hr : r.all Component.fits = true) : s.runCommand checks f = .next (s.commit (resultFile r)) := by
  simp only [State.runCommand, h, hf, hr, if_true]

/-- The command sequence always ends in a next state. -/
theorem State.runCommand_next (s : State) (checks : List OperandCheck) (f : Except Tag (List Component)) :
    ∃ t, s.runCommand checks f = .next t := by
  unfold State.runCommand
  split
  · split
    · exact ⟨_, rfl⟩
    · split <;> exact ⟨_, rfl⟩
  · exact ⟨_, rfl⟩

/-- One result goes to `Y[0]`; the others are 0 (R21). -/
@[simp] theorem resultFile_one (c : Component) : resultFile [c] = #v[c.word, 0, 0, 0] := rfl

/-- Two results go to `Y[0]` and `Y[1]` (R21). -/
@[simp] theorem resultFile_two (c d : Component) : resultFile [c, d] = #v[c.word, d.word, 0, 0] := rfl

/-- Four results fill `Y` (R22). -/
@[simp] theorem resultFile_four (a b c d : Component) : resultFile [a, b, c, d] = #v[a.word, b.word, c.word, d.word] :=
  rfl

/-- Reading an operand register (R52). -/
theorem State.regRead_operand (s : State) {idx : RegIndex} (h : idx.toNat < Config.nx) :
    s.regRead idx = s.x[idx.toNat] := dif_pos h

/-- Reading a result register (R52). -/
theorem State.regRead_result (s : State) {idx : RegIndex} (h : 16 ≤ idx.toNat ∧ idx.toNat < 16 + Config.ny) :
    s.regRead idx = s.y[idx.toNat - 16] := by
  have hx : ¬ idx.toNat < Config.nx := by simp only [Config.nx]; omega
  simp only [State.regRead, dif_neg hx, dif_pos h]

/-- Reading `STATUS` (R52). -/
theorem State.regRead_status (s : State) : s.regRead statusIndex = s.statusWord.zeroExtend Config.xlen := rfl

/-- A step with nothing pending (log 3). -/
theorem step_idle {s : State} (h : s.pending = []) : step s = .next s := by
  simp only [step, serveHost, h]

/-- A step performs the oldest pending event (R59). -/
theorem step_event {s : State} {ev : HostEvent} {rest : List HostEvent} (h : s.pending = ev :: rest) :
    step s = perform ev (s.accept rest) := by
  simp only [step, serveHost, h]

/-- A write of `CMD` executes its data (R53). -/
@[simp] theorem perform_command (v : Word) (s : State) : perform (.regWrite cmdIndex v) s = execute v s := rfl

/-- A write of any other index stores or is dropped (R53, R54). -/
theorem perform_store {idx : RegIndex} (v : Word) (s : State) (h : idx ≠ cmdIndex) :
    perform (.regWrite idx v) s = .next (s.storeRegister idx v) := if_neg h

/-- A read answers the host (R52). -/
@[simp] theorem perform_read (idx : RegIndex) (s : State) :
    perform (.regRead idx) s = .next (s.answer (s.regRead idx)) := rfl

/-- A reset of the unit (R291). -/
@[simp] theorem perform_reset (s : State) : perform .reset s = .next s.resetUnit := rfl

/-- A legal word runs its command (R269). -/
theorem execute_legal {v : Word} {i : Instr} (s : State) (h : decode v = .ok i) : execute v s = exec i s := by
  simp only [execute, h]

/-- Any other word raises `ILLEGAL` (R78). -/
theorem execute_illegal {v : Word} {e : IllegalReason} (s : State) (h : decode v = .error e) :
    execute v s = .next (s.raise .illegal) := by
  simp only [execute, h]

/-- Everything a step that answers a next state can have done. -/
theorem step_cases {s t : State} (h : step s = .next t) :
    (s.pending = [] ∧ t = s) ∨
    ∃ ev rest, s.pending = ev :: rest ∧
      ((∃ idx, ev = .regRead idx ∧ t = (s.accept rest).answer (s.regRead idx)) ∨
       (∃ idx v, ev = .regWrite idx v ∧ idx ≠ cmdIndex ∧ t = (s.accept rest).storeRegister idx v) ∨
       (∃ v, ev = .regWrite cmdIndex v ∧ execute v (s.accept rest) = .next t) ∨
       (ev = .reset ∧ t = (s.accept rest).resetUnit)) := by
  cases hp : s.pending with
  | nil => rw [step_idle hp] at h; exact .inl ⟨rfl, (Host.Outcome.next.inj h).symm⟩
  | cons ev rest =>
    rw [step_event hp] at h
    refine .inr ⟨ev, rest, rfl, ?_⟩
    cases ev with
    | regRead idx => exact .inl ⟨idx, rfl, (Host.Outcome.next.inj h).symm⟩
    | regWrite idx v =>
      by_cases hidx : idx = cmdIndex
      · subst hidx; exact .inr (.inr (.inl ⟨v, rfl, h⟩))
      · rw [perform_store v _ hidx] at h
        exact .inr (.inl ⟨idx, v, rfl, hidx, (Host.Outcome.next.inj h).symm⟩)
    | reset => exact .inr (.inr (.inr ⟨rfl, (Host.Outcome.next.inj h).symm⟩))

end Sys2Proof.Machine
end

