-- ==== Sys2Proof/Laws/Exec.lean ====
section
/-!
SUPPORT. Laws/Exec.lean: every command but `CLRF` is the common sequence of R269 over its own checks and its own
function, said once for all of them.
-/

namespace Sys2Proof.Machine

/-- The operand checks of each command (R266). -/
def commandChecks : Instr → List OperandCheck
  | .adddelta => [liquidityOperand 0]
  | .amt0delta _ => [priceOperand 0, priceOperand 1, liquidityOperand 2]
  | .amt1delta _ => [priceOperand 0, priceOperand 1, liquidityOperand 2]
  | .nextpin _ => [priceOperand 0, liquidityOperand 1]
  | .nextpout _ => [priceOperand 0, liquidityOperand 1]
  | .swapstep => [priceOperand 0, priceOperand 1, liquidityOperand 2, feeOperand 4]
  | .tokowed => [liquidityOperand 2]
  | .msb | .muldivru | .tick2sqrt | .sqrt2tick | .subin256 | .feeinside | .clrf => []

/-- The function of each command over its operands (R22). `CLRF` has none. -/
def commandFunction (i : Instr) (s : State) : Except Tag (List Component) :=
  match i with
  | .msb => (mostSignificantBit (s.xUnsigned 0)).map fun (r : Nat) => [.unsigned r]
  | .muldivru =>
    (mulDivRoundingUp (s.xUnsigned 0) (s.xUnsigned 1) (s.xUnsigned 2)).map fun (r : Nat) => [.unsigned r]
  | .adddelta => .ok [.unsigned (addDelta (s.xUnsigned 0) (s.xSigned 1))]
  | .tick2sqrt => (getSqrtRatioAtTick (s.xSigned 0)).map fun (r : Nat) => [.price r]
  | .sqrt2tick => (getTickAtSqrtRatio (s.xUnsigned 0)).map fun (t : Int) => [.tick t]
  | .amt0delta roundUp =>
    (getAmount0Delta (s.xUnsigned 0) (s.xUnsigned 1) (s.xUnsigned 2) roundUp).map fun (r : Nat) => [.unsigned r]
  | .amt1delta roundUp =>
    (getAmount1Delta (s.xUnsigned 0) (s.xUnsigned 1) (s.xUnsigned 2) roundUp).map fun (r : Nat) => [.unsigned r]
  | .nextpin zfo =>
    (getNextSqrtPriceFromInput (s.xUnsigned 0) (s.xUnsigned 1) (s.xUnsigned 2) zfo).map fun (r : Nat) => [.price r]
  | .nextpout zfo =>
    (getNextSqrtPriceFromOutput (s.xUnsigned 0) (s.xUnsigned 1) (s.xUnsigned 2) zfo).map fun (r : Nat) => [.price r]
  | .swapstep =>
    (computeSwapStep (s.xUnsigned 0) (s.xUnsigned 1) (s.xUnsigned 2) (s.xSigned 3) (s.xUnsigned 4)).map
      fun (r : SwapStep) => [.price r.sqrtNext, .unsigned r.amountIn, .unsigned r.amountOut, .unsigned r.feeAmount]
  | .subin256 => .ok [.unsigned (subIn256 (s.xUnsigned 0) (s.xUnsigned 1))]
  | .feeinside =>
    .ok [.unsigned (growthInside (s.xUnsigned 0) (s.xUnsigned 2) (s.xSigned 4) (s.xSigned 5) (s.xSigned 6)
          (s.xUnsigned 7)),
        .unsigned (growthInside (s.xUnsigned 1) (s.xUnsigned 3) (s.xSigned 4) (s.xSigned 5) (s.xSigned 6)
          (s.xUnsigned 8))]
  | .tokowed =>
    .ok [.unsigned (tokenOwed (s.xUnsigned 0) (s.xUnsigned 2) (s.xUnsigned 3)),
        .unsigned (tokenOwed (s.xUnsigned 1) (s.xUnsigned 2) (s.xUnsigned 4))]
  | .clrf => .ok []

/-- Every command but `CLRF` is the common sequence of R269. -/
theorem exec_eq_runCommand {i : Instr} (h : i ≠ .clrf) (s : State) :
    exec i s = s.runCommand (commandChecks i) (commandFunction i s) := by
  cases i <;> first | rfl | exact absurd rfl h

/-- `CLRF` clears (R250). -/
@[simp] theorem exec_clrf (s : State) : exec .clrf s = .next s.clearFailure := rfl

/-- Everything a command that answers a next state can have done. -/
theorem exec_cases {i : Instr} {s t : State} (h : exec i s = .next t) :
    (i = .clrf ∧ t = s.clearFailure) ∨
    (i ≠ .clrf ∧ s.operandsAccepted (commandChecks i) = false ∧ t = s.raise .operand) ∨
    (i ≠ .clrf ∧ s.operandsAccepted (commandChecks i) = true ∧
      ((∃ tag, commandFunction i s = .error tag ∧ t = s.raise tag.cause) ∨
       (∃ r, commandFunction i s = .ok r ∧ r.all Component.fits = false ∧ t = s.raise .result) ∨
       (∃ r, commandFunction i s = .ok r ∧ r.all Component.fits = true ∧ t = s.commit (resultFile r)))) := by
  by_cases hi : i = .clrf
  · subst hi
    exact .inl ⟨rfl, (Host.Outcome.next.inj h).symm⟩
  · rw [exec_eq_runCommand hi] at h
    rcases State.runCommand_cases h with ⟨ha, ht⟩ | ⟨ha, hr⟩ | ⟨ha, hr⟩ | ⟨ha, hr⟩
    · exact .inr (.inl ⟨hi, ha, ht⟩)
    · exact .inr (.inr ⟨hi, ha, .inl hr⟩)
    · exact .inr (.inr ⟨hi, ha, .inr (.inl hr)⟩)
    · exact .inr (.inr ⟨hi, ha, .inr (.inr hr)⟩)

end Sys2Proof.Machine
end

