-- ==== Sys2Proof/Laws/PerInstr.lean ====
section
/-!
SUPPORT. Laws/PerInstr.lean: the statements made instruction by instruction (LAWS.json).
-/

namespace Sys2Proof.Laws

/-- An instruction's encoding is a legal word by the opcode table, carries its opcode in bits 7:0 and leaves every bit
from 10 upwards 0 (`30_encoding.md` R70, R74). -/
def EncodeSelectsTableRow.Statement (i : Instr) : Prop :=
  i.wellFormed = true ∧ legalCommandWord (encode i) = true ∧ bitField (encode i).toNat 7 0 = i.opcode ∧
    (encode i).toNat < 2 ^ 10

theorem EncodeSelectsTableRow.msb : EncodeSelectsTableRow.Statement .msb := by
  unfold EncodeSelectsTableRow.Statement; decide

theorem EncodeSelectsTableRow.muldivru : EncodeSelectsTableRow.Statement .muldivru := by
  unfold EncodeSelectsTableRow.Statement; decide

theorem EncodeSelectsTableRow.adddelta : EncodeSelectsTableRow.Statement .adddelta := by
  unfold EncodeSelectsTableRow.Statement; decide

theorem EncodeSelectsTableRow.tick2sqrt : EncodeSelectsTableRow.Statement .tick2sqrt := by
  unfold EncodeSelectsTableRow.Statement; decide

theorem EncodeSelectsTableRow.sqrt2tick : EncodeSelectsTableRow.Statement .sqrt2tick := by
  unfold EncodeSelectsTableRow.Statement; decide

theorem EncodeSelectsTableRow.amt0delta (b : Bool) : EncodeSelectsTableRow.Statement (.amt0delta b) := by
  unfold EncodeSelectsTableRow.Statement; cases b <;> decide

theorem EncodeSelectsTableRow.amt1delta (b : Bool) : EncodeSelectsTableRow.Statement (.amt1delta b) := by
  unfold EncodeSelectsTableRow.Statement; cases b <;> decide

theorem EncodeSelectsTableRow.nextpin (b : Bool) : EncodeSelectsTableRow.Statement (.nextpin b) := by
  unfold EncodeSelectsTableRow.Statement; cases b <;> decide

theorem EncodeSelectsTableRow.nextpout (b : Bool) : EncodeSelectsTableRow.Statement (.nextpout b) := by
  unfold EncodeSelectsTableRow.Statement; cases b <;> decide

theorem EncodeSelectsTableRow.swapstep : EncodeSelectsTableRow.Statement .swapstep := by
  unfold EncodeSelectsTableRow.Statement; decide

theorem EncodeSelectsTableRow.subin256 : EncodeSelectsTableRow.Statement .subin256 := by
  unfold EncodeSelectsTableRow.Statement; decide

theorem EncodeSelectsTableRow.feeinside : EncodeSelectsTableRow.Statement .feeinside := by
  unfold EncodeSelectsTableRow.Statement; decide

theorem EncodeSelectsTableRow.tokowed : EncodeSelectsTableRow.Statement .tokowed := by
  unfold EncodeSelectsTableRow.Statement; decide

theorem EncodeSelectsTableRow.clrf : EncodeSelectsTableRow.Statement .clrf := by
  unfold EncodeSelectsTableRow.Statement; decide

end Sys2Proof.Laws
end

