-- ==== Sys2Proof/Tests/Slice0.lean ====
section
/-!
SUPPORT. Tests/Slice0.lean: decoding of written-out words, ill-formed words and statements refused, at most two steps
per command with expected values from `95_test_vectors.md` (its section in each docstring), and for every statement
with hypotheses a concrete case that meets them, clause by clause at boundary values.
-/

namespace Sys2Proof.Tests

open Sys2Proof Sys2Proof.Machine

/-- The reset state with these operand registers. -/
def opnd (xs : List Nat) : State := { State.reset with x := Vector.ofFn fun i => word (xs.getD i.val 0) }

/-- The reset state with these host events pending. -/
def hostDoes (evs : List HostEvent) : State := { State.reset with pending := evs }

/-- The number of `STATUS` and the four results, if the command answered a next state. -/
def seen : Result → Option (Nat × List Nat)
  | .next s => some (s.statusWord.toNat, s.y.toList.map BitVec.toNat)
  | .fault _ => none
  | .refused _ => none

/-- What the host reads at the end of `k` steps. -/
def readBack : Result → Option Nat
  | .next s => s.reply.map BitVec.toNat
  | .fault _ => none
  | .refused _ => none

/-- The widths `AMT0DELTA` and `AMT1DELTA` accept (R266). -/
abbrev amountOperandsFit (s : State) : Prop :=
  s.xUnsigned 0 ≤ 2 ^ 160 - 1 ∧ s.xUnsigned 1 ≤ 2 ^ 160 - 1 ∧ s.xUnsigned 2 ≤ 2 ^ 128 - 1

/-- The widths `NEXTPIN` and `NEXTPOUT` accept (R266). -/
abbrev priceOperandsFit (s : State) : Prop :=
  s.xUnsigned 0 ≤ 2 ^ 160 - 1 ∧ s.xUnsigned 1 ≤ 2 ^ 128 - 1

/-- The name under which a word is rejected, if it is. -/
def rejection (w : Nat) : Option IllegalReason :=
  match decode (BitVec.ofNat 256 w) with
  | .ok _ => none
  | .error r => some r

/-- The command a word is, if it is one. -/
def command (w : Nat) : Option Instr :=
  match decode (BitVec.ofNat 256 w) with
  | .ok i => some i
  | .error _ => none

/-! ## Ill-formed words and statements are refused (R78, R81; section 7.1) -/

/-- Data bit 32 set. -/
theorem test_wellformed_refuses_high_data_bits :
    legalCommandWord 4294967307#256 = false ∧ rejection 4294967307 = some .highDataBits := by decide

/-- Data bit 255 set. -/
theorem test_wellformed_refuses_top_data_bit :
    legalCommandWord 57896044618658097711785492504343953926634992332820282019728792003956564819979#256 =
      false ∧ rejection 57896044618658097711785492504343953926634992332820282019728792003956564819979 =
      some .highDataBits := by decide

/-- `RSV` bit 10 set. -/
theorem test_wellformed_refuses_reserved_bit_10 :
    legalCommandWord 1035#256 = false ∧ rejection 1035 = some .reservedBits := by decide

/-- `RSV` bit 31 set. -/
theorem test_wellformed_refuses_reserved_bit_31 :
    legalCommandWord 2147483659#256 = false ∧ rejection 2147483659 = some .reservedBits := by decide

/-- `OPC` 0x00. -/
theorem test_wellformed_refuses_opcode_0 :
    legalCommandWord 0#256 = false ∧ rejection 0 = some .undefinedOpcode := by decide

/-- The first undefined opcode. -/
theorem test_wellformed_refuses_opcode_0F :
    legalCommandWord 15#256 = false ∧ rejection 15 = some .undefinedOpcode := by decide

/-- `RU` on `MSB`. -/
theorem test_wellformed_refuses_stray_ru :
    legalCommandWord 257#256 = false ∧ rejection 257 = some .strayRoundUp := by decide

/-- `ZFO` on `AMT0DELTA`. -/
theorem test_wellformed_refuses_stray_zfo :
    legalCommandWord 518#256 = false ∧ rejection 518 = some .strayZeroForOne := by decide

/-- `CALL` of a command that reads three registers, with two operands. -/
theorem test_wellformed_refuses_short_call :
    AsmStmt.wellFormed (.call .muldivru [.lit 1, .lit 2]) = false ∧
      assembleStmt (.call .muldivru [.lit 1, .lit 2]) = none := by decide

/-! ## Decoding of words written out bit by bit: `RSV` (22 bits), `ZFO`, `RU`, `OPC` (R70, R73) -/

theorem test_decode_msb : command 0b0000000000000000000000_00_00000001 = some .msb := by decide

theorem test_decode_muldivru : command 0b0000000000000000000000_00_00000010 = some .muldivru := by decide

theorem test_decode_adddelta : command 0b0000000000000000000000_00_00000011 = some .adddelta := by decide

theorem test_decode_tick2sqrt : command 0b0000000000000000000000_00_00000100 = some .tick2sqrt := by decide

theorem test_decode_sqrt2tick : command 0b0000000000000000000000_00_00000101 = some .sqrt2tick := by decide

theorem test_decode_amt0delta_dn : command 0b0000000000000000000000_00_00000110 = some (.amt0delta false) := by decide

theorem test_decode_amt0delta_up : command 0b0000000000000000000000_01_00000110 = some (.amt0delta true) := by decide

theorem test_decode_amt1delta_dn : command 0b0000000000000000000000_00_00000111 = some (.amt1delta false) := by decide

theorem test_decode_amt1delta_up : command 0b0000000000000000000000_01_00000111 = some (.amt1delta true) := by decide

theorem test_decode_nextpin_ofz : command 0b0000000000000000000000_00_00001000 = some (.nextpin false) := by decide

theorem test_decode_nextpin_zfo : command 0b0000000000000000000000_10_00001000 = some (.nextpin true) := by decide

theorem test_decode_nextpout_ofz : command 0b0000000000000000000000_00_00001001 = some (.nextpout false) := by decide

theorem test_decode_nextpout_zfo : command 0b0000000000000000000000_10_00001001 = some (.nextpout true) := by decide

theorem test_decode_swapstep : command 0b0000000000000000000000_00_00001010 = some .swapstep := by decide

theorem test_decode_subin256 : command 0b0000000000000000000000_00_00001011 = some .subin256 := by decide

theorem test_decode_feeinside : command 0b0000000000000000000000_00_00001100 = some .feeinside := by decide

theorem test_decode_tokowed : command 0b0000000000000000000000_00_00001101 = some .tokowed := by decide

theorem test_decode_clrf : command 0b0000000000000000000000_00_00001110 = some .clrf := by decide

/-! ## One step of each command -/

/-- Section 3.1. -/
theorem test_msb_of_2_pow_128_minus_1 :
    seen (exec .msb (opnd [2 ^ 128 - 1])) =
      some (0x0, [127, 0, 0, 0]) := by decide

/-- Section 3.1. -/
theorem test_msb_of_zero :
    seen (exec .msb (opnd [0])) =
      some (0x13, [0, 0, 0, 0]) := by decide

/-- Section 3.2. -/
theorem test_muldivru_rounds_up :
    seen (exec .muldivru (opnd [6, 7, 4])) =
      some (0x0, [11, 0, 0, 0]) := by decide

/-- Section 3.2. -/
theorem test_muldivru_past_256_bits :
    seen (exec .muldivru (opnd [2 ^ 255, 2, 1])) =
      some (0x17, [0, 0, 0, 0]) := by decide

/-- Section 3.3. -/
theorem test_adddelta_negative :
    seen (exec .adddelta (opnd [5, 2 ^ 256 - 3])) =
      some (0x0, [2, 0, 0, 0]) := by decide

/-- Section 3.3. -/
theorem test_adddelta_below_zero :
    seen (exec .adddelta (opnd [5, 2 ^ 256 - 6])) =
      some (0x17, [0, 0, 0, 0]) := by decide

/-- Section 2.3. -/
theorem test_tick2sqrt_least_tick :
    seen (exec .tick2sqrt (opnd [2 ^ 256 - 887272])) =
      some (0x0, [4295128739, 0, 0, 0]) := by decide

/-- Section 2.3. -/
theorem test_tick2sqrt_past_greatest_tick :
    seen (exec .tick2sqrt (opnd [887273])) =
      some (0x11, [0, 0, 0, 0]) := by decide

/-- Section 2.3. -/
theorem test_sqrt2tick_below_price_one :
    seen (exec .sqrt2tick (opnd [2 ^ 96 - 1])) =
      some (0x0, [2 ^ 256 - 1, 0, 0, 0]) := by decide

/-- Section 2.3. -/
theorem test_sqrt2tick_at_open_bound :
    seen (exec .sqrt2tick (opnd [1461446703485210103287273052203988822378723970342])) =
      some (0x12, [0, 0, 0, 0]) := by decide

/-- Section 4.1. -/
theorem test_amt0delta_up :
    seen (exec (.amt0delta true) (opnd [2 ^ 96, 87150978765690771352898345369, 10 ^ 18])) =
      some (0x0, [90909090909090910, 0, 0, 0]) := by decide

/-- Section 4.1. -/
theorem test_amt0delta_width_before_zero_price :
    seen (exec (.amt0delta true) (opnd [2 ^ 160, 0, 1])) =
      some (0x16, [0, 0, 0, 0]) := by decide

/-- Section 4.1. -/
theorem test_amt1delta_dn :
    seen (exec (.amt1delta false) (opnd [2 ^ 96, 87150978765690771352898345369, 10 ^ 18])) =
      some (0x0, [99999999999999999, 0, 0, 0]) := by decide

/-- Section 4.1. -/
theorem test_amt1delta_zero_price :
    seen (exec (.amt1delta true) (opnd [0, 2 ^ 96, 1])) =
      some (0x0, [1, 0, 0, 0]) := by decide

/-- Section 4.2. -/
theorem test_nextpin_zfo :
    seen (exec (.nextpin true) (opnd [2 ^ 96, 10 ^ 18, 10 ^ 17])) =
      some (0x0, [72025602285694852357767227579, 0, 0, 0]) := by decide

/-- Section 4.2. -/
theorem test_nextpin_ofz_past_160_bits :
    seen (exec (.nextpin false) (opnd [2 ^ 160 - 1, 1, 1])) =
      some (0x17, [0, 0, 0, 0]) := by decide

/-- Section 4.2. -/
theorem test_nextpout_ofz :
    seen (exec (.nextpout false) (opnd [2 ^ 96, 10 ^ 18, 10 ^ 17])) =
      some (0x0, [88031291682515930659493278152, 0, 0, 0]) := by decide

/-- Section 4.2. -/
theorem test_nextpout_zfo :
    seen (exec (.nextpout true) (opnd [2 ^ 96, 10 ^ 18, 10 ^ 17])) =
      some (0x0, [71305346262837903834189555302, 0, 0, 0]) := by decide

/-- Section 5, S3. -/
theorem test_swapstep_exact_in_short :
    seen (exec .swapstep (opnd [2 ^ 96, 250541448375047931186413801569, 2 * 10 ^ 18, 10 ^ 18, 600])) =
      some (0x0, [118818475322642227089037862318, 999400000000000000, 666399946655997866,
        600000000000000]) := by decide

/-- Section 5, S8. -/
theorem test_swapstep_exact_out_clamped :
    seen (exec .swapstep (opnd [417332158212080721273783715441582, 1452870262520218020823638996,
      159344665391607089467575320103, 2 ^ 256 - 1, 1])) =
      some (0x0, [417332158212080721273783715441581, 1, 1, 1]) := by decide

/-- Section 6.1. -/
theorem test_subin256_wraps :
    seen (exec .subin256 (opnd [5, 7])) =
      some (0x0, [2 ^ 256 - 2, 0, 0, 0]) := by decide

/-- Section 6.2, F6. -/
theorem test_feeinside_below_the_range :
    seen (exec .feeinside (opnd [100, 200, 30, 40, 2 ^ 256 - 10, 10, 2 ^ 256 - 11, 1000, 2000])) =
      some (0x0, [70, 160, 0, 0]) := by decide

/-- Section 6.2, F9. -/
theorem test_feeinside_at_the_upper_tick :
    seen (exec .feeinside (opnd [100, 200, 30, 40, 2 ^ 256 - 10, 10, 10, 1000, 2000])) =
      some (0x0, [2 ^ 256 - 70, 2 ^ 256 - 160, 0, 0]) := by decide

/-- Section 6.3, row 5. -/
theorem test_tokowed_wraps :
    seen (exec .tokowed (opnd [2 ^ 256 - 1, 2 ^ 256 - 2, 1, 2 ^ 128 - 1, 2 ^ 128 - 1])) =
      some (0x0, [1, 1, 0, 0]) := by decide

/-- Section 6.3. -/
theorem test_tokowed_wide_liquidity :
    seen (exec .tokowed (opnd [0, 0, 2 ^ 128, 1, 1])) =
      some (0x16, [0, 0, 0, 0]) := by decide

/-- Section 7.3: `CLRF` after a failure. -/
theorem test_clrf : seen (exec .clrf (failedWith State.reset .illegal)) = some (0, [0, 0, 0, 0]) := by decide

/-- Section 7.2: the write of an operand, a command and the read of its result. -/
theorem test_port_msb_of_256 :
    readBack (runSteps 3 (hostDoes [.regWrite 0 256, .regWrite 24 1, .regRead 16])) = some 8 := by decide

/-- Section 7.1: the table word of `AMT0DELTA.UP` runs as the first command after reset. -/
theorem test_fetch_word_runs : seen (step (State.reset.withFetchWord 32 0x106)) = some (0x15, [0, 0, 0, 0]) := by
  decide

/-- R81: `CALL MSB 256` is a write of `X[0]` and the command (section 7.2). -/
theorem test_call_expands :
    assembleStmt (.call .msb [.lit 256]) = some [.regWrite 0 256, .regWrite 24 1] := by decide

/-! ## Witnesses: cases that meet the hypotheses of each statement -/

theorem witness_LegalWordsAreTheEighteen : 0x106 < 2 ^ 32 ∧ decode 0x106 = .ok (.amt0delta true) := ⟨by decide, rfl⟩

/-- Each of the six ways of being illegal, and a word that is none of them. -/
theorem witness_IllegalWordRunsNoOperation :
    (2 ^ 32 + 0xB) / 2 ^ 32 ≠ 0 ∧
    0x40E / 2 ^ 10 % 2 ^ 22 ≠ 0 ∧ 0x8000000B / 2 ^ 10 % 2 ^ 22 ≠ 0 ∧ 0 % 2 ^ 8 = 0 ∧ 0x0F ≤ 0x0F % 2 ^ 8 ∧
    (0x101 / 2 ^ 8 % 2 = 1 ∧ 0x101 % 2 ^ 8 ≠ 0x06 ∧ 0x101 % 2 ^ 8 ≠ 0x07) ∧
    (0x206 / 2 ^ 9 % 2 = 1 ∧ 0x206 % 2 ^ 8 ≠ 0x08 ∧ 0x206 % 2 ^ 8 ≠ 0x09) ∧
    ¬ (0xE / 2 ^ 32 ≠ 0 ∨ 0xE / 2 ^ 10 % 2 ^ 22 ≠ 0 ∨ 0xE % 2 ^ 8 = 0 ∨ 0x0F ≤ 0xE % 2 ^ 8 ∨
      0xE / 2 ^ 8 % 2 = 1 ∨ 0xE / 2 ^ 9 % 2 = 1) := by decide

theorem witness_StepRunsTheDecodedCommand :
    (hostDoes [.regWrite 24 0x208]).pending = .regWrite 24 0x208 :: [] ∧ decode 0x208 = .ok (.nextpin true) ∧
      (Instr.nextpin true).wellFormed = true := ⟨rfl, rfl, rfl⟩

/-- Zero, the least and the greatest operand. -/
theorem witness_MsbReturnsTheHighestSetBit :
    (opnd [0]).xUnsigned 0 = 0 ∧
    (opnd [1]).xUnsigned 0 ≠ 0 ∧
    (opnd [2 ^ 256 - 1]).xUnsigned 0 ≠ 0 := by decide

/-- Each clause at its ends. -/
theorem witness_MostSignificantBitOnEveryInteger :
    (0 : Int) ≤ 0 ∧
    ((2 : Int) ^ 256 > 2 ^ 256 - 1) ∧
    (1 : Int) ≤ 1 ∧
    ((1 : Int) ≤ 2 ^ 256 - 1) ∧
    ((2 : Int) ^ 256 - 1 ≤ 2 ^ 256 - 1) := by decide

/-- A zero denominator, and the ceilings `2^256 - 1` and `2^256`. -/
theorem witness_MulDivRuReturnsTheCeiling :
    (opnd [5, 5, 0]).xUnsigned 2 = 0 ∧
    (opnd [2 ^ 256 - 1, 2, 2]).xUnsigned 2 ≠ 0 ∧
    ceilDiv ((2 ^ 256 - 1) * 2) 2 ≤ 2 ^ 256 - 1 ∧
    (opnd [2 ^ 255, 2, 1]).xUnsigned 2 ≠ 0 ∧
    2 ^ 256 - 1 < ceilDiv (2 ^ 255 * 2) 1 := by decide

/-- The least denominator, a division with a remainder and one without. -/
theorem witness_CeilingIdentity :
    0 < 1 ∧
    6 * 7 % 4 ≠ 0 ∧
    6 * 7 % 3 = 0 := by decide

/-- Both sides of the sign bit, and the ends of the signed range. -/
theorem witness_SignedViewRoundTrips :
    (BitVec.ofNat 256 (2 ^ 255 - 1)).toNat < 2 ^ 255 ∧
    2 ^ 255 ≤ (BitVec.ofNat 256 (2 ^ 255)).toNat ∧
    (-(2 ^ 255) : Int) ≤ -(2 ^ 255) ∧
    ((-1 : Int) < 0) ∧
    ((2 : Int) ^ 255 - 1 ≤ 2 ^ 255 - 1) := by decide

/-- Liquidity on both sides of 128 bits; sums -1 and 0. -/
theorem witness_AddDeltaAddsExactly :
    2 ^ 128 - 1 < (opnd [2 ^ 128]).xUnsigned 0 ∧
    (opnd [2 ^ 128 - 1]).xUnsigned 0 ≤ 2 ^ 128 - 1 ∧
    ((((opnd [0, 2 ^ 256 - 1]).xUnsigned 0 : Nat) : Int) + sint256 (opnd [0, 2 ^ 256 - 1]).x[1] < 0) ∧
    (0 ≤ (((opnd [1, 2 ^ 256 - 1]).xUnsigned 0 : Nat) : Int) + sint256 (opnd [1, 2 ^ 256 - 1]).x[1]) := by decide

/-- Both ends of both clauses. -/
theorem witness_Tick2SqrtConvertsEveryValidTick :
    887272 < (opnd [887273]).xUnsigned 0 ∧
    (opnd [2 ^ 256 - 887273]).xUnsigned 0 < 2 ^ 256 - 887272 ∧
    (opnd [887272]).xUnsigned 0 ≤ 887272 ∧
    2 ^ 256 - 887272 ≤ (opnd [2 ^ 256 - 887272]).xUnsigned 0 := by decide

/-- The two greatest ticks with their prices (section 2.2). -/
theorem witness_TickToPriceIsStrictlyIncreasing :
    minTick ≤ 887271 ∧ (887271 : Int) < 887272 ∧ (887272 : Int) ≤ maxTick ∧
    getSqrtRatioAtTick 887271 = .ok 1461373636630004318706518188784493106690254656249 ∧
    getSqrtRatioAtTick 887272 = .ok maxSqrtRatio := ⟨by decide, by decide, by decide, rfl, rfl⟩

/-- Both ends of both clauses. -/
theorem witness_Sqrt2TickConvertsEveryValidPrice :
    (opnd [4295128738]).xUnsigned 0 < minSqrtRatio ∧
    maxSqrtRatio ≤ (opnd [1461446703485210103287273052203988822378723970342]).xUnsigned 0 ∧
    minSqrtRatio ≤ (opnd [4295128739]).xUnsigned 0 ∧
    (opnd [1461446703485210103287273052203988822378723970341]).xUnsigned 0 < maxSqrtRatio := by decide

/-- The least and the greatest valid price. -/
theorem witness_TickIsTheGreatestNotAbove :
    minSqrtRatio ≤ 4295128739 ∧
    4295128739 < maxSqrtRatio ∧
    minSqrtRatio ≤ 1461446703485210103287273052203988822378723970341 ∧
    1461446703485210103287273052203988822378723970341 < maxSqrtRatio := by decide

/-- The greatest magnitude. -/
theorem witness_LadderRatioIsPositiveAndAtMostOne :
    887272 ≤ 887272 ∧
    0 < ladderRatio 887272 := by decide

/-- Each oversized operand; a zero price; the greatest and the least accepted operands. -/
theorem witness_Amt0DeltaReturnsTheAmount :
    ¬ amountOperandsFit (opnd [2 ^ 160]) ∧
    ¬ amountOperandsFit (opnd [1, 2 ^ 160]) ∧
    ¬ amountOperandsFit (opnd [1, 1, 2 ^ 128]) ∧
    amountOperandsFit (opnd [0, 1]) ∧
    (opnd [0, 1]).xUnsigned 0 = 0 ∧
    amountOperandsFit (opnd [2 ^ 160 - 1, 2 ^ 160 - 1, 2 ^ 128 - 1]) ∧
    (opnd [2 ^ 160 - 1, 2 ^ 160 - 1, 2 ^ 128 - 1]).xUnsigned 0 ≠ 0 ∧
    amountOperandsFit (opnd [1, 1]) ∧
    (opnd [1, 1]).xUnsigned 1 ≠ 0 := by decide

/-- The least prices. -/
theorem witness_Amt0RoundingsDifferByAtMostOne :
    0 < 1 := by decide

/-- Each oversized operand; the greatest and the least accepted operands. -/
theorem witness_Amt1DeltaReturnsTheAmount :
    ¬ amountOperandsFit (opnd [2 ^ 160]) ∧
    ¬ amountOperandsFit (opnd [1, 2 ^ 160]) ∧
    ¬ amountOperandsFit (opnd [1, 1, 2 ^ 128]) ∧
    amountOperandsFit (opnd [2 ^ 160 - 1, 2 ^ 160 - 1, 2 ^ 128 - 1]) ∧
    amountOperandsFit (opnd [0, 0, 0]) := by decide

/-- Oversized operands; zero price and liquidity; sums on both sides of 160 bits. -/
theorem witness_NextPInOneForZero :
    ¬ priceOperandsFit (opnd [2 ^ 160]) ∧
    ¬ priceOperandsFit (opnd [1, 2 ^ 128]) ∧
    priceOperandsFit (opnd [0, 1]) ∧
    (opnd [0, 1]).xUnsigned 0 = 0 ∧
    (opnd [1, 0]).xUnsigned 1 = 0 ∧
    priceOperandsFit (opnd [2 ^ 160 - 1, 2 ^ 128 - 1, 1]) ∧
    (opnd [2 ^ 160 - 1, 2 ^ 128 - 1, 1]).xUnsigned 0 ≠ 0 ∧
    (opnd [2 ^ 160 - 1, 2 ^ 128 - 1, 1]).xUnsigned 1 ≠ 0 ∧
    (opnd [2 ^ 160 - 1, 2 ^ 128 - 1, 1]).xUnsigned 0 + (opnd [2 ^ 160 - 1, 2 ^ 128 - 1,
      1]).xUnsigned 2 * 2 ^ 96 / (opnd [2 ^ 160 - 1, 2 ^ 128 - 1, 1]).xUnsigned 1 ≤ 2 ^ 160 - 1 ∧
    priceOperandsFit (opnd [2 ^ 160 - 1, 1, 1]) ∧
    2 ^ 160 - 1 <
      (opnd [2 ^ 160 - 1, 1, 1]).xUnsigned 0 + (opnd [2 ^ 160 - 1, 1, 1]).xUnsigned 2 * 2 ^ 96 / (opnd [2 ^ 160 - 1,
      1, 1]).xUnsigned 1 := by decide

/-- Oversized operands; zero price and liquidity; a zero amount; both sides of the wrap (section 4.2). -/
theorem witness_NextPInZeroForOne :
    ¬ priceOperandsFit (opnd [2 ^ 160, 1, 1]) ∧
    ¬ priceOperandsFit (opnd [1, 2 ^ 128, 1]) ∧
    (opnd [0, 1, 1]).xUnsigned 0 = 0 ∧
    (opnd [1, 0, 1]).xUnsigned 1 = 0 ∧
    priceOperandsFit (opnd [1, 1, 0]) ∧
    (opnd [1, 1, 0]).xUnsigned 2 = 0 ∧
    priceOperandsFit (opnd [2 ^ 160 - 1, 1, 2 ^ 96 - 1]) ∧
    (opnd [2 ^ 160 - 1, 1, 2 ^ 96 - 1]).xUnsigned 0 ≠ 0 ∧
    (opnd [2 ^ 160 - 1, 1, 2 ^ 96 - 1]).xUnsigned 1 * 2 ^ 96 + (opnd [2 ^ 160 - 1, 1,
      2 ^ 96 - 1]).xUnsigned 2 * (opnd [2 ^ 160 - 1, 1, 2 ^ 96 - 1]).xUnsigned 0 < 2 ^ 256 ∧
    ¬ (opnd [2 ^ 160 - 1, 1, 2 ^ 96]).xUnsigned 1 * 2 ^ 96 + (opnd [2 ^ 160 - 1, 1,
      2 ^ 96]).xUnsigned 2 * (opnd [2 ^ 160 - 1, 1, 2 ^ 96]).xUnsigned 0 < 2 ^ 256 := by decide

/-- Oversized operands; zero price and liquidity; quotients just below and at the price (section 4.2). -/
theorem witness_NextPOutZeroForOne :
    ¬ priceOperandsFit (opnd [2 ^ 160]) ∧
    ¬ priceOperandsFit (opnd [1, 2 ^ 128]) ∧
    (opnd [0, 1]).xUnsigned 0 = 0 ∧
    (opnd [1, 0]).xUnsigned 1 = 0 ∧
    priceOperandsFit (opnd [2 ^ 104, 1024, 262143]) ∧
    ceilDiv ((opnd [2 ^ 104, 1024, 262143]).xUnsigned 2 * 2 ^ 96) ((opnd [2 ^ 104, 1024, 262143]).xUnsigned 1) <
      (opnd [2 ^ 104, 1024, 262143]).xUnsigned 0 ∧
    (opnd [2 ^ 104, 1024, 262144]).xUnsigned 0 ≤
      ceilDiv ((opnd [2 ^ 104, 1024, 262144]).xUnsigned 2 * 2 ^ 96) ((opnd [2 ^ 104, 1024,
      262144]).xUnsigned 1) := by decide

/-- Oversized operands; zero price and liquidity; products just below and at the bound (section 4.2); a price past 160 bits. -/
theorem witness_NextPOutOneForZero :
    ¬ priceOperandsFit (opnd [2 ^ 160]) ∧
    ¬ priceOperandsFit (opnd [1, 2 ^ 128]) ∧
    (opnd [0, 1]).xUnsigned 0 = 0 ∧
    (opnd [1, 0]).xUnsigned 1 = 0 ∧
    priceOperandsFit (opnd [2 ^ 104, 1024, 3]) ∧
    (opnd [2 ^ 104, 1024, 3]).xUnsigned 2 * (opnd [2 ^ 104, 1024, 3]).xUnsigned 0 <
      (opnd [2 ^ 104, 1024, 3]).xUnsigned 1 * 2 ^ 96 ∧
    ceilDiv ((opnd [2 ^ 104, 1024, 3]).xUnsigned 1 * 2 ^ 96 * (opnd [2 ^ 104, 1024, 3]).xUnsigned 0) ((opnd [2 ^ 104,
      1024, 3]).xUnsigned 1 * 2 ^ 96 - (opnd [2 ^ 104, 1024, 3]).xUnsigned 2 * (opnd [2 ^ 104, 1024,
      3]).xUnsigned 0) ≤ 2 ^ 160 - 1 ∧
    (opnd [2 ^ 104, 1024, 4]).xUnsigned 1 * 2 ^ 96 ≤
      (opnd [2 ^ 104, 1024, 4]).xUnsigned 2 * (opnd [2 ^ 104, 1024, 4]).xUnsigned 0 ∧
    priceOperandsFit (opnd [2 ^ 159, 2 ^ 63 + 1, 1]) ∧
    (opnd [2 ^ 159, 2 ^ 63 + 1, 1]).xUnsigned 2 * (opnd [2 ^ 159, 2 ^ 63 + 1, 1]).xUnsigned 0 <
      (opnd [2 ^ 159, 2 ^ 63 + 1, 1]).xUnsigned 1 * 2 ^ 96 ∧
    2 ^ 160 - 1 <
      ceilDiv ((opnd [2 ^ 159, 2 ^ 63 + 1, 1]).xUnsigned 1 * 2 ^ 96 * (opnd [2 ^ 159, 2 ^ 63 + 1, 1]).xUnsigned 0)
      ((opnd [2 ^ 159, 2 ^ 63 + 1, 1]).xUnsigned 1 * 2 ^ 96 - (opnd [2 ^ 159, 2 ^ 63 + 1,
      1]).xUnsigned 2 * (opnd [2 ^ 159, 2 ^ 63 + 1, 1]).xUnsigned 0) := by decide

/-- All four forms at one price (section 4.2). -/
theorem witness_PriceMovesInItsDirection :
    0 < 2 ^ 96 ∧ 0 < 10 ^ 18 ∧
    getNextSqrtPriceFromInput (2 ^ 96) (10 ^ 18) (10 ^ 17) true = .ok 72025602285694852357767227579 ∧
    getNextSqrtPriceFromInput (2 ^ 96) (10 ^ 18) (10 ^ 17) false = .ok 87150978765690771352898345369 ∧
    getNextSqrtPriceFromOutput (2 ^ 96) (10 ^ 18) (10 ^ 17) true = .ok 71305346262837903834189555302 ∧
    getNextSqrtPriceFromOutput (2 ^ 96) (10 ^ 18) (10 ^ 17) false = .ok 88031291682515930659493278152 :=
  ⟨by decide, by decide, rfl, rfl, rfl, rfl⟩

/-- The greatest and the least operands. -/
theorem witness_SwapStepCompletesOnNonzeroPrices :
    operandsInWidth .swapstep (opnd [2 ^ 160 - 1, 2 ^ 160 - 1, 2 ^ 128 - 1, 2 ^ 255 - 1, 999999]) ∧
    operandsInWidth .swapstep (opnd [1, 1, 0, 2 ^ 255, 0]) ∧
    (opnd [2 ^ 160 - 1, 2 ^ 160 - 1, 2 ^ 128 - 1, 2 ^ 255 - 1, 999999]).xUnsigned 0 ≠ 0 ∧
    (opnd [2 ^ 160 - 1, 2 ^ 160 - 1, 2 ^ 128 - 1, 2 ^ 255 - 1, 999999]).xUnsigned 1 ≠ 0 ∧
    (opnd [1, 1, 0, 2 ^ 255, 0]).xUnsigned 0 ≠ 0 ∧
    (opnd [1, 1, 0, 2 ^ 255, 0]).xUnsigned 1 ≠ 0 := by
  simp only [operandsInWidth]; decide

/-- Section 5: S3 (exact in, short of the target), S1 (exact in, at the target), S4 (exact out, short of it), S2 (exact
out, at the target) and S23 (exact out, short of a zero target), each with the stage 1 comparison it meets. -/
theorem witness_SwapStepAmountsMatchTheMove :
    (0 < 2 ^ 96 ∧ 2 ^ 96 ≤ 2 ^ 160 - 1 ∧ 79623317895830914510639640423 ≤
      2 ^ 160 - 1 ∧ 250541448375047931186413801569 ≤ 2 ^ 160 - 1 ∧
      792281625142643375935439503360 ≤ 2 ^ 160 - 1 ∧ 2 * 10 ^ 18 ≤ 2 ^ 128 - 1 ∧ 3000 < 1000000) ∧
    (10 ^ 18 * (1000000 - 600) / 1000000 < amount1Exact true (2 ^ 96) 250541448375047931186413801569 (2 * 10 ^ 18) ∧
      computeSwapStep (2 ^ 96) 250541448375047931186413801569 (2 * 10 ^ 18) (10 ^ 18) 600 =
        .ok ⟨118818475322642227089037862318, 999400000000000000, 666399946655997866, 600000000000000⟩) ∧
    (amount1Exact true (2 ^ 96) 79623317895830914510639640423 (2 * 10 ^ 18) ≤ 10 ^ 18 * (1000000 - 600) / 1000000 ∧
      computeSwapStep (2 ^ 96) 79623317895830914510639640423 (2 * 10 ^ 18) (10 ^ 18) 600 =
        .ok ⟨79623317895830914510639640423, 9975124224178055, 9925619580021728, 5988667735148⟩) ∧
    (10 ^ 18 < amount0Exact false (2 ^ 96) 792281625142643375935439503360 (2 * 10 ^ 18) ∧
      computeSwapStep (2 ^ 96) 792281625142643375935439503360 (2 * 10 ^ 18) (-(10 ^ 18)) 600 =
        .ok ⟨158456325028528675187087900672, 2000000000000000000, 1000000000000000000, 1200720432259356⟩) ∧
    (amount0Exact false (2 ^ 96) 79623317895830914510639640423 (2 * 10 ^ 18) ≤ 10 ^ 18 ∧
      computeSwapStep (2 ^ 96) 79623317895830914510639640423 (2 * 10 ^ 18) (-(10 ^ 18)) 600 =
        .ok ⟨79623317895830914510639640423, 9975124224178055, 9925619580021728, 5988667735148⟩) ∧
    (10 ^ 17 < amount1Exact false (2 ^ 96) 0 (10 ^ 18) ∧
      computeSwapStep (2 ^ 96) 0 (10 ^ 18) (-(10 ^ 17)) 3000 =
        .ok ⟨71305346262837903834189555302, 111111111111111112, 100000000000000000, 334336342360415⟩) :=
  ⟨by decide, ⟨by decide, rfl⟩, ⟨by decide, rfl⟩, ⟨by decide, rfl⟩, ⟨by decide, rfl⟩, ⟨by decide, rfl⟩⟩

/-- Section 5: S20 (exact in, short of the target, the greatest fee), S16 (exact out) and S18 (exact in, at the target,
no fee). -/
theorem witness_SwapStepConservesTheAmount :
    2 ^ 96 ≤ 2 ^ 160 - 1 ∧ 79623317895830914510639640423 ≤ 2 ^ 160 - 1 ∧ 2 * 10 ^ 18 ≤ 2 ^ 128 - 1 ∧ 999999 <
      1000000 ∧
    computeSwapStep (2 ^ 96) 79623317895830914510639640423 (2 * 10 ^ 18) (10 ^ 18) 999999 =
      .ok ⟨79228202128345594725712747107, 1000000000000, 999999500000, 999999000000000000⟩ ∧
    computeSwapStep (2 ^ 96) 79623317895830914510639640423 0 (-(10 ^ 18)) 3000 =
      .ok ⟨79623317895830914510639640423, 0, 0, 0⟩ ∧
    computeSwapStep (2 ^ 96) 79623317895830914510639640423 (2 * 10 ^ 18) (10 ^ 18) 0 =
      .ok ⟨79623317895830914510639640423, 9975124224178055, 9925619580021728, 0⟩ :=
  ⟨by decide, by decide, by decide, by decide, rfl, rfl, rfl⟩

/-- Section 5: S13, S15 and S17. -/
theorem witness_SwapStepCornerCases :
    operandsInWidth .swapstep (opnd [2 ^ 96, 2 ^ 96, 10 ^ 18, 10 ^ 18, 3000]) ∧
    operandsInWidth .swapstep (opnd [2 ^ 96, 79623317895830914510639640423, 0, 10 ^ 18, 3000]) ∧
    operandsInWidth .swapstep (opnd [2 ^ 96, 79623317895830914510639640423, 2 * 10 ^ 18, 0, 3000]) ∧
    (opnd [2 ^ 96, 2 ^ 96, 10 ^ 18, 10 ^ 18, 3000]).xUnsigned 0 ≠ 0 ∧
    (opnd [2 ^ 96, 2 ^ 96, 10 ^ 18, 10 ^ 18, 3000]).xUnsigned 0 =
      (opnd [2 ^ 96, 2 ^ 96, 10 ^ 18, 10 ^ 18, 3000]).xUnsigned 1 ∧
    (opnd [2 ^ 96, 79623317895830914510639640423, 0, 10 ^ 18, 3000]).xUnsigned 1 ≠ 0 ∧
    (opnd [2 ^ 96, 79623317895830914510639640423, 0, 10 ^ 18, 3000]).xUnsigned 2 = 0 ∧
    sint256 (opnd [2 ^ 96, 79623317895830914510639640423, 2 * 10 ^ 18, 0, 3000]).x[3] = 0 ∧
    (opnd [2 ^ 96, 79623317895830914510639640423, 2 * 10 ^ 18, 0, 3000]).xUnsigned 0 ≠ (opnd [2 ^ 96,
      79623317895830914510639640423, 2 * 10 ^ 18, 0, 3000]).xUnsigned 1 ∧
    (opnd [2 ^ 96, 79623317895830914510639640423, 2 * 10 ^ 18, 0, 3000]).xUnsigned 2 ≠ 0 := by
  simp only [operandsInWidth]; decide

/-- Section 5: S26, S25, S24 and S23; and the case of assumption log 12. -/
theorem witness_SwapStepOnZeroPrices :
    operandsInWidth .swapstep (opnd [0, 2 ^ 96, 10 ^ 18, 5, 600]) ∧
    operandsInWidth .swapstep (opnd [2 ^ 96, 0, 10 ^ 18, 5, 600]) ∧
    operandsInWidth .swapstep (opnd [2 ^ 96, 0, 10 ^ 18, 2 ^ 256 - 10 ^ 18, 3000]) ∧
    operandsInWidth .swapstep (opnd [2 ^ 96, 0, 10 ^ 18, 2 ^ 256 - 10 ^ 17, 3000]) ∧
    operandsInWidth .swapstep (opnd [2 ^ 96, 0, 2 ^ 100, 2 ^ 256 - (16 * 2 ^ 96 - 1), 3000]) ∧
    (opnd [0, 2 ^ 96, 10 ^ 18, 5, 600]).xUnsigned 0 = 0 ∧
    (opnd [2 ^ 96, 0, 10 ^ 18, 5, 600]).xUnsigned 1 = 0 ∧
    0 ≤ (sint256 (opnd [2 ^ 96, 0, 10 ^ 18, 5, 600]).x[3]) ∧
    (sint256 (opnd [2 ^ 96, 0, 10 ^ 18, 2 ^ 256 - 10 ^ 18, 3000]).x[3]) < 0 ∧
    (opnd [2 ^ 96, 0, 10 ^ 18, 2 ^ 256 - 10 ^ 18, 3000]).xUnsigned 2 * (opnd [2 ^ 96, 0, 10 ^ 18, 2 ^ 256 - 10 ^ 18,
      3000]).xUnsigned 0 / 2 ^ 96 ≤ (sint256 (opnd [2 ^ 96, 0, 10 ^ 18, 2 ^ 256 - 10 ^ 18, 3000]).x[3]).natAbs ∧
    (sint256 (opnd [2 ^ 96, 0, 10 ^ 18, 2 ^ 256 - 10 ^ 17, 3000]).x[3]) < 0 ∧
    (sint256 (opnd [2 ^ 96, 0, 10 ^ 18, 2 ^ 256 - 10 ^ 17, 3000]).x[3]).natAbs <
      (opnd [2 ^ 96, 0, 10 ^ 18, 2 ^ 256 - 10 ^ 17, 3000]).xUnsigned 2 * (opnd [2 ^ 96, 0, 10 ^ 18,
      2 ^ 256 - 10 ^ 17, 3000]).xUnsigned 0 / 2 ^ 96 ∧
    ceilDiv ((sint256 (opnd [2 ^ 96, 0, 10 ^ 18, 2 ^ 256 - 10 ^ 17, 3000]).x[3]).natAbs * 2 ^ 96) ((opnd [2 ^ 96, 0,
      10 ^ 18, 2 ^ 256 - 10 ^ 17, 3000]).xUnsigned 2) <
      (opnd [2 ^ 96, 0, 10 ^ 18, 2 ^ 256 - 10 ^ 17, 3000]).xUnsigned 0 ∧
    (sint256 (opnd [2 ^ 96, 0, 2 ^ 100, 2 ^ 256 - (16 * 2 ^ 96 - 1), 3000]).x[3]) < 0 ∧
    (sint256 (opnd [2 ^ 96, 0, 2 ^ 100, 2 ^ 256 - (16 * 2 ^ 96 - 1), 3000]).x[3]).natAbs <
      (opnd [2 ^ 96, 0, 2 ^ 100, 2 ^ 256 - (16 * 2 ^ 96 - 1), 3000]).xUnsigned 2 * (opnd [2 ^ 96, 0, 2 ^ 100,
      2 ^ 256 - (16 * 2 ^ 96 - 1), 3000]).xUnsigned 0 / 2 ^ 96 ∧
    (opnd [2 ^ 96, 0, 2 ^ 100, 2 ^ 256 - (16 * 2 ^ 96 - 1), 3000]).xUnsigned 0 ≤
      ceilDiv ((sint256 (opnd [2 ^ 96, 0, 2 ^ 100, 2 ^ 256 - (16 * 2 ^ 96 - 1), 3000]).x[3]).natAbs * 2 ^ 96)
      ((opnd [2 ^ 96, 0, 2 ^ 100, 2 ^ 256 - (16 * 2 ^ 96 - 1), 3000]).xUnsigned 2) := by
  simp only [operandsInWidth]; decide

/-- S13 of section 5, as an answer of `exec`. -/
theorem witness_SwapStepResultsAlwaysFit :
    exec .swapstep (opnd [2 ^ 96, 2 ^ 96, 10 ^ 18, 10 ^ 18, 3000]) =
      .next (succeeded (opnd [2 ^ 96, 2 ^ 96, 10 ^ 18, 10 ^ 18, 3000]) #v[word (2 ^ 96), 0, 0, 0]) := rfl

/-- Each clause at its ends. -/
theorem witness_SubIn256WrapsOnce :
    ((0 : Int) - 1 < 0) ∧
    (0 ≤ (5 : Int) - 5) ∧
    ((0 : Int) ≤ 0) ∧
    ((2 : Int) ^ 256 - 1 ≤ 2 ^ 256 - 1) ∧
    ((0 : Int) - (2 ^ 256 + 1) < -(2 ^ 256)) ∧
    ((2 : Int) ^ 256 ≤ 2 ^ 256 - 0) := by decide

/-- Liquidity on both sides of 128 bits. -/
theorem witness_TokOwedScalesTheGrowth :
    2 ^ 128 - 1 < (opnd [0, 0, 2 ^ 128, 1, 1]).xUnsigned 2 ∧
    (opnd [0, 0, 2 ^ 128 - 1]).xUnsigned 2 ≤ 2 ^ 128 - 1 := by decide

/-- `CLRF` clears a set `STICKY`; `RU` on `CLRF`'s word. -/
theorem witness_ClrfClearsTheFailureState :
    exec .clrf (failedWith State.reset .zero) = .next State.reset ∧
    (failedWith State.reset .zero).sticky = true ∧ State.reset.sticky = false ∧
    (0x10E#256).toNat % 2 ^ 8 = 0x0E ∧ (0x10E#256).toNat ≠ 0x0E := ⟨rfl, rfl, rfl, by decide, by decide⟩

theorem witness_FailureEntryWritesOnlyResultsAndStatus :
    execute 0x1 State.reset = .next (failedWith State.reset .zero) ∧
    execute 0x0 State.reset = .next (failedWith State.reset .illegal) := ⟨rfl, rfl⟩

/-- A success that is not `CLRF`, whose registers `Y[1..3]` the command does not name, and a failure. -/
theorem witness_CommandFrame :
    execute 0xB State.reset = .next State.reset ∧ State.reset.code = .ok ∧ decode 0xB = .ok .subin256 ∧
    Instr.subin256 ≠ .clrf ∧ Instr.subin256.resultCount ≤ (1 : Fin Config.ny).val ∧
    execute 0x1 State.reset = .next (failedWith State.reset .zero) := ⟨rfl, rfl, rfl, by decide, by decide, rfl⟩

/-- A failure, a success with `STICKY` set before it, and `CLRF`. -/
theorem witness_StickyFollowsEveryCommand :
    execute 0x1 State.reset = .next (failedWith State.reset .zero) ∧ (failedWith State.reset .zero).code ≠ .ok ∧
    execute 0xB { State.reset with sticky := true } = .next { State.reset with sticky := true } ∧
    decode 0xB = .ok .subin256 ∧ decode 0xE = .ok .clrf ∧
    execute 0xE { State.reset with sticky := true } = .next State.reset := ⟨rfl, by decide, rfl, rfl, rfl, rfl⟩

/-- Two states that differ in `X[1]`, which `MSB` does not read. -/
theorem witness_OutcomeDependsOnOperandsOnly :
    State.AgreeOnOperands .msb (opnd [0, 1]) (opnd [0, 2]) ∧
    exec .msb (opnd [0, 1]) = .next (failedWith (opnd [0, 1]) .zero) ∧
    exec .msb (opnd [0, 2]) = .next (failedWith (opnd [0, 2]) .zero) := by
  refine ⟨?_, rfl, rfl⟩
  intro k hk
  have h : k = 0 := Fin.ext (by simpa [Instr.operandCount] using hk)
  subst h
  rfl

/-- An operand too wide, and one at the bound. -/
theorem witness_OperandRaisedExactlyOnWidth :
    exec .adddelta (opnd [2 ^ 128]) = .next (failedWith (opnd [2 ^ 128]) .operand) ∧
    ¬ operandsInWidth .adddelta (opnd [2 ^ 128]) ∧
    exec .adddelta (opnd [2 ^ 128 - 1]) = .next (succeeded (opnd [2 ^ 128 - 1]) #v[word (2 ^ 128 - 1), 0, 0, 0]) ∧
    operandsInWidth .adddelta (opnd [2 ^ 128 - 1]) := by
  refine ⟨rfl, ?_, rfl, ?_⟩ <;> simp only [operandsInWidth] <;> decide

theorem witness_CausesAreRaisedOnlyWhereListed :
    exec .tick2sqrt (opnd [887273]) = .next (failedWith (opnd [887273]) .tick) ∧
    (failedWith (opnd [887273]) .tick).code = .failed .tick := ⟨rfl, rfl⟩

/-- A zero price with an oversized fee, and a zero denominator with an oversized product (section 7.3). -/
theorem witness_PriorityAmongCauses :
    (opnd [0, 0, 0, 0, 1000000]).xUnsigned 0 = 0 ∧
    (opnd [0, 0, 0, 0, 1000000]).xUnsigned 4 = 1000000 ∧
    (opnd [2 ^ 256 - 1, 2 ^ 256 - 1, 0]).xUnsigned 2 = 0 := by decide

/-- The first and the last index of every range of R51. -/
theorem witness_RegReadReturnsTheMap :
    (hostDoes [.regRead 25]).pending = .regRead 25 :: [] ∧ (0#5).toNat = (0 : Fin Config.nx).val ∧
    (8#5).toNat = (8 : Fin Config.nx).val ∧ (16#5).toNat = 16 + (0 : Fin Config.ny).val ∧
    (19#5).toNat = 16 + (3 : Fin Config.ny).val ∧ (25#5).toNat = 25 ∧ 9 ≤ (9#5).toNat ∧ (15#5).toNat < 16 ∧
    20 ≤ (20#5).toNat ∧ 20 ≤ (31#5).toNat ∧ (31#5).toNat ≠ 25 := by decide

/-- The first and the last operand index, `CMD`, and the indices a write has no effect on. -/
theorem witness_RegWriteStoresOrExecutes :
    (hostDoes [.regWrite 8 7]).pending = .regWrite 8 7 :: [] ∧ (0#5).toNat = (0 : Fin Config.nx).val ∧
    (8#5).toNat = (8 : Fin Config.nx).val ∧ (24#5).toNat = 24 ∧ 9 ≤ (9#5).toNat ∧ 9 ≤ (31#5).toNat ∧
    (31#5).toNat ≠ 24 := by decide

/-- A command, a read and a write of another register between the write and the read. -/
theorem witness_OperandReadsLatestWrite :
    (8#5).toNat < 9 ∧
    (hostDoes [.regWrite 8 7, .regWrite 24 1, .regRead 0, .regWrite 0 3, .regRead 8]).pending =
      .regWrite 8 7 :: ([.regWrite 24 1, .regRead 0, .regWrite 0 3] ++ .regRead 8 :: []) ∧
    (∀ ev ∈ ([.regWrite 24 1, .regRead 0, .regWrite 0 3] : List HostEvent), keepsOperand 8 ev = true) := by decide

/-- A read and an operand write between the command and the read of its results. -/
theorem witness_ResultsReadBackAfterCommand :
    (hostDoes [.regWrite 24 0xB, .regWrite 0 3, .regRead 0, .regRead 19]).pending =
      .regWrite 24 0xB :: ([.regWrite 0 3, .regRead 0] ++ .regRead 19 :: []) ∧
    (∀ ev ∈ ([.regWrite 0 3, .regRead 0] : List HostEvent), keepsResults ev = true) ∧
    execute 0xB State.reset = .next State.reset ∧ (16#5).toNat = 16 + (0 : Fin Config.ny).val ∧
    (19#5).toNat = 16 + (3 : Fin Config.ny).val ∧ (25#5).toNat = 25 := ⟨rfl, by decide, rfl, rfl, rfl, rfl⟩

theorem witness_ResetEventRestoresRegisters :
    (hostDoes [.reset, .regRead 0]).pending = .reset :: [.regRead 0] := rfl

/-- A failed command from a coherent state. -/
theorem witness_EveryStepKeepsCoherence :
    (hostDoes [.regWrite 24 1]).Coherent ∧
    step (hostDoes [.regWrite 24 1]) = .next (failedWith State.reset .zero) := ⟨fun h => absurd rfl h, rfl⟩

/-- Two commands, the first of which fails. -/
theorem witness_StickyAccumulatesFailures :
    (hostDoes [.regWrite 24 1, .regWrite 24 0xB]).sticky = false ∧
    2 ≤ (hostDoes [.regWrite 24 1, .regWrite 24 0xB]).pending.length ∧
    (∀ ev ∈ (hostDoes [.regWrite 24 1, .regWrite 24 0xB]).pending.take 2, clearsSticky ev = false) ∧
    runSteps 2 (hostDoes [.regWrite 24 1, .regWrite 24 0xB]) = .next { State.reset with sticky := true } :=
  ⟨rfl, by decide, by decide, rfl⟩

/-- The right number of operands, and a wrong one. -/
theorem witness_CallExpandsToWritesAndExec :
    [AsmInt.lit 6, .lit 7, .lit 4].length = Instr.muldivru.operandCount ∧
    [AsmInt.lit 6].length ≠ Instr.muldivru.operandCount ∧ ([] : List AsmInt).length =
      Instr.clrf.operandCount := by decide

end Sys2Proof.Tests
end

