-- ==== Sys2Proof/Proofs/StateFamily.lean ====
section
/-!
SUPPORT. Proofs/StateFamily.lean: what a command, a step and a run leave in the registers (`10_state.md` R20 to R29,
R59, R81). The layers, in order: the command sequence, the decoder's inversion, commands and written words, one event,
runs, coherence, the assembler's `CALL`; the statements settled from them stand last.
-/

namespace Sys2Proof.Machine

/-! ### The command sequence -/

section CommandSequence

/-- The outcome of the command sequence is a function of the verdict on the operands and the function's answer. -/
theorem State.runCommand_outcome_congr {s s' t t' : State} {checks : List OperandCheck}
    {f : Except Tag (List Component)} (hacc : s.operandsAccepted checks = s'.operandsAccepted checks)
    (h : s.runCommand checks f = .next t) (h' : s'.runCommand checks f = .next t') :
    t.y = t'.y ∧ t.code = t'.code := by
  rcases State.runCommand_cases h with ⟨ha, rfl⟩ | ⟨ha, tag, hf, rfl⟩ | ⟨ha, r, hf, hr, rfl⟩ | ⟨ha, r, hf, hr, rfl⟩
  · rw [State.runCommand_operand f (hacc ▸ ha)] at h'
    obtain rfl := Host.Outcome.next.inj h'
    exact ⟨rfl, rfl⟩
  · rw [State.runCommand_error (hacc ▸ ha) hf] at h'
    obtain rfl := Host.Outcome.next.inj h'
    exact ⟨rfl, rfl⟩
  · rw [State.runCommand_result (hacc ▸ ha) hf hr] at h'
    obtain rfl := Host.Outcome.next.inj h'
    exact ⟨rfl, rfl⟩
  · rw [State.runCommand_commit (hacc ▸ ha) hf hr] at h'
    obtain rfl := Host.Outcome.next.inj h'
    exact ⟨rfl, rfl⟩

/-- A result tuple writes 0 to every `Y` register past its end (R21). -/
theorem resultFile_eq_zero_of_length_le {r : List Component} {k : Fin Config.ny} (h : r.length ≤ k.val) :
    (resultFile r)[k] = 0 := by
  have hfile : (resultFile r)[k] = componentWord r k.val :=
    match k with
    | 0 | 1 | 2 | 3 => rfl
  rw [hfile, componentWord, List.getElem?_eq_none h]

theorem zeroResults_getElem (k : Fin Config.ny) : zeroResults[k] = 0 :=
  match k with
  | 0 | 1 | 2 | 3 => rfl

end CommandSequence

/-! ### The decoder, inverted -/

section Decoder

/-- Every test a word that decodes has passed (R75). -/
theorem decode_ok {v : Word} {i : Instr} (h : decode v = .ok i) :
    v.toNat < 2 ^ Config.cmdlen ∧ bitField v.toNat 31 10 = 0 ∧ bitField v.toNat 7 0 ≤ 0x0E ∧
    (bitField v.toNat 8 8 = 1 → bitField v.toNat 7 0 = 0x06 ∨ bitField v.toNat 7 0 = 0x07) ∧
    (bitField v.toNat 9 9 = 1 → bitField v.toNat 7 0 = 0x08 ∨ bitField v.toNat 7 0 = 0x09) ∧
    opcodeCommand (bitField v.toNat 7 0) (bitField v.toNat 8 8 == 1) (bitField v.toNat 9 9 == 1) = some i := by
  simp only [decode] at h
  split_ifs at h with hdata hreserved hopc hru hzfo
  split at h
  · rename_i j hj
    obtain rfl := Except.ok.inj h
    obtain ⟨-, hle⟩ := not_or.mp hopc
    exact ⟨not_le.mp hdata, not_not.mp hreserved, not_lt.mp hle, fun hb => by_contra fun hn => hru ⟨hb, hn⟩,
      fun hb => by_contra fun hn => hzfo ⟨hb, hn⟩, hj⟩
  · cases h

/-- The command an opcode selects has that opcode (R73). -/
theorem opcode_of_opcodeCommand {opc : Nat} {ru zfo : Bool} {i : Instr} (hle : opc ≤ 0x0E)
    (h : opcodeCommand opc ru zfo = some i) : i.opcode = opc := by
  interval_cases opc
  · cases h
  all_goals
    obtain rfl := Option.some.inj h
    rfl

/-- Only `CLRF`'s own word decodes to `CLRF` (R74, R250). -/
theorem eq_encode_of_decode_clrf {v : Word} (h : decode v = .ok .clrf) : v = encode .clrf := by
  obtain ⟨hdata, hreserved, hle, hru, hzfo, hcommand⟩ := decode_ok h
  have hopc : 0x0E = bitField v.toNat 7 0 := opcode_of_opcodeCommand hle hcommand
  apply BitVec.eq_of_toNat_eq
  show v.toNat = 0x0E
  simp only [bitField, Config.cmdlen] at hdata hreserved hru hzfo hopc
  omega

end Decoder

/-! ### Commands and written words -/

section Commands

/-- A command raises a cause, or is `CLRF`, or commits its function's value: what it can do, for proofs in which the
cause does not matter. -/
theorem exec_raise_clear_commit {i : Instr} {s t : State} (h : exec i s = .next t) :
    (i ≠ .clrf ∧ ∃ c, t = s.raise c) ∨ (i = .clrf ∧ t = s.clearFailure) ∨
    (i ≠ .clrf ∧ ∃ r, commandFunction i s = .ok r ∧ t = s.commit (resultFile r)) := by
  rcases exec_cases h with hclr | ⟨hi, -, ht⟩ | ⟨hi, -, ⟨tag, -, ht⟩ | ⟨r, -, -, ht⟩ | ⟨r, hr, -, ht⟩⟩
  · exact .inr (.inl hclr)
  · exact .inl ⟨hi, _, ht⟩
  · exact .inl ⟨hi, _, ht⟩
  · exact .inl ⟨hi, _, ht⟩
  · exact .inr (.inr ⟨hi, r, hr, ht⟩)

/-- Everything a write of `CMD` can do: it fails, it is `CLRF`, or it is another command that commits its results. -/
theorem execute_raise_clear_commit {v : Word} {s t : State} (h : execute v s = .next t) :
    (decode v ≠ .ok .clrf ∧ ∃ c, t = s.raise c) ∨ (decode v = .ok .clrf ∧ t = s.clearFailure) ∨
    (∃ i r, decode v = .ok i ∧ i ≠ .clrf ∧ commandFunction i s = .ok r ∧ t = s.commit (resultFile r)) := by
  cases hd : decode v with
  | error e =>
    rw [execute_illegal s hd] at h
    exact .inl ⟨nofun, _, (Host.Outcome.next.inj h).symm⟩
  | ok i =>
    rw [execute_legal s hd] at h
    rcases exec_raise_clear_commit h with ⟨hi, hraise⟩ | ⟨rfl, hclear⟩ | ⟨hi, r, hr, ht⟩
    · exact .inl ⟨fun heq => hi (Except.ok.inj heq), hraise⟩
    · exact .inr (.inl ⟨rfl, hclear⟩)
    · exact .inr (.inr ⟨i, r, rfl, hi, hr, ht⟩)

/-- Every command ends in a next state. -/
theorem exec_next (i : Instr) (s : State) : ∃ t, exec i s = .next t := by
  by_cases hi : i = .clrf
  · subst hi; exact ⟨_, exec_clrf s⟩
  · rw [exec_eq_runCommand hi]; exact State.runCommand_next ..

/-- Every write of `CMD` ends in a next state. -/
theorem execute_next (v : Word) (s : State) : ∃ t, execute v s = .next t := by
  cases hd : decode v with
  | error e => exact ⟨_, execute_illegal s hd⟩
  | ok i => rw [execute_legal s hd]; exact exec_next i s

/-- No write of `CMD` changes an operand register or the host's side of the port. -/
theorem execute_frame {v : Word} {s t : State} (h : execute v s = .next t) :
    t.x = s.x ∧ t.pending = s.pending ∧ t.reply = s.reply := by
  rcases execute_raise_clear_commit h with ⟨-, c, rfl⟩ | ⟨-, rfl⟩ | ⟨i, r, -, -, -, rfl⟩ <;> exact ⟨rfl, rfl, rfl⟩

/-- A function's value has one component for each `Y` register its command names (R22). -/
theorem commandFunction_length {i : Instr} {s : State} {r : List Component} (h : commandFunction i s = .ok r) :
    r.length = i.resultCount := by
  cases i with
  | msb | muldivru | tick2sqrt | sqrt2tick | amt0delta | amt1delta | nextpin | nextpout | swapstep =>
    obtain ⟨_, -, rfl⟩ := except_map_ok h
    rfl
  | adddelta | subin256 | feeinside | tokowed | clrf =>
    obtain rfl := Except.ok.inj h
    rfl

end Commands

/-! ### What a command reads -/

section Operands

theorem State.AgreeOnOperands.xUnsigned_eq {i : Instr} {s s' : State} (h : s.AgreeOnOperands i s')
    {k : Fin Config.nx} (hk : k.val < i.operandCount) : s.xUnsigned k = s'.xUnsigned k :=
  congrArg BitVec.toNat (h k hk)

theorem State.AgreeOnOperands.xSigned_eq {i : Instr} {s s' : State} (h : s.AgreeOnOperands i s')
    {k : Fin Config.nx} (hk : k.val < i.operandCount) : s.xSigned k = s'.xSigned k :=
  congrArg sint256 (h k hk)

/-- A command checks only registers it reads. -/
theorem commandChecks_reg_lt {i : Instr} {c : OperandCheck} (hc : c ∈ commandChecks i) :
    c.reg.val < i.operandCount := by
  have hall : ∀ c ∈ commandChecks i, c.reg.val < i.operandCount := by
    cases i <;> simp [commandChecks, priceOperand, liquidityOperand, feeOperand, Instr.operandCount, Config.nx]
  exact hall c hc

theorem State.AgreeOnOperands.operandsAccepted_eq {i : Instr} {s s' : State} (h : s.AgreeOnOperands i s') :
    s.operandsAccepted (commandChecks i) = s'.operandsAccepted (commandChecks i) := by
  rw [Bool.eq_iff_iff]
  simp only [State.operandsAccepted, List.all_eq_true]
  exact forall₂_congr fun c hc => by rw [h.xUnsigned_eq (commandChecks_reg_lt hc)]

/-- A command's function is one of the registers it reads (R22). -/
theorem State.AgreeOnOperands.commandFunction_eq {i : Instr} {s s' : State} (h : s.AgreeOnOperands i s') :
    commandFunction i s = commandFunction i s' := by
  cases i <;>
    simp (disch := (simp only [Instr.operandCount]; decide)) only [commandFunction, h.xUnsigned_eq, h.xSigned_eq]

/-- A command's outcome is a function of the registers it reads. -/
theorem State.AgreeOnOperands.exec_outcome_eq {i : Instr} {s s' t t' : State} (hs : s.AgreeOnOperands i s')
    (h : exec i s = .next t) (h' : exec i s' = .next t') : t.y = t'.y ∧ t.code = t'.code := by
  by_cases hi : i = .clrf
  · subst hi
    obtain rfl := Host.Outcome.next.inj h
    obtain rfl := Host.Outcome.next.inj h'
    exact ⟨rfl, rfl⟩
  · rw [exec_eq_runCommand hi] at h h'
    rw [← hs.commandFunction_eq] at h'
    exact State.runCommand_outcome_congr hs.operandsAccepted_eq h h'

/-- The outcome of a write of `CMD` is a function of its data and `X`. -/
theorem execute_outcome_eq_of_x_eq {v : Word} {s s' t t' : State} (hx : s.x = s'.x) (h : execute v s = .next t)
    (h' : execute v s' = .next t') : t.y = t'.y ∧ t.code = t'.code := by
  cases hd : decode v with
  | error e =>
    rw [execute_illegal _ hd] at h h'
    obtain rfl := Host.Outcome.next.inj h
    obtain rfl := Host.Outcome.next.inj h'
    exact ⟨rfl, rfl⟩
  | ok i =>
    rw [execute_legal _ hd] at h h'
    have hagree : s.AgreeOnOperands i s' := fun k _ => by rw [hx]
    exact hagree.exec_outcome_eq h h'

end Operands

/-! ### One event -/

section Events

/-- Every event ends in a next state. -/
theorem perform_next (ev : HostEvent) (s : State) : ∃ t, perform ev s = .next t := by
  cases ev with
  | regRead idx => exact ⟨_, perform_read idx s⟩
  | reset => exact ⟨_, perform_reset s⟩
  | regWrite idx v =>
    by_cases hidx : idx = cmdIndex
    · subst hidx; exact execute_next v s
    · exact ⟨_, perform_store v s hidx⟩

/-- Every step with an event pending ends in a next state. -/
theorem step_next_of_pending {s : State} {ev : HostEvent} {rest : List HostEvent} (hp : s.pending = ev :: rest) :
    ∃ t, step s = .next t := by
  rw [step_event hp]; exact perform_next ..

/-- Everything a step with `ev` pending can have done, by the kind of `ev`. -/
theorem step_event_cases {s t : State} {ev : HostEvent} {rest : List HostEvent} (hp : s.pending = ev :: rest)
    (h : step s = .next t) :
    (∃ idx, ev = .regRead idx ∧ t = (s.accept rest).answer (s.regRead idx)) ∨
    (∃ idx v, ev = .regWrite idx v ∧ idx ≠ cmdIndex ∧ t = (s.accept rest).storeRegister idx v) ∨
    (∃ v, ev = .regWrite cmdIndex v ∧ execute v (s.accept rest) = .next t) ∨
    (ev = .reset ∧ t = (s.accept rest).resetUnit) := by
  rcases step_cases h with ⟨hidle, -⟩ | ⟨ev', rest', hp', hdone⟩
  · rw [hp] at hidle; cases hidle
  · rw [hp] at hp'
    obtain ⟨rfl, rfl⟩ := List.cons.inj hp'
    exact hdone

/-- A step takes exactly the oldest event off the port. -/
theorem step_pending {s t : State} {ev : HostEvent} {rest : List HostEvent} (hp : s.pending = ev :: rest)
    (h : step s = .next t) : t.pending = rest := by
  rcases step_event_cases hp h with ⟨idx, -, rfl⟩ | ⟨idx, v, -, -, rfl⟩ | ⟨v, -, hv⟩ | ⟨-, rfl⟩
  · rfl
  · simp
  · obtain ⟨-, hpending, -⟩ := execute_frame hv
    exact hpending
  · rfl

/-- A write of one operand register leaves the others. -/
theorem State.storeRegister_x_of_ne (s : State) {idx idx' : RegIndex} (v : Word) (hidx : idx.toNat < Config.nx)
    (hne : idx' ≠ idx) : (s.storeRegister idx' v).x[idx.toNat] = s.x[idx.toNat] := by
  by_cases hidx' : idx'.toNat < Config.nx
  · have hnat : idx'.toNat ≠ idx.toNat := fun heq => hne (BitVec.eq_of_toNat_eq heq)
    simp [s.storeRegister_operand v hidx', hnat]
  · rw [s.storeRegister_dropped v hidx']

/-- An operand index is not `CMD`'s (R51). -/
theorem ne_cmdIndex_of_operand {idx : RegIndex} (hidx : idx.toNat < Config.nx) : idx ≠ cmdIndex := by
  rintro rfl
  exact absurd hidx (by decide)

/-- An event that neither resets the unit nor writes an operand register leaves it, whatever command it runs. -/
theorem step_keepsOperand {s t : State} {ev : HostEvent} {rest : List HostEvent} {idx : RegIndex}
    (hidx : idx.toNat < Config.nx) (hp : s.pending = ev :: rest) (hkeep : keepsOperand idx ev = true)
    (h : step s = .next t) : t.x[idx.toNat] = s.x[idx.toNat] := by
  rcases step_event_cases hp h with ⟨j, -, rfl⟩ | ⟨j, v, rfl, -, rfl⟩ | ⟨v, -, hv⟩ | ⟨rfl, -⟩
  · rfl
  · have hne : j ≠ idx := by simpa [keepsOperand] using hkeep
    exact (s.accept rest).storeRegister_x_of_ne v hidx hne
  · obtain ⟨hx, -, -⟩ := execute_frame hv
    rw [hx]; rfl
  · cases hkeep

/-- One event's part in R251: `STICKY` stays set, or is set by a command that fails. -/
theorem step_sticky_iff {s t : State} {ev : HostEvent} {rest : List HostEvent} (hp : s.pending = ev :: rest)
    (hkeep : clearsSticky ev = false) (h : step s = .next t) :
    t.sticky = true ↔ s.sticky = true ∨ (isCommand ev = true ∧ t.code ≠ .ok) := by
  rcases step_event_cases hp h with ⟨idx, rfl, rfl⟩ | ⟨idx, v, rfl, hne, rfl⟩ | ⟨v, rfl, hv⟩ | ⟨rfl, -⟩
  · simp [isCommand]
  · simp [isCommand, hne]
  · rcases execute_raise_clear_commit hv with ⟨-, c, rfl⟩ | ⟨hclrf, -⟩ | ⟨i, r, -, -, -, rfl⟩
    · simp [isCommand]
    · rw [eq_encode_of_decode_clrf hclrf] at hkeep
      exact absurd hkeep (by decide)
    · simp
  · cases hkeep

end Events

/-! ### Runs -/

section Runs

theorem runSteps_zero (s : State) : runSteps 0 s = .next s := rfl

/-- A run begins with its first step. -/
theorem runSteps_succ {s u : State} (k : Nat) (h : step s = .next u) : runSteps (k + 1) s = runSteps k u := by
  have hcore : Sys2Proof.core.step s = .next u := h
  simp only [runSteps, Host.Core.run, hcore]
  rfl

/-- A read behind events that keep an operand register answers what the register held before them (R59). -/
theorem runSteps_read_operand {idx : RegIndex} (hidx : idx.toNat < Config.nx) (evs rest : List HostEvent) (s : State)
    (hp : s.pending = evs ++ .regRead idx :: rest) (hkeep : ∀ ev ∈ evs, keepsOperand idx ev = true) :
    ∃ t, runSteps (evs.length + 1) s = .next t ∧ t.reply = some s.x[idx.toNat] ∧ t.pending = rest := by
  induction evs generalizing s with
  | nil =>
    have hread : step s = .next ((s.accept rest).answer (s.regRead idx)) := step_event hp
    refine ⟨_, runSteps_succ 0 hread, ?_, rfl⟩
    rw [State.answer_reply, s.regRead_operand hidx]
  | cons ev evs ih =>
    obtain ⟨hev, hevs⟩ := List.forall_mem_cons.mp hkeep
    obtain ⟨u, hu⟩ := step_next_of_pending hp
    obtain ⟨t, ht, hreply, hpt⟩ := ih u (step_pending hp hu) hevs
    refine ⟨t, ?_, ?_, hpt⟩
    · rw [List.length_cons, runSteps_succ _ hu, ht]
    · rw [hreply, step_keepsOperand hidx hp hev hu]

/-- One of the first `k` pending events of `s` is a command that leaves a failure code (R251). -/
def FailsWithin (k : Nat) (s : State) : Prop :=
  ∃ (j : Nat) (ev : HostEvent) (u : State), j < k ∧ s.pending[j]? = some ev ∧ isCommand ev = true ∧
    runSteps (j + 1) s = .next u ∧ u.code ≠ .ok

theorem not_failsWithin_zero (s : State) : ¬ FailsWithin 0 s := by
  rintro ⟨j, -, -, hj, -⟩
  exact Nat.not_lt_zero j hj

/-- The failing command of a run is its first event or one of the run behind it. -/
theorem failsWithin_succ {s u : State} {ev : HostEvent} {rest : List HostEvent} (k : Nat)
    (hp : s.pending = ev :: rest) (hu : step s = .next u) :
    FailsWithin (k + 1) s ↔ (isCommand ev = true ∧ u.code ≠ .ok) ∨ FailsWithin k u := by
  have hpu : u.pending = rest := step_pending hp hu
  constructor
  · rintro ⟨j, ev', w, hj, hev', hcmd, hw, hcode⟩
    rw [hp] at hev'
    rw [runSteps_succ j hu] at hw
    cases j with
    | zero =>
      obtain rfl := Option.some.inj hev'
      obtain rfl := Host.Outcome.next.inj hw
      exact .inl ⟨hcmd, hcode⟩
    | succ j =>
      rw [List.getElem?_cons_succ, ← hpu] at hev'
      exact .inr ⟨j, ev', w, Nat.lt_of_succ_lt_succ hj, hev', hcmd, hw, hcode⟩
  · rintro (⟨hcmd, hcode⟩ | ⟨j, ev', w, hj, hev', hcmd, hw, hcode⟩)
    · exact ⟨0, ev, u, Nat.succ_pos k, by rw [hp]; rfl, hcmd, runSteps_succ 0 hu, hcode⟩
    · refine ⟨j + 1, ev', w, Nat.succ_lt_succ hj, ?_, hcmd, ?_, hcode⟩
      · rw [hp, List.getElem?_cons_succ, ← hpu, hev']
      · rw [runSteps_succ (j + 1) hu, hw]

/-- R251 from any `STICKY`: after a run without `CLRF` or reset it is set when it was before or a command failed. -/
theorem runSteps_sticky_iff (k : Nat) (s t : State) (hk : k ≤ s.pending.length)
    (hkeep : ∀ ev ∈ s.pending.take k, clearsSticky ev = false) (h : runSteps k s = .next t) :
    t.sticky = true ↔ s.sticky = true ∨ FailsWithin k s := by
  induction k generalizing s with
  | zero =>
    obtain rfl := Host.Outcome.next.inj h
    simp [not_failsWithin_zero]
  | succ k ih =>
    obtain ⟨ev, rest, hp⟩ := List.exists_cons_of_length_pos (Nat.lt_of_lt_of_le (Nat.succ_pos k) hk)
    obtain ⟨u, hu⟩ := step_next_of_pending hp
    have hpu : u.pending = rest := step_pending hp hu
    rw [hp, List.take_succ_cons] at hkeep
    obtain ⟨hev, hrest⟩ := List.forall_mem_cons.mp hkeep
    rw [hp, List.length_cons, Nat.succ_le_succ_iff] at hk
    rw [runSteps_succ k hu] at h
    rw [ih u (hpu ▸ hk) (hpu ▸ hrest) h, step_sticky_iff hp hev hu, failsWithin_succ k hp hu, or_assoc]

end Runs

/-! ### Coherence -/

section Coherence

theorem State.coherent_of_code_ok {s : State} (h : s.code = .ok) : s.Coherent := fun hne => absurd h hne

/-- Coherence speaks of `Y`, `CODE` and `STICKY` only. -/
theorem State.Coherent.of_fields_eq {s t : State} (hs : s.Coherent) (hy : t.y = s.y) (hcode : t.code = s.code)
    (hsticky : t.sticky = s.sticky) : t.Coherent := by
  unfold State.Coherent
  rw [hy, hcode, hsticky]
  exact hs

/-- Failure entry is coherent from every state (R270). -/
theorem State.raise_coherent (s : State) (c : Cause) : (s.raise c).Coherent := fun _ => ⟨rfl, rfl⟩

/-- A write of `CMD` ends coherent from every state. -/
theorem execute_coherent {v : Word} {s t : State} (h : execute v s = .next t) : t.Coherent := by
  rcases execute_raise_clear_commit h with ⟨-, c, rfl⟩ | ⟨-, rfl⟩ | ⟨i, r, -, -, -, rfl⟩
  · exact s.raise_coherent c
  · exact State.coherent_of_code_ok rfl
  · exact State.coherent_of_code_ok rfl

theorem step_coherent {s t : State} (hs : s.Coherent) (h : step s = .next t) : t.Coherent := by
  rcases step_cases h with ⟨-, rfl⟩ | ⟨ev, rest, -, hdone⟩
  · exact hs
  rcases hdone with ⟨idx, -, rfl⟩ | ⟨idx, v, -, -, rfl⟩ | ⟨v, -, hv⟩ | ⟨-, rfl⟩
  · exact hs.of_fields_eq rfl rfl rfl
  · exact hs.of_fields_eq (by simp) (by simp) (by simp)
  · exact execute_coherent hv
  · exact State.coherent_of_code_ok rfl

end Coherence

/-! ### The assembler's `CALL` -/

section Assembler

/-- The `WR` statements `CALL` stands for (R81). -/
def callWrites (n : Nat) (args : List AsmInt) : List AsmStmt :=
  (args.zipIdx n).map fun p => .wr (Fin.ofNat 9 p.2) p.1

theorem assembleStmt_wr (n : Fin Config.nx) (e : AsmInt) :
    assembleStmt (.wr n e) = (asmWrite n.val e).map fun ev => [ev] := rfl

theorem assemble_exec (i : Instr) : assemble [.exec i] = some [.regWrite cmdIndex (encode i)] := rfl

theorem assembleStmt_call {i : Instr} {args : List AsmInt} (h : args.length = i.operandCount) :
    assembleStmt (.call i args) = (asmOperands 0 args).map fun evs => evs ++ [.regWrite cmdIndex (encode i)] := by
  simp [assembleStmt, AsmStmt.wellFormed, h]

theorem assembleStmt_call_refused {i : Instr} {args : List AsmInt} (h : args.length ≠ i.operandCount) :
    assembleStmt (.call i args) = none := by
  simp [assembleStmt, AsmStmt.wellFormed, h]

/-- `WR` statements before a program assemble to the operand writes before that program's events. -/
theorem assemble_callWrites (args : List AsmInt) (sts : List AsmStmt) (n : Nat) (hn : n + args.length ≤ Config.nx) :
    assemble (callWrites n args ++ sts) =
      (asmOperands n args).bind fun evs => (assemble sts).map fun rest => evs ++ rest := by
  induction args generalizing n with
  | nil => simp [callWrites, asmOperands]
  | cons e es ih =>
    have hindex : (Fin.ofNat 9 n : Fin Config.nx).val = n := Nat.mod_eq_of_lt (by
      simp only [List.length_cons, Config.nx] at hn; omega)
    have htail := ih (n + 1) (by rw [List.length_cons] at hn; omega)
    have hcons : callWrites n (e :: es) = .wr (Fin.ofNat 9 n) e :: callWrites (n + 1) es := rfl
    rw [hcons, List.cons_append, assemble, assembleStmt_wr, hindex, htail, asmOperands]
    cases asmWrite n e with
    | none => rfl
    | some ev => cases asmOperands (n + 1) es <;> cases assemble sts <;> rfl

theorem operandCount_le (i : Instr) : i.operandCount ≤ Config.nx := by
  cases i <;> simp [Instr.operandCount, Config.nx]

end Assembler

end Sys2Proof.Machine

namespace Sys2Proof.Proofs

open Sys2Proof.Machine

/-- Settles O52, from what one event leaves in `Y`, `CODE` and `STICKY`. -/
theorem everyStepKeepsCoherence : Obligations.EveryStepKeepsCoherence :=
  fun _ _ hs h => step_coherent hs h

/-- Settles O38: the three ways a write of `CMD` can end. -/
theorem commandFrame : Obligations.CommandFrame := by
  intro v s t h
  obtain ⟨hx, hpending, hreply⟩ := execute_frame h
  refine ⟨hx, hpending, hreply, fun hok => ?_⟩
  rcases execute_raise_clear_commit h with ⟨-, c, rfl⟩ | ⟨hd, rfl⟩ | ⟨i, r, hd, hi, hr, rfl⟩
  · cases hok
  · exact ⟨.clrf, hd, fun hne => absurd rfl hne, fun k _ => zeroResults_getElem k⟩
  · exact ⟨i, hd, fun _ => rfl, fun k hk => resultFile_eq_zero_of_length_le (commandFunction_length hr ▸ hk)⟩

/-- Settles O39: the three ways a write of `CMD` can end, and that its outcome is a function of its data and `X`. -/
theorem stickyFollowsEveryCommand : Obligations.StickyFollowsEveryCommand := by
  refine ⟨rfl, fun v s t h => ?_⟩
  have houtcome (b : Bool) (u : State) (hu : execute v { s with sticky := b } = .next u) :
      u.y = t.y ∧ u.code = t.code :=
    have hx : ({ s with sticky := b } : State).x = s.x := rfl
    execute_outcome_eq_of_x_eq hx hu h
  rcases execute_raise_clear_commit h with ⟨hd, c, rfl⟩ | ⟨hd, rfl⟩ | ⟨i, r, hd, hi, -, rfl⟩
  · exact ⟨fun _ => rfl, nofun, fun hclrf => absurd hclrf hd, houtcome⟩
  · exact ⟨fun hne => absurd rfl hne, fun _ hne => absurd hd hne, fun _ => rfl, houtcome⟩
  · exact ⟨fun hne => absurd rfl hne, fun _ _ => rfl, fun hclrf => absurd (Except.ok.inj (hd.symm.trans hclrf)) hi,
      houtcome⟩

/-- Settles O40. -/
theorem outcomeDependsOnOperandsOnly : Obligations.OutcomeDependsOnOperandsOnly :=
  fun _ _ _ _ _ hagree h h' => hagree.exec_outcome_eq h h'

/-- Settles O46: the write stores the value, the events between keep it, the read answers it. -/
theorem operandReadsLatestWrite : Obligations.OperandReadsLatestWrite := by
  intro s idx v evs rest hidx hp hkeep
  have hwrite : step s = .next ((s.accept (evs ++ .regRead idx :: rest)).storeRegister idx v) := by
    rw [step_event hp, perform_store v _ (ne_cmdIndex_of_operand hidx)]
  obtain ⟨t, ht, hreply, hpt⟩ := runSteps_read_operand hidx evs rest _ (step_pending hp hwrite) hkeep
  refine ⟨t, (runSteps_succ _ hwrite).trans ht, ?_, hpt⟩
  rw [hreply]
  simp [State.storeRegister_operand _ v hidx]

/-- Settles O54, by induction on the number of steps, from any value of `STICKY`. -/
theorem stickyAccumulatesFailures : Obligations.StickyAccumulatesFailures := by
  intro s t k hsticky hk hkeep h
  have hclear : ¬ s.sticky = true := Bool.eq_false_iff.mp hsticky
  exact (runSteps_sticky_iff k s t hk hkeep h).trans (or_iff_right hclear)

/-- Settles O55, by induction on the operands. -/
theorem callExpandsToWritesAndExec : Obligations.CallExpandsToWritesAndExec := by
  intro i args
  refine ⟨fun hlen => ?_, assembleStmt_call_refused⟩
  have hfit : 0 + args.length ≤ Config.nx := by rw [Nat.zero_add, hlen]; exact operandCount_le i
  have hwrites := assemble_callWrites args [.exec i] 0 hfit
  rw [assemble_exec] at hwrites
  rw [assembleStmt_call hlen, Option.map_eq_bind]
  exact hwrites.symm

/-- Settles O5: the write of index 24 executes its data, and a word that decodes runs its command. -/
theorem stepRunsTheDecodedCommand : Obligations.StepRunsTheDecodedCommand := by
  intro s v rest i hp hd _
  rw [step_event hp]
  exact execute_legal (s.accept rest) hd

end Sys2Proof.Proofs
end

section
/-!
SUPPORT. Proofs/MemoryFamily.lean: the port (`20_memory.md` R51 to R54, R59): what a read of each index answers, what a
write of each index does, and what stands in the result registers between a command and the read of its outcome. The
statements settled from them stand last.
-/

namespace Sys2Proof.Machine

/-! ### What each index reads -/

section Reads

theorem Code.number_le (c : Code) : c.number ≤ 8 := by
  cases c with
  | ok => decide
  | failed c => cases c <;> decide

/-- No bit of `CODE` and `STICKY` is lost in the 32 bits of `STATUS` (R25). -/
theorem State.statusWord_toNat (s : State) : s.statusWord.toNat = s.code.number + 16 * s.sticky.toNat := by
  have hcode := s.code.number_le
  have hsticky := s.sticky.toNat_le
  simp only [State.statusWord, BitVec.toNat_ofNat]
  omega

theorem State.regRead_eq_x (s : State) {idx : RegIndex} {k : Fin Config.nx} (h : idx.toNat = k.val) :
    s.regRead idx = s.x[k] := by
  rw [s.regRead_operand (h ▸ k.isLt)]
  simp only [h, Fin.getElem_fin]

theorem State.regRead_eq_y (s : State) {idx : RegIndex} {m : Fin Config.ny} (h : idx.toNat = 16 + m.val) :
    s.regRead idx = s.y[m] := by
  have hrange : 16 ≤ idx.toNat ∧ idx.toNat < 16 + Config.ny := by omega
  rw [s.regRead_result hrange]
  simp only [h, Nat.add_sub_cancel_left, Fin.getElem_fin]

/-- `STATUS` is read zero-extended to the width of the port (R52). -/
theorem State.regRead_status_toNat (s : State) {idx : RegIndex} (h : idx.toNat = 25) :
    (s.regRead idx).toNat = s.code.number + 16 * s.sticky.toNat := by
  obtain rfl : idx = statusIndex := BitVec.eq_of_toNat_eq h
  rw [s.regRead_status, ← s.statusWord_toNat]
  exact BitVec.toNat_setWidth_of_le (by decide)

/-- `CMD` and the reserved indices read 0 (R54). -/
theorem State.regRead_eq_zero (s : State) {idx : RegIndex} (hx : Config.nx ≤ idx.toNat)
    (hy : idx.toNat < 16 ∨ 16 + Config.ny ≤ idx.toNat) (hstatus : idx.toNat ≠ 25) : s.regRead idx = 0 := by
  have hne : idx ≠ statusIndex := fun heq => hstatus (congrArg BitVec.toNat heq)
  rw [State.regRead, dif_neg (by omega), dif_neg (by omega), if_neg hne]

/-- Past the operands, a read sees nothing but `Y`, `CODE` and `STICKY` (R52). -/
theorem State.regRead_congr {s t : State} {idx : RegIndex} (hidx : Config.nx ≤ idx.toNat) (hy : t.y = s.y)
    (hcode : t.code = s.code) (hsticky : t.sticky = s.sticky) : t.regRead idx = s.regRead idx := by
  have hx : ¬ idx.toNat < Config.nx := Nat.not_lt.mpr hidx
  simp only [State.regRead, State.statusWord, dif_neg hx, hy, hcode, hsticky]

end Reads

/-! ### What each index does on a write -/

section Writes

/-- A step on a write of any index but `CMD` (R53, R54). -/
theorem step_store {s : State} {idx : RegIndex} {v : Word} {rest : List HostEvent}
    (hp : s.pending = .regWrite idx v :: rest) (hidx : idx ≠ cmdIndex) :
    step s = .next ((s.accept rest).storeRegister idx v) := by
  rw [step_event hp, perform_store v _ hidx]

/-- A step on a write of `CMD` (R53). -/
theorem step_command {s : State} {v : Word} {rest : List HostEvent} (hp : s.pending = .regWrite cmdIndex v :: rest) :
    step s = execute v (s.accept rest) := by
  rw [step_event hp, perform_command]

end Writes

/-! ### A command does not look at the host's side of the port -/

section Port

theorem State.runCommand_accept {s t : State} {checks : List OperandCheck} {f : Except Tag (List Component)}
    (rest : List HostEvent) (h : s.runCommand checks f = .next t) :
    (s.accept rest).runCommand checks f = .next (t.accept rest) := by
  have hsame : (s.accept rest).operandsAccepted checks = s.operandsAccepted checks := rfl
  rcases State.runCommand_cases h with ⟨ha, rfl⟩ | ⟨ha, tag, hf, rfl⟩ | ⟨ha, r, hf, hr, rfl⟩ | ⟨ha, r, hf, hr, rfl⟩
  · exact State.runCommand_operand f (hsame.trans ha)
  · exact State.runCommand_error (hsame.trans ha) hf
  · exact State.runCommand_result (hsame.trans ha) hf hr
  · exact State.runCommand_commit (hsame.trans ha) hf hr

theorem exec_accept {i : Instr} {s t : State} (rest : List HostEvent) (h : exec i s = .next t) :
    exec i (s.accept rest) = .next (t.accept rest) := by
  by_cases hi : i = .clrf
  · subst hi
    obtain rfl := Host.Outcome.next.inj h
    rfl
  · have hagree : (s.accept rest).AgreeOnOperands i s := fun _ _ => rfl
    rw [exec_eq_runCommand hi] at h ⊢
    rw [hagree.commandFunction_eq]
    exact State.runCommand_accept rest h

/-- Taking an event off the port first does not change what a write of `CMD` does (logs 1 and 2). -/
theorem execute_accept {v : Word} {s t : State} (rest : List HostEvent) (h : execute v s = .next t) :
    execute v (s.accept rest) = .next (t.accept rest) := by
  cases hd : decode v with
  | error e =>
    rw [execute_illegal _ hd] at h ⊢
    obtain rfl := Host.Outcome.next.inj h
    rfl
  | ok i =>
    rw [execute_legal _ hd] at h ⊢
    exact exec_accept rest h

end Port

/-! ### The outcome stays until it is read -/

section Outcome

/-- An event that neither resets the unit nor runs a command leaves the command's outcome. -/
theorem step_keepsResults {s t : State} {ev : HostEvent} {rest : List HostEvent} (hp : s.pending = ev :: rest)
    (hkeep : keepsResults ev = true) (h : step s = .next t) :
    t.y = s.y ∧ t.code = s.code ∧ t.sticky = s.sticky := by
  rcases step_event_cases hp h with ⟨idx, -, rfl⟩ | ⟨idx, v, -, -, rfl⟩ | ⟨v, rfl, -⟩ | ⟨rfl, -⟩
  · exact ⟨rfl, rfl, rfl⟩
  · simp
  · cases hkeep
  · cases hkeep

/-- A read behind events that keep the outcome of the latest command answers what the register held before them
(R59). -/
theorem runSteps_read_outcome {idx : RegIndex} (evs rest : List HostEvent) (s : State)
    (hp : s.pending = evs ++ .regRead idx :: rest) (hkeep : ∀ ev ∈ evs, keepsResults ev = true) :
    ∃ t, runSteps (evs.length + 1) s = .next t ∧ t.pending = rest ∧
      (Config.nx ≤ idx.toNat → t.reply = some (s.regRead idx)) := by
  induction evs generalizing s with
  | nil => exact ⟨_, runSteps_succ 0 (step_event hp), rfl, fun _ => rfl⟩
  | cons ev evs ih =>
    obtain ⟨hev, hevs⟩ := List.forall_mem_cons.mp hkeep
    obtain ⟨u, hu⟩ := step_next_of_pending hp
    obtain ⟨hy, hcode, hsticky⟩ := step_keepsResults hp hev hu
    obtain ⟨t, ht, hpt, hreply⟩ := ih u (step_pending hp hu) hevs
    refine ⟨t, (runSteps_succ _ hu).trans ht, hpt, fun hidx => ?_⟩
    rw [hreply hidx, State.regRead_congr hidx hy hcode hsticky]

end Outcome

end Sys2Proof.Machine

namespace Sys2Proof.Proofs

open Sys2Proof.Machine

/-- Settles O47: the command leaves its outcome whatever is pending, the events between keep it, the read answers
it. -/
theorem resultsReadBackAfterCommand : Obligations.ResultsReadBackAfterCommand := by
  intro s u v idx evs rest hp hkeep hu
  have hcommand : step s = .next (u.accept (evs ++ .regRead idx :: rest)) :=
    (step_command hp).trans (execute_accept _ hu)
  obtain ⟨t, ht, hpt, hreply⟩ := runSteps_read_outcome evs rest _ (step_pending hp hcommand) hkeep
  have hread (h : 16 ≤ idx.toNat) := hreply (Nat.le_trans (by decide) h)
  refine ⟨t, (runSteps_succ _ hcommand).trans ht, hpt, fun m hm => ?_, fun hstatus => ?_⟩
  · rw [hread (by omega), State.regRead_eq_y _ hm, State.accept_y]
  · exact ⟨_, hread (by omega), State.regRead_status_toNat _ hstatus⟩

/-- Settles O44: the register map, range by range. -/
theorem regReadReturnsTheMap : Obligations.RegReadReturnsTheMap := by
  intro s idx rest hp
  exact ⟨s.regRead idx, step_event hp, fun _ hk => s.regRead_eq_x hk, fun _ hm => s.regRead_eq_y hm,
    s.regRead_status_toNat, s.regRead_eq_zero⟩

/-- Settles O45: an operand index, `CMD`, and every other index. -/
theorem regWriteStoresOrExecutes : Obligations.RegWriteStoresOrExecutes := by
  intro s idx v rest hp
  refine ⟨fun k hk => ?_, fun hcmd => ?_, fun hx hcmd => ?_⟩
  · have hidx : idx.toNat < Config.nx := hk ▸ k.isLt
    rw [step_store hp (ne_cmdIndex_of_operand hidx), State.storeRegister_operand _ v hidx]
    simp only [hk]
    rfl
  · obtain rfl : idx = cmdIndex := BitVec.eq_of_toNat_eq hcmd
    exact step_command hp
  · have hne : idx ≠ cmdIndex := fun heq => hcmd (congrArg BitVec.toNat heq)
    rw [step_store hp hne, State.storeRegister_dropped _ v (Nat.not_lt.mpr hx)]
    rfl

end Sys2Proof.Proofs
end

