-- ==== Sys2Proof/Proofs/EncodingFamily.lean ====
section
/-!
SUPPORT. Proofs/EncodingFamily.lean: which write data is a command (`30_encoding.md` R70 to R78). The layers, in order:
the decoder and the encoder as inverses, the eighteen words, the four ways to be illegal, the match and mask table; the
statements settled from them stand last.
-/

namespace Sys2Proof.Machine

/-! ### Decoder and encoder -/

section Inverse

theorem decode_encode (i : Instr) : decode (encode i) = .ok i :=
  match i with
  | .msb | .muldivru | .adddelta | .tick2sqrt | .sqrt2tick | .swapstep | .subin256 | .feeinside | .tokowed
  | .clrf => rfl
  | .amt0delta true | .amt0delta false | .amt1delta true | .amt1delta false => rfl
  | .nextpin true | .nextpin false | .nextpout true | .nextpout false => rfl

theorem opcode_le (i : Instr) : i.opcode ≤ 0x0E := by
  cases i <;> simp [Instr.opcode]

/-- The encoding's number is the sum of its fields: nothing is lost to the width of the write data. -/
theorem encode_toNat (i : Instr) :
    (encode i).toNat = i.opcode + 2 ^ 8 * i.ruBit.toNat + 2 ^ 9 * i.zfoBit.toNat := by
  have hopc := opcode_le i
  have hru := i.ruBit.toNat_lt
  have hzfo := i.zfoBit.toNat_lt
  have hfields : i.opcode + 2 ^ 8 * i.ruBit.toNat + 2 ^ 9 * i.zfoBit.toNat < 2 ^ 10 := by omega
  exact Nat.mod_eq_of_lt (hfields.trans (by decide))

/-- The command selected by an opcode with legal mode bits carries those bits (R73). -/
theorem modeBits_of_opcodeCommand {opc : Nat} {ru zfo : Bool} {i : Instr} (hle : opc ≤ 0x0E)
    (hru : ru = true → opc = 0x06 ∨ opc = 0x07) (hzfo : zfo = true → opc = 0x08 ∨ opc = 0x09)
    (h : opcodeCommand opc ru zfo = some i) : i.ruBit = ru ∧ i.zfoBit = zfo := by
  interval_cases opc
  · cases h
  all_goals
    obtain rfl := Option.some.inj h
    simp_all [Instr.ruBit, Instr.zfoBit]

/-- A slice of one bit, read as a Boolean and back. -/
theorem toNat_bitField_beq_one (w k : Nat) : (bitField w k k == 1).toNat = bitField w k k := by
  have hlt : bitField w k k < 2 := by simpa [bitField] using Nat.mod_lt _ (by decide : 0 < 2)
  interval_cases bitField w k k <;> rfl

/-- A 32-bit word with `RSV` zero is the sum of its other three fields (R70). -/
theorem eq_sum_of_fields {w : Nat} (hdata : w < 2 ^ Config.cmdlen) (hreserved : bitField w 31 10 = 0) :
    w = bitField w 7 0 + 2 ^ 8 * bitField w 8 8 + 2 ^ 9 * bitField w 9 9 := by
  simp only [bitField, Config.cmdlen] at hdata hreserved ⊢
  omega

/-- A word that decodes is the encoding of its command: the tests of R75 leave no field free. -/
theorem eq_encode_of_decode {v : Word} {i : Instr} (h : decode v = .ok i) : v = encode i := by
  obtain ⟨hdata, hreserved, hle, hru, hzfo, hcommand⟩ := decode_ok h
  have hopc := opcode_of_opcodeCommand hle hcommand
  obtain ⟨hruBit, hzfoBit⟩ := modeBits_of_opcodeCommand hle (fun hb => hru (eq_of_beq hb))
    (fun hb => hzfo (eq_of_beq hb)) hcommand
  apply BitVec.eq_of_toNat_eq
  rw [encode_toNat, hopc, hruBit, hzfoBit, toNat_bitField_beq_one, toNat_bitField_beq_one]
  exact eq_sum_of_fields hdata hreserved

theorem decode_eq_ok_iff {v : Word} {i : Instr} : decode v = .ok i ↔ v = encode i :=
  ⟨eq_encode_of_decode, fun h => h ▸ decode_encode i⟩

theorem wellFormed_eq_true (i : Instr) : i.wellFormed = true := by
  cases i <;> rfl

end Inverse

/-! ### The eighteen words -/

section Words

/-- The legal words with the commands they are (R74). -/
def legalWords : List (Nat × Instr) :=
  [(0x1, .msb), (0x2, .muldivru), (0x3, .adddelta), (0x4, .tick2sqrt), (0x5, .sqrt2tick),
    (0x6, .amt0delta false), (0x106, .amt0delta true), (0x7, .amt1delta false), (0x107, .amt1delta true),
    (0x8, .nextpin false), (0x208, .nextpin true), (0x9, .nextpout false), (0x209, .nextpout true),
    (0xA, .swapstep), (0xB, .subin256), (0xC, .feeinside), (0xD, .tokowed), (0xE, .clrf)]

theorem encode_of_mem_legalWords : ∀ p ∈ legalWords, encode p.2 = word p.1 := by decide

theorem mem_legalWords (i : Instr) : ((encode i).toNat, i) ∈ legalWords :=
  match i with
  | .msb | .muldivru | .adddelta | .tick2sqrt | .sqrt2tick | .swapstep | .subin256 | .feeinside | .tokowed
  | .clrf => by decide
  | .amt0delta true | .amt0delta false | .amt1delta true | .amt1delta false => by decide
  | .nextpin true | .nextpin false | .nextpout true | .nextpout false => by decide

theorem exists_decode_iff_mem_legalWords {v : Word} :
    (∃ i, decode v = .ok i) ↔ v.toNat ∈ legalWords.map Prod.fst := by
  constructor
  · rintro ⟨i, hi⟩
    rw [eq_encode_of_decode hi]
    exact List.mem_map_of_mem (mem_legalWords i)
  · intro h
    obtain ⟨⟨w, i⟩, hp, hw⟩ := List.mem_map.mp h
    refine ⟨i, decode_eq_ok_iff.mpr ?_⟩
    rw [encode_of_mem_legalWords _ hp, word, hw, BitVec.ofNat_toNat, BitVec.setWidth_eq]

end Words

/-! ### The four ways to be illegal -/

section Illegal

/-- The four ways of R78 in which a word is illegal, on the fields of its number. -/
def IllegalWord (w : Nat) : Prop :=
  w / 2 ^ 32 ≠ 0 ∨ w / 2 ^ 10 % 2 ^ 22 ≠ 0 ∨ w % 2 ^ 8 = 0 ∨ 0x0F ≤ w % 2 ^ 8 ∨
    (w / 2 ^ 8 % 2 = 1 ∧ w % 2 ^ 8 ≠ 0x06 ∧ w % 2 ^ 8 ≠ 0x07) ∨
    (w / 2 ^ 9 % 2 = 1 ∧ w % 2 ^ 8 ≠ 0x08 ∧ w % 2 ^ 8 ≠ 0x09)

theorem not_illegalWord_of_mem_legalWords : ∀ w ∈ legalWords.map Prod.fst, ¬ IllegalWord w := by
  unfold IllegalWord
  decide

/-- Every opcode from 0x01 to 0x0E selects a command (R73). -/
theorem exists_opcodeCommand {opc : Nat} (ru zfo : Bool) (hpos : opc ≠ 0) (hle : opc ≤ 0x0E) :
    ∃ i, opcodeCommand opc ru zfo = some i := by
  interval_cases opc
  · contradiction
  all_goals exact ⟨_, rfl⟩

/-- The converse of `decode_ok`: a word that passes every test of R75 decodes to the command its opcode selects. -/
theorem decode_eq_ok_of_fields {v : Word} {i : Instr} (hdata : v.toNat < 2 ^ Config.cmdlen)
    (hreserved : bitField v.toNat 31 10 = 0) (hpos : bitField v.toNat 7 0 ≠ 0) (hle : bitField v.toNat 7 0 ≤ 0x0E)
    (hru : bitField v.toNat 8 8 = 1 → bitField v.toNat 7 0 = 0x06 ∨ bitField v.toNat 7 0 = 0x07)
    (hzfo : bitField v.toNat 9 9 = 1 → bitField v.toNat 7 0 = 0x08 ∨ bitField v.toNat 7 0 = 0x09)
    (hcommand :
      opcodeCommand (bitField v.toNat 7 0) (bitField v.toNat 8 8 == 1) (bitField v.toNat 9 9 == 1) = some i) :
    decode v = .ok i := by
  simp only [decode]
  rw [if_neg (not_le.mpr hdata), if_neg (not_not.mpr hreserved), if_neg (not_or.mpr ⟨hpos, not_lt.mpr hle⟩),
    if_neg (fun hstray => hstray.2 (hru hstray.1)), if_neg (fun hstray => hstray.2 (hzfo hstray.1)), hcommand]

/-- A word that is illegal in none of the four ways passes every test of R75. -/
theorem exists_decode_of_not_illegalWord {v : Word} (h : ¬ IllegalWord v.toNat) : ∃ i, decode v = .ok i := by
  simp only [IllegalWord, not_or] at h
  obtain ⟨hdata, hreserved, hpos, hle, hru, hzfo⟩ := h
  have hopc : bitField v.toNat 7 0 = v.toNat % 2 ^ 8 := by simp [bitField]
  obtain ⟨i, hi⟩ := exists_opcodeCommand (bitField v.toNat 8 8 == 1) (bitField v.toNat 9 9 == 1) (hopc ▸ hpos)
    (by omega)
  refine ⟨i, decode_eq_ok_of_fields ?_ ?_ (hopc ▸ hpos) ?_ ?_ ?_ hi⟩ <;>
    simp only [bitField, Config.cmdlen] at hopc ⊢ <;> omega

/-- The decoder refuses exactly the words that are illegal in one of the four ways (R75, R78). -/
theorem exists_decode_iff_not_illegalWord {v : Word} : (∃ i, decode v = .ok i) ↔ ¬ IllegalWord v.toNat :=
  ⟨fun h => not_illegalWord_of_mem_legalWords _ (exists_decode_iff_mem_legalWords.mp h),
    exists_decode_of_not_illegalWord⟩

theorem execute_of_illegalWord {v : Word} (s : State) (h : IllegalWord v.toNat) :
    execute v s = .next (failedWith s .illegal) := by
  cases hd : decode v with
  | ok i => exact absurd h (exists_decode_iff_not_illegalWord.mp ⟨i, hd⟩)
  | error e => exact execute_illegal s hd

end Illegal

/-! ### The match and mask table -/

section Table

/-- The laws made command by command, together. -/
theorem encodeSelectsTableRow (i : Instr) : Laws.EncodeSelectsTableRow.Statement i :=
  match i with
  | .msb => Laws.EncodeSelectsTableRow.msb
  | .muldivru => Laws.EncodeSelectsTableRow.muldivru
  | .adddelta => Laws.EncodeSelectsTableRow.adddelta
  | .tick2sqrt => Laws.EncodeSelectsTableRow.tick2sqrt
  | .sqrt2tick => Laws.EncodeSelectsTableRow.sqrt2tick
  | .amt0delta b => Laws.EncodeSelectsTableRow.amt0delta b
  | .amt1delta b => Laws.EncodeSelectsTableRow.amt1delta b
  | .nextpin b => Laws.EncodeSelectsTableRow.nextpin b
  | .nextpout b => Laws.EncodeSelectsTableRow.nextpout b
  | .swapstep => Laws.EncodeSelectsTableRow.swapstep
  | .subin256 => Laws.EncodeSelectsTableRow.subin256
  | .feeinside => Laws.EncodeSelectsTableRow.feeinside
  | .tokowed => Laws.EncodeSelectsTableRow.tokowed
  | .clrf => Laws.EncodeSelectsTableRow.clrf

theorem legalCommandWord_iff {v : Word} : legalCommandWord v = true ↔
    v.toNat < 2 ^ 32 ∧ ∃ row ∈ opcodeTable, v.toNat &&& row.mask = row.pattern := by
  simp [legalCommandWord, TableRow.selects, Config.cmdlen]

/-- A mask that leaves at most bit `k` of a 32-bit word unread: the word is the pattern, or the pattern with that bit
set. -/
theorem eq_or_eq_of_and_mask {w m p k : Nat} (hw : w < 2 ^ 32) (hm : m ||| 2 ^ k = 2 ^ 32 - 1) (h : w &&& m = p) :
    w = p ∨ w = p ||| 2 ^ k := by
  have hsplit : w = p ||| (w.testBit k).toNat * 2 ^ k :=
    calc w = w &&& (2 ^ 32 - 1) := by rw [Nat.and_two_pow_sub_one_eq_mod, Nat.mod_eq_of_lt hw]
      _ = p ||| (w.testBit k).toNat * 2 ^ k := by rw [← hm, Nat.and_or_distrib_left, h, Nat.and_two_pow]
  cases hbit : w.testBit k with
  | false => left; simpa [hbit] using hsplit
  | true => right; simpa [hbit] using hsplit

/-- A row of the table reads all 32 bits, or leaves one mode bit unread (`RU` or `ZFO`), and then both values of that
bit are legal (R74). -/
theorem mask_of_mem_opcodeTable : ∀ row ∈ opcodeTable,
    row.mask = 2 ^ 32 - 1 ∧ row.pattern ∈ legalWords.map Prod.fst ∨
    ∃ k ∈ [8, 9], row.mask ||| 2 ^ k = 2 ^ 32 - 1 ∧ row.pattern ∈ legalWords.map Prod.fst ∧
      row.pattern ||| 2 ^ k ∈ legalWords.map Prod.fst := by decide

/-- A 32-bit word that selects a row of the table is one of the eighteen. -/
theorem mem_legalWords_of_selects {w : Nat} {row : TableRow} (hw : w < 2 ^ 32) (hrow : row ∈ opcodeTable)
    (h : w &&& row.mask = row.pattern) : w ∈ legalWords.map Prod.fst := by
  rcases mask_of_mem_opcodeTable row hrow with ⟨hm, hp⟩ | ⟨k, -, hm, hp, hpk⟩
  · rw [hm, Nat.and_two_pow_sub_one_eq_mod, Nat.mod_eq_of_lt hw] at h
    exact h ▸ hp
  · rcases eq_or_eq_of_and_mask hw hm h with hword | hword
    · exact hword ▸ hp
    · exact hword ▸ hpk

theorem exists_decode_iff_selects {v : Word} : (∃ i, decode v = .ok i) ↔
    v.toNat < 2 ^ 32 ∧ ∃ row ∈ opcodeTable, v.toNat &&& row.mask = row.pattern := by
  constructor
  · rintro ⟨i, hi⟩
    rw [eq_encode_of_decode hi]
    obtain ⟨-, hlegal, -⟩ := encodeSelectsTableRow i
    exact legalCommandWord_iff.mp hlegal
  · rintro ⟨hw, row, hrow, h⟩
    exact exists_decode_iff_mem_legalWords.mpr (mem_legalWords_of_selects hw hrow h)

/-- Every mask reads all of `OPC`, and a pattern sets no other bit. -/
theorem opcode_mask_of_mem_opcodeTable : ∀ row ∈ opcodeTable,
    row.mask &&& 0xFF = 0xFF ∧ row.pattern &&& 0xFF = row.pattern := by decide

/-- A word that selects a row has that row's pattern as its `OPC`. -/
theorem and_opcode_of_selects {w : Nat} {row : TableRow} (hrow : row ∈ opcodeTable)
    (h : w &&& row.mask = row.pattern) : w &&& 0xFF = row.pattern := by
  obtain ⟨hm, hp⟩ := opcode_mask_of_mem_opcodeTable row hrow
  rw [← hm, ← Nat.and_assoc, h, hp]

/-- No word selects two rows: their opcodes differ. -/
theorem opcodeTable_pairwise_disjoint (w : Nat) : opcodeTable.Pairwise fun a b =>
    ¬ (w &&& a.mask = a.pattern ∧ w &&& b.mask = b.pattern) := by
  have hdistinct : opcodeTable.Pairwise fun a b => a.pattern ≠ b.pattern := by decide
  refine hdistinct.imp_of_mem fun ha hb hne hboth => hne ?_
  obtain ⟨hselA, hselB⟩ := hboth
  exact (and_opcode_of_selects ha hselA).symm.trans (and_opcode_of_selects hb hselB)

end Table

end Sys2Proof.Machine

namespace Sys2Proof.Proofs

open Sys2Proof.Machine

/-- Settles O1: the tests of R75 leave a word only the fields of its command's encoding. -/
theorem decodeExactlyInvertsEncode : Obligations.DecodeExactlyInvertsEncode :=
  fun _ i => (and_iff_right (wellFormed_eq_true i)).trans decode_eq_ok_iff

/-- Settles O2: the eighteen words are the encodings, and a mask leaves at most the mode bit of its command unread. -/
theorem legalWordsAreTheEighteen : Obligations.LegalWordsAreTheEighteen := by
  refine ⟨fun p hp => ?_, fun _ => exists_decode_iff_mem_legalWords, fun _ => exists_decode_iff_selects,
    fun w _ => opcodeTable_pairwise_disjoint w⟩
  rw [← encode_of_mem_legalWords p hp]
  exact ⟨decode_encode p.2, rfl⟩

/-- Settles O3: the decoder refuses exactly the four ways, and a refused word enters the failure state. -/
theorem illegalWordRunsNoOperation : Obligations.IllegalWordRunsNoOperation :=
  ⟨rfl, fun s _ => ⟨execute_of_illegalWord s, exists_decode_of_not_illegalWord⟩⟩

/-- Settles O4: six of the words are encodings; the last one has `RU` set beside the opcode of `MSB`. -/
theorem specWordsDecode : Obligations.SpecWordsDecode :=
  ⟨decode_encode .msb, decode_encode (.amt0delta true), decode_encode (.nextpin false),
    decode_encode (.nextpout true), decode_encode .swapstep, decode_encode .clrf, rfl⟩

end Sys2Proof.Proofs
end

