-- ==== Sys2Proof/Proofs/ArithmeticFamily.lean ====
section
/-!
SUPPORT. Proofs/ArithmeticFamily.lean: the rounding-up division as a ceiling and the signed view of a register
(`40_arithmetic_primitives.md` R104, R106). The statements settled from them stand last.
-/

namespace Sys2Proof.Machine

/-! ### The ceiling of a quotient -/

section Ceiling

/-- A multiple of `d` that reaches `n` and passes it by less than `d` has the formula's value as its factor. -/
theorem eq_ceilDiv_of_bounds {n d r : Nat} (hle : n ≤ r * d) (hlt : r * d < n + d) : r = ceilDiv n d := by
  have hsucc : (r + 1) * d = r * d + d := Nat.succ_mul r d
  exact (Nat.div_eq_of_lt_le (by omega) (by omega)).symm

/-- The rounding-up division is the formula of R106. -/
theorem mulDivRoundingUp_eq_ceilDiv (a b : Nat) {d : Nat} (hd : 0 < d) :
    mulDivRoundingUp a b d = .ok (ceilDiv (a * b) d) := by
  have hvalue := mulDivRoundingUp_pos a b hd
  obtain ⟨-, hle, hlt⟩ := mulDivRoundingUp_bounds hvalue
  rw [hvalue, eq_ceilDiv_of_bounds hle hlt]

/-- The formula steps past the rounded-down quotient exactly on a remainder. -/
theorem ceilDiv_eq_ite (n : Nat) {d : Nat} (hd : 0 < d) :
    ceilDiv n d = if n % d ≠ 0 then n / d + 1 else n / d := by
  have hvalue := mulDivRoundingUp_pos n 1 hd
  rw [mulDivRoundingUp_eq_ceilDiv n 1 hd, Nat.mul_one] at hvalue
  exact Except.ok.inj hvalue

theorem le_ceilDiv_mul (n : Nat) {d : Nat} (hd : 0 < d) : n ≤ ceilDiv n d * d := by
  obtain ⟨-, hle, -⟩ := mulDivRoundingUp_bounds (mulDivRoundingUp_eq_ceilDiv n 1 hd)
  simpa using hle

theorem ceilDiv_mul_lt (n : Nat) {d : Nat} (hd : 0 < d) : ceilDiv n d * d < n + d := by
  obtain ⟨-, -, hlt⟩ := mulDivRoundingUp_bounds (mulDivRoundingUp_eq_ceilDiv n 1 hd)
  simpa using hlt

/-- The formula in natural numbers is the ceiling of the rational quotient. -/
theorem ceil_div_eq_ceilDiv (n : Nat) {d : Nat} (hd : 0 < d) : ⌈(n : ℚ) / d⌉ = (ceilDiv n d : Int) := by
  have hdq : (0 : ℚ) < d := Nat.cast_pos.mpr hd
  have hle : (n : ℚ) ≤ ceilDiv n d * d := mod_cast le_ceilDiv_mul n hd
  have hlt : (ceilDiv n d * d : ℚ) < n + d := mod_cast ceilDiv_mul_lt n hd
  rw [Int.ceil_eq_iff, Int.cast_natCast, lt_div_iff₀ hdq, div_le_iff₀ hdq, sub_one_mul]
  exact ⟨sub_lt_iff_lt_add.mpr hlt, hle⟩

end Ceiling

/-! ### The signed view -/

section Signed

/-- The signed view of R104 is two's complement. -/
theorem sint256_eq_toInt (w : Word) : sint256 w = w.toInt := by
  rw [BitVec.toInt_eq_toNat_cond]
  simp only [sint256, Config.xlen, q256]
  split_ifs <;> omega

/-- Adding `2^256` to a negative value does not change the word it is written as. -/
theorem enc256_eq_ofInt (v : Int) : enc256 v = BitVec.ofInt 256 v := by
  unfold enc256
  split
  · rfl
  · apply BitVec.eq_of_toNat_eq
    simp only [BitVec.toNat_ofInt, Config.xlen, q256]
    omega

theorem enc256_sint256 (w : Word) : enc256 (sint256 w) = w := by
  rw [sint256_eq_toInt, enc256_eq_ofInt]
  exact BitVec.ofInt_toInt

theorem sint256_enc256 {v : Int} (hlo : -(2 ^ 255) ≤ v) (hhi : v ≤ 2 ^ 255 - 1) : sint256 (enc256 v) = v := by
  rw [sint256_eq_toInt, enc256_eq_ofInt]
  exact BitVec.toInt_ofInt_eq_self (by decide) hlo (Int.lt_of_le_sub_one hhi)

theorem le_sint256 (w : Word) : -(2 ^ 255) ≤ sint256 w :=
  sint256_eq_toInt w ▸ BitVec.le_toInt w

theorem sint256_le (w : Word) : sint256 w ≤ 2 ^ 255 - 1 :=
  sint256_eq_toInt w ▸ Int.le_sub_one_of_lt BitVec.toInt_lt

theorem sint256_of_lt {w : Word} (h : w.toNat < 2 ^ 255) : sint256 w = w.toNat := if_pos h

theorem sint256_of_le {w : Word} (h : 2 ^ 255 ≤ w.toNat) : sint256 w = w.toNat - 2 ^ 256 := if_neg (not_lt.mpr h)

/-- The number a word holds is its signed view, or that and `2^256` when the view is negative. -/
theorem toNat_eq_sint256 (w : Word) : (w.toNat : Int) = if 0 ≤ sint256 w then sint256 w else sint256 w + 2 ^ 256 := by
  have hlt : w.toNat < 2 ^ 256 := w.isLt
  rcases Nat.lt_or_ge w.toNat (2 ^ 255) with hlow | hhigh
  · rw [sint256_of_lt hlow, if_pos (Int.natCast_nonneg _)]
  · rw [sint256_of_le hhigh, if_neg (by omega), sub_add_cancel]

theorem enc256_toNat {v : Int} (hlo : -(2 ^ 255) ≤ v) (hhi : v ≤ 2 ^ 255 - 1) :
    ((enc256 v).toNat : Int) = if 0 ≤ v then v else v + 2 ^ 256 := by
  rw [toNat_eq_sint256, sint256_enc256 hlo hhi]

end Signed

end Sys2Proof.Machine

namespace Sys2Proof.Proofs

open Sys2Proof.Machine

/-- Settles O9: the rounding-up division is the formula, and the formula is the ceiling. -/
theorem ceilingIdentity : Obligations.CeilingIdentity := by
  intro a b d hd
  refine ⟨a * b / d, ceilDiv (a * b) d, divide_pos _ hd, mulDivRoundingUp_eq_ceilDiv a b hd, ?_, rfl, ?_⟩
  · rw [← Nat.cast_mul, ceil_div_eq_ceilDiv _ hd]
  · rw [ceilDiv_eq_ite _ hd]
    by_cases hrem : a * b % d = 0 <;> simp [hrem]

/-- Settles O10: reading and writing are two's complement, each the inverse of the other. -/
theorem signedViewRoundTrips : Obligations.SignedViewRoundTrips := by
  refine ⟨fun w => ⟨sint256_of_lt, sint256_of_le, le_sint256 w, sint256_le w, enc256_sint256 w⟩,
    fun v hlo hhi => ⟨fun hpos => ?_, fun hneg => ?_, sint256_enc256 hlo hhi⟩⟩
  · rw [enc256_toNat hlo hhi, if_pos hpos]
  · rw [enc256_toNat hlo hhi, if_neg (not_le.mpr hneg)]

end Sys2Proof.Proofs
end

