-- ==== Sys2Proof/Proofs/MsbFamily.lean ====
section
/-!
SUPPORT. Proofs/MsbFamily.lean: the halving search is the base-2 logarithm (`41_msb.md` R120 to R122). The layers, in
order: how a command answers from its function's answer, the search, the function on every integer; the statements
settled from them stand last.
-/

namespace Sys2Proof.Machine

/-! ### From the function's answer to the command's -/

section CommandAnswer

/-- A function failure is the command's, for its cause, once the operands are accepted (R269 step 4, R270). -/
theorem exec_of_error {i : Instr} {s : State} {t : Tag} (hi : i ≠ .clrf)
    (hacc : s.operandsAccepted (commandChecks i) = true) (hf : commandFunction i s = .error t) :
    exec i s = .next (failedWith s t.cause) :=
  (exec_eq_runCommand hi s).trans (State.runCommand_error hacc hf)

/-- A single unsigned result that a register can hold goes to `Y[0]` (R267, R269 steps 5 and 6). -/
theorem exec_of_unsigned {i : Instr} {s : State} {n : Nat} (hi : i ≠ .clrf)
    (hacc : s.operandsAccepted (commandChecks i) = true) (hf : commandFunction i s = .ok [.unsigned n])
    (hn : n ≤ maxUint256) : exec i s = .next (succeeded s #v[word n, 0, 0, 0]) := by
  have hfits : [Component.unsigned n].all Component.fits = true := by simpa using hn
  rw [exec_eq_runCommand hi, State.runCommand_commit hacc hf hfits, resultFile_one, unsigned_word]
  rfl

end CommandAnswer

/-! ### The search -/

section Search

theorem msbSearch_of_le {p x : Nat} (ps : List Nat) (m : Nat) (h : 2 ^ p ≤ x) :
    msbSearch (p :: ps) x m = msbSearch ps (x / 2 ^ p) (m + p) := if_pos h

theorem msbSearch_of_lt {p x : Nat} (ps : List Nat) (m : Nat) (h : x < 2 ^ p) :
    msbSearch (p :: ps) x m = msbSearch ps x m := if_neg (not_le.mpr h)

/-- The thresholds of a search over values of `2 ^ k` bits: each halves the bits that are left. -/
def halvingThresholds : Nat → List Nat
  | 0 => []
  | k + 1 => 2 ^ k :: halvingThresholds k

theorem msbThresholds_eq : msbThresholds = halvingThresholds 8 := rfl

/-- The search adds to the index so far the logarithm of the value that is left, if that value is as narrow as the
thresholds that are left ask. -/
theorem msbSearch_halvingThresholds (k : Nat) (x m : Nat) (hx : x < 2 ^ 2 ^ k) :
    msbSearch (halvingThresholds k) x m = m + Nat.log 2 x := by
  induction k generalizing x m with
  | zero =>
    have hlog : Nat.log 2 x = 0 := Nat.log_of_lt hx
    rw [hlog]
    rfl
  | succ k ih =>
    rw [halvingThresholds]
    rcases Nat.lt_or_ge x (2 ^ 2 ^ k) with hlow | hhigh
    · rw [msbSearch_of_lt _ _ hlow, ih x m hlow]
    · have hwidth : 2 ^ 2 ^ (k + 1) = 2 ^ 2 ^ k * 2 ^ 2 ^ k := by rw [Nat.pow_succ 2 k, Nat.mul_two, Nat.pow_add]
      have hquot : x / 2 ^ 2 ^ k < 2 ^ 2 ^ k := Nat.div_lt_of_lt_mul (hwidth ▸ hx)
      have hle : 2 ^ k ≤ Nat.log 2 x := Nat.le_log_of_pow_le Nat.one_lt_two hhigh
      rw [msbSearch_of_le _ _ hhigh, ih _ _ hquot, Nat.log_div_base_pow]
      omega

end Search

/-! ### The function on every integer -/

section OnIntegers

theorem mostSignificantBit_of_nonpos {x : Int} (h : x ≤ 0) : mostSignificantBit x = .error .zero := if_pos h

theorem mostSignificantBit_of_large {x : Int} (h : 2 ^ 256 - 1 < x) : mostSignificantBit x = .error .range :=
  (if_neg (by omega)).trans (if_pos h)

/-- On a positive register value the function is the base-2 logarithm, rounded down (R121). -/
theorem mostSignificantBit_eq_log {n : Nat} (hpos : n ≠ 0) (hlt : n < 2 ^ 256) :
    mostSignificantBit n = .ok (Nat.log 2 n) := by
  have hsearch : msbSearch msbThresholds n 0 = Nat.log 2 n := by
    rw [msbThresholds_eq, msbSearch_halvingThresholds 8 n 0 hlt, Nat.zero_add]
  have hnonpos : ¬ (n : Int) ≤ 0 := by omega
  have hlarge : ¬ (n : Int) > (maxUint256 : Int) := by simp only [maxUint256, Config.xlen]; omega
  rw [mostSignificantBit, if_neg hnonpos, if_neg hlarge, Int.toNat_natCast, hsearch]

theorem log_le_of_register {n : Nat} (hpos : n ≠ 0) (hlt : n < 2 ^ 256) : Nat.log 2 n ≤ 255 :=
  Nat.le_of_lt_succ (Nat.log_lt_of_lt_pow hpos hlt)

end OnIntegers

end Sys2Proof.Machine

namespace Sys2Proof.Proofs

open Sys2Proof.Machine

/-- Settles O6: the index is the base-2 logarithm of the operand, which fits in `Y[0]`. -/
theorem msbReturnsTheHighestSetBit : Obligations.MsbReturnsTheHighestSetBit := by
  refine ⟨rfl, fun s => ⟨fun hzero => ?_, fun hpos => ?_⟩⟩
  · refine exec_of_error nofun rfl (t := .zero) ?_
    rw [commandFunction, mostSignificantBit_of_nonpos (by omega), except_map_error]
  · have hlt := s.xUnsigned_lt 0
    have hindex := log_le_of_register hpos hlt
    refine ⟨Nat.log 2 (s.xUnsigned 0), hindex, Nat.pow_log_le_self 2 hpos,
      Nat.lt_pow_succ_log_self Nat.one_lt_two _, exec_of_unsigned nofun rfl ?_ (hindex.trans (by decide))⟩
    rw [commandFunction, mostSignificantBit_eq_log hpos hlt, except_map_value]

/-- Settles O7: in between the two failures the value is the base-2 logarithm, and two powers of 2 bound only one
index. -/
theorem mostSignificantBitOnEveryInteger : Obligations.MostSignificantBitOnEveryInteger := by
  refine fun x => ⟨mostSignificantBit_of_nonpos, mostSignificantBit_of_large, fun hlo hhi => ?_⟩
  lift x to Nat using by omega
  have hpos : x ≠ 0 := by omega
  have hlt : x < 2 ^ 256 := by omega
  refine ⟨Nat.log 2 x, mostSignificantBit_eq_log hpos hlt, log_le_of_register hpos hlt,
    mod_cast Nat.pow_log_le_self 2 hpos, mod_cast Nat.lt_pow_succ_log_self Nat.one_lt_two x, fun j hle hlt' => ?_⟩
  exact (Nat.log_eq_of_pow_le_of_lt_pow (mod_cast hle) (mod_cast hlt')).symm

end Sys2Proof.Proofs
end

