-- ==== Sys2Proof/Proofs/FullMathFamily.lean ====
section
/-!
SUPPORT. Proofs/FullMathFamily.lean: `MULDIVRU` answers the ceiling of the exact quotient (`42_fullmath.md` R130 to
R133). The failure of a command whose result does not fit comes first, then the command's function; the statement
settled from them stands last.
-/

namespace Sys2Proof.Machine

/-! ### From a result that does not fit to the command's failure -/

section ResultFailure

/-- A result with a component outside its register's range fails the command with `RESULT` (R267, R269 step 5). -/
theorem exec_of_unfit {i : Instr} {s : State} {r : List Component} (hi : i ≠ .clrf)
    (hacc : s.operandsAccepted (commandChecks i) = true) (hf : commandFunction i s = .ok r)
    (hr : r.all Component.fits = false) : exec i s = .next (failedWith s .result) :=
  (exec_eq_runCommand hi s).trans (State.runCommand_result hacc hf hr)

/-- A single unsigned result past 256 bits fails the command with `RESULT`. -/
theorem exec_of_unsigned_large {i : Instr} {s : State} {n : Nat} (hi : i ≠ .clrf)
    (hacc : s.operandsAccepted (commandChecks i) = true) (hf : commandFunction i s = .ok [.unsigned n])
    (hn : maxUint256 < n) : exec i s = .next (failedWith s .result) :=
  exec_of_unfit hi hacc hf (by simpa using hn)

end ResultFailure

/-! ### The command's function -/

section Function

theorem commandFunction_muldivru_zero {s : State} (h : s.xUnsigned 2 = 0) :
    commandFunction .muldivru s = .error .precond := by
  rw [commandFunction, h, mulDivRoundingUp_zero, except_map_error]

/-- On a nonzero denominator the function is the ceiling, however wide the product (R130). -/
theorem commandFunction_muldivru_eq_ceilDiv {s : State} (h : s.xUnsigned 2 ≠ 0) :
    commandFunction .muldivru s =
      .ok [.unsigned (ceilDiv (s.xUnsigned 0 * s.xUnsigned 1) (s.xUnsigned 2) : Nat)] := by
  rw [commandFunction, mulDivRoundingUp_eq_ceilDiv _ _ (Nat.pos_of_ne_zero h), except_map_value]

end Function

end Sys2Proof.Machine

namespace Sys2Proof.Proofs

open Sys2Proof.Machine

/-- Settles O8: a zero denominator fails the function; otherwise it answers the ceiling, which `Y[0]` holds or not. -/
theorem mulDivRuReturnsTheCeiling : Obligations.MulDivRuReturnsTheCeiling := by
  refine ⟨rfl, fun s => ⟨fun hzero => ?_, fun hpos hfit => ?_, fun hpos hlarge => ?_⟩⟩
  · exact exec_of_error (t := .precond) nofun rfl (commandFunction_muldivru_zero hzero)
  · exact exec_of_unsigned nofun rfl (commandFunction_muldivru_eq_ceilDiv hpos) hfit
  · exact exec_of_unsigned_large nofun rfl (commandFunction_muldivru_eq_ceilDiv hpos) hlarge

end Sys2Proof.Proofs
end

section
/-!
SUPPORT. `ADDDELTA` adds the signed delta exactly (`43_liquidity_delta.md` R140 to R142). The failures of a command on an
operand it refuses and on a negative result come first, then the command's check and function; the statement settled
from them stands last.
-/

namespace Sys2Proof.Machine

/-! ### Two failures of a command -/

section CommandFailure

/-- A refused operand fails the command with `OPERAND`, whatever its function answers (R269 step 3). -/
theorem exec_of_refused {i : Instr} {s : State} (hi : i ≠ .clrf)
    (hacc : s.operandsAccepted (commandChecks i) = false) : exec i s = .next (failedWith s .operand) :=
  (exec_eq_runCommand hi s).trans (State.runCommand_operand _ hacc)

/-- No register holds a negative number (R267). -/
theorem unsigned_fits_of_neg {v : Int} (h : v < 0) : (Component.unsigned v).fits = false := by
  rw [Component.fits, decide_eq_false (not_le.mpr h), Bool.false_and]

/-- A single negative result fails the command with `RESULT` rather than wrap (R269 step 5). -/
theorem exec_of_unsigned_neg {i : Instr} {s : State} {v : Int} (hi : i ≠ .clrf)
    (hacc : s.operandsAccepted (commandChecks i) = true) (hf : commandFunction i s = .ok [.unsigned v])
    (hv : v < 0) : exec i s = .next (failedWith s .result) :=
  exec_of_unfit hi hacc hf (by simpa using unsigned_fits_of_neg hv)

end CommandFailure

/-! ### The check and the function of `ADDDELTA` -/

section AddDelta

/-- Both arms of D0's form are the sum (R140). -/
theorem addDelta_eq_add (x y : Int) : addDelta x y = x + y := by
  unfold addDelta
  split
  · exact sub_neg_eq_add x y
  · rfl

theorem commandFunction_adddelta (s : State) :
    commandFunction .adddelta s = .ok [.unsigned (s.xUnsigned 0 + sint256 s.x[1])] := by
  rw [commandFunction, addDelta_eq_add]
  rfl

theorem operandsAccepted_adddelta (s : State) :
    s.operandsAccepted (commandChecks .adddelta) = decide (s.xUnsigned 0 ≤ maxUint128) := by
  rw [commandChecks, State.operandsAccepted_cons, State.operandsAccepted_nil, Bool.and_true]
  rfl

/-- An accepted liquidity and any delta sum to less than `2^256` (R141). -/
theorem toNat_liquidity_add_sint256_le {n : Nat} (h : n ≤ maxUint128) (w : Word) :
    ((n : Int) + sint256 w).toNat ≤ maxUint256 := by
  have hdelta := sint256_le w
  simp only [maxUint128, Config.liqBits] at h
  simp only [maxUint256, Config.xlen]
  omega

end AddDelta

end Sys2Proof.Machine

namespace Sys2Proof.Proofs

open Sys2Proof.Machine

/-- Settles O11: the check refuses the liquidity, or the function answers the exact sum, which is negative or fits. -/
theorem addDeltaAddsExactly : Obligations.AddDeltaAddsExactly := by
  refine ⟨rfl, fun s => ⟨fun hlarge => ?_, fun hwidth hneg => ?_, fun hwidth hpos => ?_⟩⟩
  · have hrefused : s.operandsAccepted (commandChecks .adddelta) = false :=
      (operandsAccepted_adddelta s).trans (decide_eq_false (not_le.mpr hlarge))
    exact exec_of_refused nofun hrefused
  · have hacc := (operandsAccepted_adddelta s).trans (decide_eq_true hwidth)
    exact exec_of_unsigned_neg nofun hacc (commandFunction_adddelta s) hneg
  · have hacc := (operandsAccepted_adddelta s).trans (decide_eq_true hwidth)
    have hsum := commandFunction_adddelta s
    rw [← Int.toNat_of_nonneg hpos] at hsum
    exact exec_of_unsigned nofun hacc hsum (toNat_liquidity_add_sint256_le hwidth _)

end Sys2Proof.Proofs
end

section
/-!
SUPPORT. The function of `TICK2SQRT` and its inverse against the exact exponential (`44_tick_sqrt_price.md` R150 to
R164). Every value is compared through its natural logarithm: a rounded product, quotient or shift moves the logarithm
by a known small amount, so the logarithm of the price of tick `t` stays within `1 / 10^9` of `96 log 2 + t tickLog`,
far closer than the `tickLog` between two ticks. The layers, in order: logarithms of rounded quotients, the two
constants, the ladder, the price of a tick, the logarithm loop, the two candidate ticks, the commands; the statements
settled from them stand last.
-/

namespace Sys2Proof.Machine

/-! ### Logarithms of rounded quotients -/

section RoundedLogs

/-- `a` exceeds `b` by at most the `N`-th part of `b`, said without division. -/
abbrev WithinPart (N a b : Nat) : Prop := a * N ≤ b * (N + 1)

theorem log_le_of_withinPart {N a b : Nat} (hN : 0 < N) (ha : 0 < a) (h : WithinPart N a b) :
    Real.log a ≤ Real.log b + 1 / N := by
  have hb : 0 < b := Nat.pos_of_mul_pos_right ((Nat.mul_pos ha hN).trans_le h)
  have hNr : (0 : ℝ) < N := Nat.cast_pos.mpr hN
  have har : (0 : ℝ) < a := Nat.cast_pos.mpr ha
  have hbr : (0 : ℝ) < b := Nat.cast_pos.mpr hb
  have hquot : (a / b : ℝ) ≤ 1 + 1 / N := by
    rw [div_le_iff₀ hbr, one_add_div hNr.ne', div_mul_eq_mul_div, le_div_iff₀ hNr]
    have hr : (a * N : ℝ) ≤ b * (N + 1) := mod_cast h
    linarith
  have hlog := Real.log_le_sub_one_of_pos (div_pos har hbr)
  rw [Real.log_div har.ne' hbr.ne'] at hlog
  linarith

theorem log_natCast_le {a b : Nat} (ha : 0 < a) (h : a ≤ b) : Real.log a ≤ Real.log b :=
  Real.log_le_log (Nat.cast_pos.mpr ha) (Nat.cast_le.mpr h)

theorem lt_of_log_natCast_lt {a b : Nat} (hb : 0 < b) (h : Real.log a < Real.log b) : a < b := by
  by_contra! hle
  exact absurd (log_natCast_le hb hle) (not_le.mpr h)

theorem log_natCast_mul {a b : Nat} (ha : 0 < a) (hb : 0 < b) :
    Real.log (a * b : Nat) = Real.log a + Real.log b := by
  rw [Nat.cast_mul, Real.log_mul (Nat.cast_ne_zero.mpr ha.ne') (Nat.cast_ne_zero.mpr hb.ne')]

theorem log_natCast_two_pow (k : Nat) : Real.log (2 ^ k : Nat) = k * Real.log 2 := by
  rw [Nat.cast_pow, Real.log_pow, Nat.cast_ofNat]

theorem log_natCast_mul_two_pow {a : Nat} (ha : 0 < a) (k : Nat) :
    Real.log (a * 2 ^ k : Nat) = Real.log a + k * Real.log 2 := by
  rw [log_natCast_mul ha (Nat.two_pow_pos k), log_natCast_two_pow]

/-- The logarithm of a quotient rounded down, when the quotient reaches `M`. -/
theorem log_div_bounds {a d M : Nat} (hM : 0 < M) (hd : 0 < d) (h : M * d ≤ a) :
    Real.log (a / d : Nat) + Real.log d ≤ Real.log a ∧
      Real.log a ≤ Real.log (a / d : Nat) + Real.log d + 1 / M := by
  have hq : M ≤ a / d := (Nat.le_div_iff_mul_le hd).mpr h
  have hqpos : 0 < a / d := hM.trans_le hq
  rw [← log_natCast_mul hqpos hd]
  have hlt := Nat.lt_mul_div_succ a hd
  have hpart : WithinPart M a (a / d * d) := by
    unfold WithinPart
    nlinarith [Nat.mul_le_mul_left d hq]
  exact ⟨log_natCast_le (Nat.mul_pos hqpos hd) (Nat.div_mul_le_self a d),
    log_le_of_withinPart hM ((Nat.mul_pos hM hd).trans_le h) hpart⟩

/-- The logarithm of a right shift, when the outcome reaches `M`. -/
theorem log_shr_bounds {a k M : Nat} (hM : 0 < M) (h : M * 2 ^ k ≤ a) :
    Real.log (shr a k) + k * Real.log 2 ≤ Real.log a ∧
      Real.log a ≤ Real.log (shr a k) + k * Real.log 2 + 1 / M := by
  have hbounds := log_div_bounds hM (Nat.two_pow_pos k) h
  rwa [log_natCast_two_pow] at hbounds

end RoundedLogs

/-! ### The two constants -/

section Constants

/-- The logarithm of the step between the prices of two neighbouring ticks: half that of 1.0001 (R152). -/
noncomputable def tickLog : ℝ := Real.log (10001 / 10000) / 2

/-- Three terms of the series of the logarithm, with a bound of the rest. -/
theorem tickLog_near : |2 * tickLog - (1 / 10 ^ 4 - 1 / (2 * 10 ^ 8) + 1 / (3 * 10 ^ 12))| ≤ 2 / 10 ^ 16 := by
  have hseries := Real.abs_log_sub_add_sum_range_le (x := -1 / 10000) (by norm_num [abs_div]) 3
  norm_num [Finset.sum_range_succ, abs_div] at hseries
  rw [tickLog]
  rw [abs_le] at hseries ⊢
  constructor <;> linarith

theorem tickLog_bounds : 49997 / 10 ^ 9 ≤ tickLog ∧ tickLog ≤ 5 / 10 ^ 5 := by
  have hnear := abs_le.mp tickLog_near
  constructor <;> linarith

theorem tickLog_nonneg : 0 ≤ tickLog := le_trans (by norm_num) tickLog_bounds.1

theorem two_mul_tickLog : 2 * tickLog = Real.log (10001 : Nat) - Real.log (10000 : Nat) := by
  rw [tickLog, Real.log_div (by norm_num) (by norm_num)]
  push_cast
  ring

end Constants

/-! ### The ladder -/

section Ladder

/-- `c` is the ladder's entry for bit `k`: `2^128` scaled down by `2^k` ticks (R27). -/
def EntryApprox (k c : Nat) : Prop :=
  0 < c ∧ |Real.log c - (128 * Real.log 2 - 2 ^ k * tickLog)| ≤ (2 ^ (k + 1) - 1) / 2 ^ 64

/-- `c'` is the square of the Q128 number `c`, up to a `2^64`-th part. -/
abbrev SquaresTo (c c' : Nat) : Prop :=
  0 < c' ∧ WithinPart (2 ^ 64) (c * c) (c' * 2 ^ 128) ∧ WithinPart (2 ^ 64) (c' * 2 ^ 128) (c * c)

/-- Each entry of the ladder is the square of the one before it. -/
theorem ladder_squaresTo : (ladderStart :: ladderSteps).IsChain SquaresTo := by
  unfold ladderSteps ladderStart
  simp only [List.isChain_cons_cons, List.isChain_singleton]
  decide

/-- Squaring doubles the number of ticks. -/
theorem EntryApprox.succ {k c c' : Nat} (hc : EntryApprox k c) (hsq : SquaresTo c c') : EntryApprox (k + 1) c' := by
  obtain ⟨hpos, hlog⟩ := hc
  obtain ⟨hpos', hle, hge⟩ := hsq
  have hup := log_le_of_withinPart (by decide) (Nat.mul_pos hpos hpos) hle
  have hdown := log_le_of_withinPart (by decide) (Nat.mul_pos hpos' (Nat.two_pow_pos 128)) hge
  rw [log_natCast_mul hpos hpos, log_natCast_mul_two_pow hpos'] at hup hdown
  refine ⟨hpos', ?_⟩
  push_cast at hup hdown
  rw [pow_succ 2 k, pow_succ 2 (k + 1)]
  generalize (2 : ℝ) ^ (k + 1) = w at *
  rw [abs_le] at hlog ⊢
  constructor <;> linarith

/-- The first entry is `2^128` scaled down by one tick. -/
theorem entryApprox_ladderStart : EntryApprox 0 ladderStart := by
  have hsquare : Real.log (ladderStart * ladderStart * 10001 : Nat) =
      Real.log ladderStart + Real.log ladderStart + Real.log (10001 : Nat) := by
    rw [log_natCast_mul (by decide) (by decide), log_natCast_mul (by decide) (by decide)]
  have hup := log_le_of_withinPart (N := 2 ^ 64) (a := ladderStart * ladderStart * 10001) (b := 10000 * 2 ^ 256)
    (by decide) (by decide) (by decide)
  have hdown := log_le_of_withinPart (N := 2 ^ 64) (a := 10000 * 2 ^ 256) (b := ladderStart * ladderStart * 10001)
    (by decide) (by decide) (by decide)
  rw [hsquare, log_natCast_mul_two_pow (by decide)] at hup hdown
  have hstep := two_mul_tickLog
  refine ⟨by decide, ?_⟩
  push_cast at *
  rw [abs_le]
  constructor <;> linarith

theorem bitSet_eq_testBit (n k : Nat) : bitSet n k = n.testBit k := by
  rw [bitSet, Nat.and_two_pow]
  cases n.testBit k <;> simp

/-- One more bit of a number. -/
theorem mod_two_pow_succ (n k : Nat) : n % 2 ^ (k + 1) = n % 2 ^ k + if bitSet n k then 2 ^ k else 0 := by
  rw [bitSet_eq_testBit, Nat.testBit_eq_decide_div_mod_eq, Nat.mod_pow_succ]
  rcases Nat.mod_two_eq_zero_or_one (n / 2 ^ k) with h | h <;> simp [h]

/-- Before bit `k` the running ratio is `2^128` scaled down by the ticks of the bits below `k`. -/
def WalkApprox (n k ratio : Nat) : Prop :=
  0 < ratio ∧ |Real.log ratio - (128 * Real.log 2 - (n % 2 ^ k : Nat) * tickLog)| ≤ k / 2 ^ 40

/-- A running ratio times an entry scales down by the ticks of both, if those are fewer than `2^20`. -/
theorem log_mulShift_near {r c m k : Nat} {e : ℝ} (hr : 0 < r) (hk : k ≤ 19) (hm : m + 2 ^ k ≤ 2 ^ 20)
    (he : e ≤ 20 / 2 ^ 40) (hlog : |Real.log r - (128 * Real.log 2 - m * tickLog)| ≤ e) (hc : EntryApprox k c) :
    0 < mulShift r c ∧
      |Real.log (mulShift r c) - (128 * Real.log 2 - (m + 2 ^ k : Nat) * tickLog)| ≤ e + 1 / 2 ^ 40 := by
  obtain ⟨hcpos, hentry⟩ := hc
  have hpow : (2 : ℝ) ^ k ≤ 2 ^ 19 := pow_le_pow_right₀ (by norm_num) hk
  have hticks : ((m + 2 ^ k : Nat) : ℝ) ≤ 2 ^ 20 := by exact_mod_cast hm
  have hscaled : ((m + 2 ^ k : Nat) : ℝ) * tickLog ≤ 2 ^ 20 * (5 / 10 ^ 5) :=
    mul_le_mul hticks tickLog_bounds.2 tickLog_nonneg (by norm_num)
  have hlog2 := Real.log_two_gt_d9
  rw [abs_le] at hlog hentry
  rw [pow_succ] at hentry
  push_cast at hscaled ⊢
  rw [add_mul] at hscaled ⊢
  have hlarge : 2 ^ 41 * 2 ^ 128 ≤ r * c := by
    refine le_of_lt (lt_of_log_natCast_lt (Nat.mul_pos hr hcpos) ?_)
    rw [log_natCast_mul hr hcpos, log_natCast_mul_two_pow (by decide), log_natCast_two_pow]
    push_cast
    linarith
  have hshift := log_shr_bounds (by decide) hlarge
  rw [log_natCast_mul hr hcpos, ← mulShift] at hshift
  push_cast at hshift
  refine ⟨(Nat.two_pow_pos 41).trans_le ((Nat.le_div_iff_mul_le (Nat.two_pow_pos 128)).mpr hlarge), ?_⟩
  rw [abs_le]
  constructor <;> linarith

/-- One entry of the walk. -/
theorem WalkApprox.succ {n k c r : Nat} (hk : k ≤ 19) (hc : EntryApprox k c) (hr : WalkApprox n k r) :
    WalkApprox n (k + 1) (if bitSet n k then mulShift r c else r) := by
  obtain ⟨hpos, hlog⟩ := hr
  have hkr : (k : ℝ) ≤ 19 := by exact_mod_cast hk
  rw [WalkApprox, mod_two_pow_succ]
  push_cast [add_div]
  split
  · have hticks : n % 2 ^ k + 2 ^ k ≤ 2 ^ 20 := by
      have hlow := Nat.mod_lt n (Nat.two_pow_pos k)
      have hpow : 2 ^ (k + 1) ≤ 2 ^ 20 := Nat.pow_le_pow_right (by decide) (by omega)
      omega
    exact_mod_cast log_mulShift_near hpos hk hticks (by linarith) hlog hc
  · refine ⟨hpos, ?_⟩
    rw [add_zero]
    linarith

/-- The rest of the walk, from any entry on. -/
theorem walkApprox_ladderWalk {n : Nat} (cs : List Nat) {k c r : Nat} (hlen : k + 1 + cs.length ≤ 20)
    (hchain : (c :: cs).IsChain SquaresTo) (hc : EntryApprox k c) (hr : WalkApprox n (k + 1) r) :
    WalkApprox n (k + 1 + cs.length) (ladderWalk n cs (k + 1) r) := by
  induction cs generalizing k c r with
  | nil => exact hr
  | cons c' cs ih =>
    rw [List.length_cons] at hlen ⊢
    obtain ⟨hsq, hchain'⟩ := List.isChain_cons_cons.mp hchain
    have hc' := hc.succ hsq
    have hwalk := ih (by omega) hchain' hc' (hr.succ (by omega) hc')
    rwa [show k + 1 + (cs.length + 1) = k + 1 + 1 + cs.length by omega]

/-- The ratio of a magnitude below `2^20` is `2^128` scaled down by that many ticks (R152). -/
theorem log_ladderRatio_near {n : Nat} (hn : n < 2 ^ 20) :
    0 < ladderRatio n ∧ |Real.log (ladderRatio n) - (128 * Real.log 2 - n * tickLog)| ≤ 20 / 2 ^ 40 := by
  have hfirst : WalkApprox n 0 q128 := by
    refine ⟨by decide, ?_⟩
    rw [log_natCast_two_pow]
    simp [Nat.mod_one]
  have hstart : WalkApprox n 1 (if bitSet n 0 then ladderStart else q128) := by
    have hshift : mulShift q128 ladderStart = ladderStart := by decide
    simpa only [hshift] using hfirst.succ (by decide) entryApprox_ladderStart
  have hwalk := walkApprox_ladderWalk ladderSteps (by decide) ladder_squaresTo entryApprox_ladderStart hstart
  rw [WalkApprox, show 0 + 1 + ladderSteps.length = 20 from rfl, Nat.mod_eq_of_lt hn] at hwalk
  exact_mod_cast hwalk

theorem mulShift_le_left {r c : Nat} (hc : c ≤ q128) : mulShift r c ≤ r :=
  Nat.div_le_of_le_mul ((Nat.mul_le_mul_left r hc).trans_eq (Nat.mul_comm _ _))

/-- No entry raises the running ratio. -/
theorem ladderWalk_le {n : Nat} (cs : List Nat) (k r : Nat) (h : ∀ c ∈ cs, c ≤ q128) : ladderWalk n cs k r ≤ r := by
  induction cs generalizing k r with
  | nil => exact le_rfl
  | cons c cs ih =>
    obtain ⟨hc, hcs⟩ := List.forall_mem_cons.mp h
    refine (ih (k + 1) _ hcs).trans ?_
    split
    · exact mulShift_le_left hc
    · exact le_rfl

theorem ladderRatio_le (n : Nat) : ladderRatio n ≤ q128 := by
  refine (ladderWalk_le ladderSteps 1 _ (by decide)).trans ?_
  split
  · decide
  · exact le_rfl

end Ladder

/-! ### The price of a tick -/

section Price

/-- Rescaling a ratio that reaches `2^63` to Q96 moves the logarithm by 32 bits, up to the rounding up (R152). -/
theorem log_ratioToPrice_near {r : Nat} (hr : 2 ^ 63 ≤ r) :
    0 < ratioToPrice r ∧ |Real.log (ratioToPrice r) + 32 * Real.log 2 - Real.log r| ≤ 1 / 2 ^ 31 := by
  have hceil : ratioToPrice r = ceilDiv r (2 ^ 32) := (ceilDiv_eq_ite r (by decide)).symm
  have hle := le_ceilDiv_mul r (d := 2 ^ 32) (by decide)
  have hlt := ceilDiv_mul_lt r (d := 2 ^ 32) (by decide)
  rw [← hceil] at hle hlt
  have hpos : 0 < ratioToPrice r := by omega
  have hlow := log_natCast_le (by omega) hle
  have hhigh := log_le_of_withinPart (N := 2 ^ 31) (a := ratioToPrice r * 2 ^ 32) (b := r) (by decide) (by omega)
    (by unfold WithinPart; omega)
  rw [log_natCast_mul_two_pow hpos] at hlow hhigh
  refine ⟨hpos, ?_⟩
  push_cast at hlow hhigh
  rw [abs_le]
  constructor <;> linarith

/-- The inversion of R152 negates the logarithm of a ladder ratio. -/
theorem log_maxUint256_div_near {r : Nat} (hpos : 0 < r) (hle : r ≤ q128) :
    2 ^ 127 ≤ maxUint256 / r ∧
      |Real.log (maxUint256 / r : Nat) + Real.log r - 256 * Real.log 2| ≤ 1 / 2 ^ 126 := by
  have hlarge : 2 ^ 127 * r ≤ maxUint256 := (Nat.mul_le_mul_left _ hle).trans (by decide)
  obtain ⟨hlow, hhigh⟩ := log_div_bounds (by decide) hpos hlarge
  have hmax := log_natCast_le (a := maxUint256) (b := 2 ^ 256) (by decide) (by decide)
  have hmax' := log_le_of_withinPart (N := 2 ^ 127) (a := 2 ^ 256) (b := maxUint256) (by decide) (by decide) (by decide)
  rw [log_natCast_two_pow] at hmax hmax'
  refine ⟨(Nat.le_div_iff_mul_le hpos).mpr hlarge, ?_⟩
  rw [abs_le]
  generalize maxUint256 = top at *
  push_cast at *
  constructor <;> linarith

/-- The Q128 ratio of every valid tick. -/
theorem log_signedRatio_near {t : Int} (hlo : minTick ≤ t) (hhi : t ≤ maxTick) :
    ∃ r, signedRatio t = .ok r ∧ 2 ^ 63 ≤ r ∧ |Real.log r - (128 * Real.log 2 + t * tickLog)| ≤ 1 / 2 ^ 34 := by
  simp only [minTick, maxTick] at hlo hhi
  obtain ⟨hpos, hnear⟩ := log_ladderRatio_near (n := t.natAbs) (by omega)
  unfold signedRatio
  split
  · rename_i ht
    obtain ⟨hlarge, hinv⟩ := log_maxUint256_div_near hpos (ladderRatio_le _)
    refine ⟨_, divide_pos _ hpos, (by decide : 2 ^ 63 ≤ 2 ^ 127).trans hlarge, ?_⟩
    rw [Nat.cast_natAbs, abs_of_pos ht] at hnear
    rw [abs_le] at *
    constructor <;> linarith
  · rename_i ht
    rw [Nat.cast_natAbs, abs_of_nonpos (not_lt.mp ht), Int.cast_neg] at hnear
    have hscaled : (-t : ℝ) * tickLog ≤ 887272 * (5 / 10 ^ 5) := by
      have hticks : (-t : ℝ) ≤ 887272 := by exact_mod_cast (by omega : -t ≤ 887272)
      exact mul_le_mul hticks tickLog_bounds.2 tickLog_nonneg (by norm_num)
    have hlog2 := Real.log_two_gt_d9
    rw [abs_le] at hnear
    refine ⟨_, rfl, le_of_lt (lt_of_log_natCast_lt hpos ?_), ?_⟩
    · rw [log_natCast_two_pow]
      push_cast
      linarith
    · rw [abs_le]
      constructor <;> linarith

/-- The price of tick `t` is `p`, which is `2^96` scaled by `t` ticks. -/
structure PriceOf (t : Int) (p : Nat) : Prop where
  value : getSqrtRatioAtTick t = .ok p
  pos : 0 < p
  near : |Real.log p - (96 * Real.log 2 + t * tickLog)| ≤ 1 / 10 ^ 9

/-- Every valid tick has a price (R153). -/
theorem exists_priceOf {t : Int} (hlo : minTick ≤ t) (hhi : t ≤ maxTick) : ∃ p, PriceOf t p := by
  obtain ⟨r, hr, hlarge, hnear⟩ := log_signedRatio_near hlo hhi
  obtain ⟨hpos, hscale⟩ := log_ratioToPrice_near hlarge
  refine ⟨ratioToPrice r, ?_, hpos, ?_⟩
  · rw [getSqrtRatioAtTick, if_pos ⟨hlo, hhi⟩, hr, except_map_value]
  · rw [abs_le] at *
    constructor <;> linarith

theorem priceOf_of_ok {t : Int} {p : Nat} (hlo : minTick ≤ t) (hhi : t ≤ maxTick)
    (h : getSqrtRatioAtTick t = .ok p) : PriceOf t p := by
  obtain ⟨q, hq⟩ := exists_priceOf hlo hhi
  have heq := Except.ok.inj (h.symm.trans hq.value)
  rwa [heq]

theorem getSqrtRatioAtTick_of_invalid {t : Int} (h : ¬ (minTick ≤ t ∧ t ≤ maxTick)) :
    getSqrtRatioAtTick t = .error .tick := if_neg h

theorem cast_mul_tickLog_succ_le {t u : Int} (h : t < u) : (t : ℝ) * tickLog + tickLog ≤ u * tickLog := by
  have hcast : (t + 1 : ℝ) ≤ u := by exact_mod_cast h
  linarith [mul_le_mul_of_nonneg_right hcast tickLog_nonneg]

/-- The prices of two ticks are further apart than their errors (R154 (a)). -/
theorem PriceOf.lt {t u : Int} {p q : Nat} (hp : PriceOf t p) (hq : PriceOf u q) (h : t < u) : p < q := by
  have hstep := cast_mul_tickLog_succ_le h
  have hnear := abs_le.mp hp.near
  have hnear' := abs_le.mp hq.near
  exact lt_of_log_natCast_lt hq.pos (by linarith [tickLog_bounds.1])

theorem PriceOf.le {t u : Int} {p q : Nat} (hp : PriceOf t p) (hq : PriceOf u q) (h : t ≤ u) : p ≤ q := by
  rcases h.lt_or_eq with hlt | rfl
  · exact (hp.lt hq hlt).le
  · exact (Except.ok.inj (hp.value.symm.trans hq.value)).le

theorem getSqrtRatioAtTick_minTick : getSqrtRatioAtTick minTick = .ok minSqrtRatio := rfl

theorem getSqrtRatioAtTick_maxTick : getSqrtRatioAtTick maxTick = .ok maxSqrtRatio := rfl

theorem priceOf_minTick : PriceOf minTick minSqrtRatio :=
  priceOf_of_ok le_rfl (by decide) getSqrtRatioAtTick_minTick

theorem priceOf_maxTick : PriceOf maxTick maxSqrtRatio :=
  priceOf_of_ok (by decide) le_rfl getSqrtRatioAtTick_maxTick

/-- The price of a valid tick lies between the two bounds of D0 (R154 (b)). -/
theorem PriceOf.bounds {t : Int} {p : Nat} (hp : PriceOf t p) (hlo : minTick ≤ t) (hhi : t ≤ maxTick) :
    minSqrtRatio ≤ p ∧ p ≤ maxSqrtRatio :=
  ⟨priceOf_minTick.le hp hlo, hp.le priceOf_maxTick hhi⟩

theorem maxSqrtRatio_le_maxUint160 : maxSqrtRatio ≤ maxUint160 := by decide

end Price

/-! ### The logarithm loop -/

section LogLoop

/-- `r` is a Q127 number in `[1, 2)` (R160). -/
abbrev Normalized (r : Nat) : Prop := 2 ^ 127 ≤ r ∧ r < 2 ^ 128

/-- The bit one iteration of the loop finds: whether the square reaches 2. -/
def logBit (r : Nat) : Nat := shr (shr (r * r) 127) 128

/-- What one iteration hands on: the square, halved when it reaches 2. -/
def logNext (r : Nat) : Nat := shr (shr (r * r) 127) (logBit r)

theorem logLoop_succ (n i r : Nat) (acc : Int) :
    logLoop (n + 1) i r acc = logLoop n (i + 1) (logNext r) (acc + shl (logBit r) (63 - i)) := rfl

theorem square_bounds {r : Nat} (hr : Normalized r) : 2 ^ 127 ≤ shr (r * r) 127 ∧ shr (r * r) 127 < 2 ^ 129 := by
  obtain ⟨hlo, hhi⟩ := hr
  have hsq := Nat.mul_le_mul hlo hlo
  have hsq' := Nat.mul_lt_mul'' hhi hhi
  rw [shr_eq]
  omega

theorem logNext_normalized {r : Nat} (hr : Normalized r) : Normalized (logNext r) := by
  have hsq := square_bounds hr
  unfold logNext logBit
  generalize shr (r * r) 127 = sq at *
  simp only [shr_eq]
  rcases Nat.lt_or_ge sq (2 ^ 128) with hlow | hhigh
  · have hbit : sq / 2 ^ 128 = 0 := by omega
    rw [hbit]
    omega
  · have hbit : sq / 2 ^ 128 = 1 := by omega
    rw [hbit]
    omega

/-- One iteration doubles the logarithm and takes the bit off it. -/
theorem log_logNext_near {r : Nat} (hr : Normalized r) :
    Real.log (logNext r) + (127 + logBit r) * Real.log 2 ≤ 2 * Real.log r ∧
      2 * Real.log r ≤ Real.log (logNext r) + (127 + logBit r) * Real.log 2 + 1 / 2 ^ 126 := by
  have hpos : 0 < r := (Nat.two_pow_pos 127).trans_le hr.1
  have hsquare : 2 ^ 127 * 2 ^ 127 ≤ r * r := Nat.mul_le_mul hr.1 hr.1
  have hnext : 2 ^ 127 * 2 ^ logBit r ≤ shr (r * r) 127 :=
    (Nat.le_div_iff_mul_le (Nat.two_pow_pos _)).mp (logNext_normalized hr).1
  have hfirst := log_shr_bounds (by decide) hsquare
  have hsecond := log_shr_bounds (by decide) hnext
  rw [← logNext] at hsecond
  rw [log_natCast_mul hpos hpos] at hfirst
  push_cast at hfirst hsecond
  constructor <;> linarith

/-- `n` iterations find `n` bits of the logarithm to base 2, rounded down (R160). -/
theorem logLoop_bounds (n : Nat) {i r : Nat} (acc : Int) (hr : Normalized r) (hi : i + n ≤ 64) :
    ∃ d : Nat, logLoop n i r acc = acc + d * 2 ^ (64 - i - n) ∧
      d * Real.log 2 ≤ 2 ^ n * (Real.log r - 127 * Real.log 2) ∧
      2 ^ n * (Real.log r - 127 * Real.log 2) ≤ (d + 1) * Real.log 2 + (2 ^ n - 1) / 2 ^ 126 := by
  induction n generalizing i r acc with
  | zero =>
    have hlow := log_natCast_le (Nat.two_pow_pos 127) hr.1
    have hhigh := log_natCast_le ((Nat.two_pow_pos 127).trans_le hr.1) hr.2.le
    rw [log_natCast_two_pow] at hlow hhigh
    refine ⟨0, by simp [logLoop], ?_, ?_⟩ <;> push_cast at * <;> linarith
  | succ n ih =>
    obtain ⟨d, hvalue, hlow, hhigh⟩ :=
      ih (i := i + 1) (acc + shl (logBit r) (63 - i)) (logNext_normalized hr) (by omega)
    obtain ⟨hstep, hstep'⟩ := log_logNext_near hr
    have hpow : (0 : ℝ) ≤ 2 ^ n := by positivity
    have hscaled := mul_le_mul_of_nonneg_left hstep hpow
    have hscaled' := mul_le_mul_of_nonneg_left hstep' hpow
    refine ⟨logBit r * 2 ^ n + d, ?_, ?_, ?_⟩
    · have hunit : 63 - i = n + (64 - i - (n + 1)) := by omega
      have hunit' : 64 - (i + 1) - n = 64 - i - (n + 1) := by omega
      rw [logLoop_succ, hvalue, shl_eq, hunit, hunit', pow_add]
      push_cast
      ring
    · push_cast
      rw [pow_succ]
      linarith
    · push_cast
      rw [pow_succ]
      linarith

/-- Normalising moves the top bit, of index `msb`, to bit 127. -/
theorem normalizeRatio_bounds {x : Nat} (hx : x ≠ 0) :
    Normalized (normalizeRatio x (Nat.log 2 x)) ∧
      Real.log (normalizeRatio x (Nat.log 2 x)) + ((Nat.log 2 x : ℝ) - 127) * Real.log 2 ≤ Real.log x ∧
      Real.log x ≤
        Real.log (normalizeRatio x (Nat.log 2 x)) + ((Nat.log 2 x : ℝ) - 127) * Real.log 2 + 1 / 2 ^ 127 := by
  have hlo := Nat.pow_log_le_self 2 hx
  have hhi := Nat.lt_pow_succ_log_self Nat.one_lt_two x
  generalize Nat.log 2 x = m at *
  unfold normalizeRatio
  split
  · rename_i hm
    have hlow : 2 ^ 127 * 2 ^ (m - 127) ≤ x := by
      rwa [← pow_add, show 127 + (m - 127) = m by omega]
    have hbounds := log_shr_bounds (by decide) hlow
    have hcast : ((m - 127 : Nat) : ℝ) = m - 127 := by exact_mod_cast Nat.cast_sub (R := ℝ) (by omega : 127 ≤ m)
    rw [hcast] at hbounds
    refine ⟨⟨(Nat.le_div_iff_mul_le (Nat.two_pow_pos _)).mpr hlow, ?_⟩, mod_cast hbounds⟩
    rw [shr_eq, Nat.div_lt_iff_lt_mul (Nat.two_pow_pos _), ← pow_add, show 128 + (m - 127) = m + 1 by omega]
    exact hhi
  · rename_i hm
    have hcast : ((127 - m : Nat) : ℝ) = 127 - m := by exact_mod_cast Nat.cast_sub (R := ℝ) (by omega : m ≤ 127)
    rw [shl_eq, log_natCast_mul_two_pow (Nat.pos_of_ne_zero hx), hcast]
    refine ⟨⟨?_, ?_⟩, ?_, ?_⟩
    · have hscaled := Nat.mul_le_mul_right (2 ^ (127 - m)) hlo
      rwa [← pow_add, show m + (127 - m) = 127 by omega] at hscaled
    · have hscaled := Nat.mul_lt_mul_of_pos_right hhi (Nat.two_pow_pos (127 - m))
      rwa [← pow_add, show m + 1 + (127 - m) = 128 by omega] at hscaled
    · linarith
    · have hslack : (0 : ℝ) ≤ 1 / 2 ^ 127 := by positivity
      linarith

/-- The Q64.64 logarithm is a whole number `K` of its 14 fraction bits: the exact one, rounded down, up to a last
error far below a bit (R160). -/
theorem log2Ratio_bounds {x : Nat} (hx : x ≠ 0) :
    ∃ K : Int, log2Ratio x (Nat.log 2 x) = K * 2 ^ 50 ∧
      K * Real.log 2 ≤ 2 ^ 14 * (Real.log x - 128 * Real.log 2) ∧
      2 ^ 14 * (Real.log x - 128 * Real.log 2) ≤ (K + 1) * Real.log 2 + 1 / 2 ^ 111 := by
  obtain ⟨hnorm, hlow, hhigh⟩ := normalizeRatio_bounds hx
  obtain ⟨d, hvalue, hdlow, hdhigh⟩ := logLoop_bounds logIterations (shlInt ((Nat.log 2 x : Int) - 128) 64) hnorm
    (i := 0) (by decide)
  simp only [logIterations] at hvalue hdlow hdhigh
  refine ⟨((Nat.log 2 x : Int) - 128) * 2 ^ 14 + d, ?_, ?_, ?_⟩
  · rw [log2Ratio, logIterations, hvalue, shlInt]
    ring
  · push_cast
    linarith
  · push_cast
    linarith

end LogLoop

/-! ### The two candidate ticks -/

section Candidates

/-- `LOG_MUL` turns bits of the logarithm to base 2 into ticks (R27, R160). -/
theorem logMul_mul_tickLog_near : |(logMul : ℝ) * tickLog / 2 ^ 64 - Real.log 2| ≤ 1 / 10 ^ 9 := by
  have hmul : (logMul : ℝ) = 255738958999603826347141 := by norm_num [logMul]
  have hnear := abs_le.mp tickLog_near
  have hlow := Real.log_two_gt_d9
  have hhigh := Real.log_two_lt_d9
  rw [hmul, abs_le]
  constructor <;> linarith

theorem ediv_two_pow_mul_le (a : Int) (k : Nat) : ((a / 2 ^ k : Int) : ℝ) * 2 ^ k ≤ a := by
  exact_mod_cast Int.ediv_mul_le a (by positivity)

theorem lt_ediv_two_pow_succ_mul (a : Int) (k : Nat) : (a : ℝ) < ((a / 2 ^ k : Int) + 1) * 2 ^ k := by
  exact_mod_cast Int.lt_ediv_add_one_mul_self a (by positivity)

/-- The two candidate ticks of a price `p` are equal or neighbours, and the exact logarithm of `p` lies above that of
the low one and below that of the tick after the high one, by more than the error of a price. -/
structure Candidates (p : Nat) (low high : Int) : Prop where
  le : low ≤ high
  le_succ : high ≤ low + 1
  above_low : low * tickLog + 2 / 10 ^ 9 ≤ Real.log p - 96 * Real.log 2
  below_high : Real.log p - 96 * Real.log 2 + 2 / 10 ^ 9 ≤ (high + 1) * tickLog

/-- A logarithm known to the bits of `K` gives candidates: `LOG_LO` and `LOG_HI` outweigh its errors (R160). -/
theorem candidates_of_bits {p : Nat} {K : Int} (hsmall : |Real.log p - 96 * Real.log 2| ≤ 64)
    (hlow : K * Real.log 2 ≤ 2 ^ 14 * (Real.log p - 96 * Real.log 2))
    (hhigh : 2 ^ 14 * (Real.log p - 96 * Real.log 2) ≤ (K + 1) * Real.log 2 + 1 / 2 ^ 111) :
    Candidates p (tickLowOf (K * 2 ^ 50 * logMul)) (tickHighOf (K * 2 ^ 50 * logMul)) := by
  have hlog2 := Real.log_two_gt_d9
  have hlog2' := Real.log_two_lt_d9
  have htick := tickLog_bounds
  have hK : |(K : ℝ)| ≤ 100 * 2 ^ 14 := by
    rw [abs_le] at *
    constructor <;> nlinarith
  have herr : |(K : ℝ) * ((logMul : ℝ) * tickLog / 2 ^ 64 - Real.log 2)| ≤ 100 * 2 ^ 14 * (1 / 10 ^ 9) := by
    rw [abs_mul]
    exact mul_le_mul hK logMul_mul_tickLog_near (abs_nonneg _) (by norm_num)
  have hunit : 0 ≤ tickLog / 2 ^ 128 := div_nonneg tickLog_nonneg (by norm_num)
  have hfloor := mul_le_mul_of_nonneg_right (ediv_two_pow_mul_le (K * 2 ^ 50 * logMul - logLo) 128) hunit
  have hfloor' := mul_le_mul_of_nonneg_right (lt_ediv_two_pow_succ_mul (K * 2 ^ 50 * logMul + logHi) 128).le hunit
  have hlo : (logLo : ℝ) = 3402992956809132418596140100660247210 := by norm_num [logLo]
  have hhi : (logHi : ℝ) = 291339464771989622907027621153398088495 := by norm_num [logHi]
  rw [← shrInt_eq, ← tickLowOf] at hfloor
  rw [← shrInt_eq, ← tickHighOf] at hfloor'
  push_cast [hlo] at hfloor
  push_cast [hhi] at hfloor'
  rw [abs_le] at herr
  refine ⟨?_, ?_, ?_, ?_⟩
  · simp only [tickLowOf, tickHighOf, shrInt_eq, logLo, logHi]
    omega
  · simp only [tickLowOf, tickHighOf, shrInt_eq, logLo, logHi]
    omega
  · linarith
  · linarith

theorem two_pow_le_of_valid {p : Nat} (hlo : minSqrtRatio ≤ p) : 2 ^ 32 ≤ p := le_trans (by decide) hlo

theorem lt_two_pow_of_valid {p : Nat} (hhi : p < maxSqrtRatio) : p < 2 ^ 160 := hhi.trans (by decide)

/-- On a valid price the function chooses between two candidates (R160). -/
theorem getTickAtSqrtRatio_eq_chooseTick {p : Nat} (hlo : minSqrtRatio ≤ p) (hhi : p < maxSqrtRatio) :
    ∃ low high, getTickAtSqrtRatio p = chooseTick p low high ∧ Candidates p low high := by
  have hmin := two_pow_le_of_valid hlo
  have hmax := lt_two_pow_of_valid hhi
  have hpos : 0 < p := by omega
  have hx : shl p 32 ≠ 0 := by rw [shl_eq]; omega
  have hlt : shl p 32 < 2 ^ 256 := by rw [shl_eq]; omega
  obtain ⟨K, hvalue, hlow, hhigh⟩ := log2Ratio_bounds hx
  have hlogx : Real.log (shl p 32) - 128 * Real.log 2 = Real.log p - 96 * Real.log 2 := by
    rw [shl_eq, log_natCast_mul_two_pow hpos]
    push_cast
    ring
  rw [hlogx] at hlow hhigh
  have hsmall : |Real.log p - 96 * Real.log 2| ≤ 64 := by
    have hlog := log_natCast_le (by decide) hmin
    have hlog' := log_natCast_le hpos hmax.le
    rw [log_natCast_two_pow] at hlog hlog'
    push_cast at hlog hlog'
    rw [abs_le]
    constructor <;> linarith [Real.log_two_lt_d9]
  refine ⟨_, _, ?_, candidates_of_bits hsmall hlow hhigh⟩
  rw [getTickAtSqrtRatio, if_pos ⟨Int.ofNat_le.mpr hlo, Int.ofNat_lt.mpr hhi⟩, Int.toNat_natCast]
  dsimp only
  rw [mostSignificantBit_eq_log hx hlt, except_ok_bind, logSqrt10001, hvalue]

theorem Candidates.price_lt {p q : Nat} {low high t : Int} (h : Candidates p low high) (hp : 0 < p)
    (hq : PriceOf t q) (ht : t ≤ low) : q < p := by
  have hnear := abs_le.mp hq.near
  have hscaled := mul_le_mul_of_nonneg_right (Int.cast_le (R := ℝ).mpr ht) tickLog_nonneg
  exact lt_of_log_natCast_lt hp (by linarith [h.above_low])

theorem Candidates.lt_price {p q : Nat} {low high t : Int} (h : Candidates p low high) (hq : PriceOf t q)
    (ht : high < t) : p < q := by
  have hnear := abs_le.mp hq.near
  have hcast : (high + 1 : ℝ) ≤ t := by exact_mod_cast ht
  have hscaled := mul_le_mul_of_nonneg_right hcast tickLog_nonneg
  exact lt_of_log_natCast_lt hq.pos (by linarith [h.below_high])

theorem chooseTick_self (p t : Int) : chooseTick p t t = .ok t := if_pos rfl

theorem chooseTick_of_ne {p low high : Int} {q : Nat} (hne : low ≠ high) (hq : getSqrtRatioAtTick high = .ok q) :
    chooseTick p low high = .ok (if (q : Int) ≤ p then high else low) := by
  rw [chooseTick, if_neg hne, hq, except_map_value]

/-- `t` is the greatest tick whose price does not exceed `p` (R162). -/
structure TickOf (p : Nat) (t : Int) : Prop where
  min_le : minTick ≤ t
  lt_max : t < maxTick
  price_le : ∀ q, PriceOf t q → q ≤ p
  lt_price : ∀ q, PriceOf (t + 1) q → p < q

/-- The high candidate when its price does not exceed `p`, else the low one. The bounds of `p` keep the outer candidate
of the first and the last tick from being chosen (R163). -/
theorem tickOf_chooseTick {p : Nat} {low high : Int} (hlo : minSqrtRatio ≤ p) (hhi : p < maxSqrtRatio)
    (h : Candidates p low high) : ∃ t, chooseTick p low high = .ok t ∧ TickOf p t := by
  have hpos : 0 < p := (by decide : 0 < minSqrtRatio).trans_le hlo
  have hmin : minTick ≤ high := by
    by_contra! hlt
    exact absurd (h.lt_price priceOf_minTick hlt) (not_lt.mpr hlo)
  have hmax : low < maxTick := by
    by_contra! hle
    exact absurd (h.price_lt hpos priceOf_maxTick hle) (not_lt.mpr hhi.le)
  rcases eq_or_ne low high with rfl | hne
  · exact ⟨low, chooseTick_self _ _, hmin, hmax, fun q hq => (h.price_lt hpos hq le_rfl).le,
      fun q hq => h.lt_price hq (lt_add_one low)⟩
  · have hsucc : low + 1 = high := by
      have hle := h.le
      have hle_succ := h.le_succ
      omega
    obtain ⟨q, hq⟩ := exists_priceOf hmin (hsucc ▸ hmax)
    rw [chooseTick_of_ne hne hq.value]
    refine ⟨_, rfl, ?_⟩
    split
    · rename_i hle
      have hlt : high < maxTick := by
        by_contra! hge
        have hmaxle := priceOf_maxTick.le hq hge
        omega
      exact ⟨hmin, hlt, fun q' hq' => (hq'.le hq le_rfl).trans (Int.ofNat_le.mp hle),
        fun q' hq' => h.lt_price hq' (lt_add_one high)⟩
    · rename_i hgt
      have hge : minTick ≤ low := by
        by_contra! hlt
        have hlemin := hq.le priceOf_minTick (by omega)
        omega
      exact ⟨hge, hmax, fun q' hq' => (h.price_lt hpos hq' le_rfl).le,
        fun q' hq' => (Int.ofNat_lt.mp (not_le.mp hgt)).trans_le (hq.le hq' hsucc.ge)⟩

/-- Every valid price has a tick. -/
theorem getTickAtSqrtRatio_tickOf {p : Nat} (hlo : minSqrtRatio ≤ p) (hhi : p < maxSqrtRatio) :
    ∃ t, getTickAtSqrtRatio p = .ok t ∧ TickOf p t := by
  obtain ⟨low, high, hvalue, hcand⟩ := getTickAtSqrtRatio_eq_chooseTick hlo hhi
  rw [hvalue]
  exact tickOf_chooseTick hlo hhi hcand

theorem getTickAtSqrtRatio_of_invalid {p : Nat} (h : p < minSqrtRatio ∨ maxSqrtRatio ≤ p) :
    getTickAtSqrtRatio p = .error .sqrtRatio :=
  if_neg (by omega)

end Candidates

/-! ### The two commands -/

section TickCommands

/-- A single result that its register can hold goes to `Y[0]` (R267, R269 steps 5 and 6). -/
theorem exec_of_fit {i : Instr} {s : State} {c : Component} {w : Word} (hi : i ≠ .clrf)
    (hacc : s.operandsAccepted (commandChecks i) = true) (hf : commandFunction i s = .ok [c]) (hc : c.fits = true)
    (hw : c.word = w) : exec i s = .next (succeeded s #v[w, 0, 0, 0]) := by
  have hfits : [c].all Component.fits = true := by rw [List.all_cons, hc, List.all_nil, Bool.and_true]
  rw [exec_eq_runCommand hi, State.runCommand_commit hacc hf hfits, resultFile_one, hw]
  rfl

theorem tick_word (t : Int) : (Component.tick t).word = BitVec.ofInt 256 t := enc256_eq_ofInt t

theorem tick_fits {t : Int} (hlo : minTick ≤ t) (hhi : t ≤ maxTick) : (Component.tick t).fits = true := by
  simp only [minTick, maxTick] at hlo hhi
  rw [Component.fits, Bool.and_eq_true, decide_eq_true_iff, decide_eq_true_iff]
  omega

/-- The tick range in register terms (R153). -/
theorem sint256_tick_range (w : Word) :
    (minTick ≤ sint256 w ∧ sint256 w ≤ maxTick) ↔ w.toNat ≤ 887272 ∨ 2 ^ 256 - 887272 ≤ w.toNat := by
  have hlt : w.toNat < 2 ^ 256 := w.isLt
  simp only [minTick, maxTick]
  rcases Nat.lt_or_ge w.toNat (2 ^ 255) with hlow | hhigh
  · rw [sint256_of_lt hlow]
    omega
  · rw [sint256_of_le hhigh]
    omega

theorem commandFunction_tick2sqrt (s : State) :
    commandFunction .tick2sqrt s = (getSqrtRatioAtTick (sint256 s.x[0])).map fun (r : Nat) => [.price r] := rfl

theorem commandFunction_sqrt2tick (s : State) :
    commandFunction .sqrt2tick s = (getTickAtSqrtRatio (s.xUnsigned 0)).map fun (t : Int) => [.tick t] := rfl

end TickCommands

end Sys2Proof.Machine

namespace Sys2Proof.Proofs

open Sys2Proof.Machine

/-- Settles O16: the logarithm of the ratio is near that of its exact value, and no entry raises the ratio. -/
theorem ladderRatioIsPositiveAndAtMostOne : Obligations.LadderRatioIsPositiveAndAtMostOne :=
  fun n hn => ⟨(log_ladderRatio_near (hn.trans_lt (by decide))).1, ladderRatio_le n⟩

/-- Settles O13: a tick moves the logarithm of the price by more than the errors of two prices. -/
theorem tickToPriceIsStrictlyIncreasing : Obligations.TickToPriceIsStrictlyIncreasing := by
  refine ⟨fun t u p q hmin hlt hmax hp hq => ?_, getSqrtRatioAtTick_minTick, getSqrtRatioAtTick_maxTick,
    fun t hmin hmax => ?_, rfl⟩
  · exact (priceOf_of_ok hmin (hlt.le.trans hmax) hp).lt (priceOf_of_ok (hmin.trans hlt.le) hmax hq) hlt
  · obtain ⟨p, hp⟩ := exists_priceOf hmin hmax
    obtain ⟨hlow, hhigh⟩ := hp.bounds hmin hmax
    exact ⟨p, hp.value, hlow, hhigh, hhigh.trans maxSqrtRatio_le_maxUint160⟩

/-- Settles O12: the register's range is the tick range, where every tick has a price that fits. -/
theorem tick2SqrtConvertsEveryValidTick : Obligations.Tick2SqrtConvertsEveryValidTick := by
  refine ⟨rfl, fun s => ⟨fun hlow hhigh => ?_, fun hvalid => ?_⟩⟩
  · have hinvalid := mt (sint256_tick_range s.x[0]).mp (not_or.mpr ⟨not_le.mpr hlow, not_le.mpr hhigh⟩)
    refine exec_of_error (t := .tick) nofun rfl ?_
    rw [commandFunction_tick2sqrt, getSqrtRatioAtTick_of_invalid hinvalid, except_map_error]
  · obtain ⟨hmin, hmax⟩ := (sint256_tick_range s.x[0]).mpr hvalid
    obtain ⟨q, hq⟩ := exists_priceOf hmin hmax
    obtain ⟨hlow, hhigh⟩ := hq.bounds hmin hmax
    have hwidth := hhigh.trans maxSqrtRatio_le_maxUint160
    have hfit : (Component.price q).fits = true := (price_fits q).trans (decide_eq_true hwidth)
    refine ⟨q, hq.value, hlow, hhigh, hwidth, exec_of_fit nofun rfl ?_ hfit (price_word q)⟩
    rw [commandFunction_tick2sqrt, hq.value, except_map_value]

/-- Settles O15: the chosen candidate is the greatest tick whose price does not exceed `p`. -/
theorem tickIsTheGreatestNotAbove : Obligations.TickIsTheGreatestNotAbove := by
  intro p hlo hhi
  obtain ⟨t, hvalue, htick⟩ := getTickAtSqrtRatio_tickOf hlo hhi
  obtain ⟨below, hbelow⟩ := exists_priceOf htick.min_le htick.lt_max.le
  obtain ⟨above, habove⟩ := exists_priceOf (htick.min_le.trans (lt_add_one t).le) htick.lt_max
  exact ⟨t, below, above, hvalue, hbelow.value, habove.value, htick.price_le below hbelow, htick.lt_price above habove⟩

/-- Settles O14: outside the price range the function fails, inside it every price has a valid tick. -/
theorem sqrt2TickConvertsEveryValidPrice : Obligations.Sqrt2TickConvertsEveryValidPrice := by
  refine ⟨rfl, fun s => ⟨fun hinvalid => ?_, fun hlo hhi => ?_⟩⟩
  · refine exec_of_error (t := .sqrtRatio) nofun rfl ?_
    rw [commandFunction_sqrt2tick, getTickAtSqrtRatio_of_invalid hinvalid, except_map_error]
  · obtain ⟨t, hvalue, htick⟩ := getTickAtSqrtRatio_tickOf hlo hhi
    have hfit := tick_fits htick.min_le htick.lt_max.le
    refine ⟨t, hvalue, htick.min_le, htick.lt_max, exec_of_fit nofun rfl ?_ hfit (tick_word t)⟩
    rw [commandFunction_sqrt2tick, hvalue, except_map_value]

end Sys2Proof.Proofs
end

section
/-!
SUPPORT. The token amounts between two prices and the price after an amount (`45_sqrt_price_movement.md` R180 to
R197). The layers, in order: the ceiling compared with a number, the two amounts, the four price routines, the way the
price moves, the commands; the statements settled from them stand last.
-/

namespace Sys2Proof.Machine

/-! ### The ceiling of a quotient, compared with a number -/

section CeilingOrder

/-- The ceiling is the least number whose product with the divisor reaches the dividend. -/
theorem ceilDiv_le_iff {n d k : Nat} (hd : 0 < d) : ceilDiv n d ≤ k ↔ n ≤ d * k :=
  ceilDiv_le_iff_le_mul hd

theorem lt_ceilDiv_iff {n d k : Nat} (hd : 0 < d) : k < ceilDiv n d ↔ d * k < n :=
  lt_iff_lt_of_le_iff_le (ceilDiv_le_iff hd)

theorem ceilDiv_le_self (n : Nat) {d : Nat} (hd : 0 < d) : ceilDiv n d ≤ n :=
  (ceilDiv_le_iff hd).mpr (Nat.le_mul_of_pos_left n hd)

theorem zero_ceilDiv {d : Nat} (hd : 0 < d) : ceilDiv 0 d = 0 :=
  Nat.le_zero.mp ((ceilDiv_le_iff hd).mpr (Nat.zero_le _))

theorem ceilDiv_pos {n d : Nat} (hn : 0 < n) (hd : 0 < d) : 0 < ceilDiv n d :=
  (lt_ceilDiv_iff hd).mpr hn

theorem mul_ceilDiv_cancel_left {n : Nat} (hn : 0 < n) (p : Nat) : ceilDiv (n * p) n = p :=
  eq_of_forall_ge_iff fun k => by rw [ceilDiv_le_iff hn, Nat.mul_le_mul_left_iff hn]

/-- Two roundings up in a row are one rounding up over the product of the divisors. -/
theorem ceilDiv_ceilDiv (n : Nat) {d e : Nat} (hd : 0 < d) (he : 0 < e) :
    ceilDiv (ceilDiv n d) e = ceilDiv n (d * e) :=
  eq_of_forall_ge_iff fun k => by
    rw [ceilDiv_le_iff he, ceilDiv_le_iff hd, ceilDiv_le_iff (Nat.mul_pos hd he), Nat.mul_assoc]

theorem ceilDiv_eq_div_or_succ (n : Nat) {d : Nat} (hd : 0 < d) : ceilDiv n d = n / d ∨ ceilDiv n d = n / d + 1 := by
  rw [ceilDiv_eq_ite n hd]
  split
  · exact .inr rfl
  · exact .inl rfl

end CeilingOrder

/-! ### The token amounts between two prices -/

section Amounts

theorem ite_gt_eq_min (a b : Nat) : (if a > b then b else a) = min a b := by
  split <;> omega

theorem ite_gt_eq_max (a b : Nat) : (if a > b then a else b) = max a b := by
  split <;> omega

theorem amount0Exact_comm (roundUp : Bool) (a b liq : Nat) :
    amount0Exact roundUp a b liq = amount0Exact roundUp b a liq := by
  rw [amount0Exact, max_comm, min_comm, amount0Exact]

theorem amount1Exact_comm (roundUp : Bool) (a b liq : Nat) :
    amount1Exact roundUp a b liq = amount1Exact roundUp b a liq := by
  rw [amount1Exact, max_comm, min_comm, amount1Exact]

/-- A zero price fails: the larger price divides first, the smaller one second (R180). -/
theorem getAmount0Delta_of_zero {a b : Nat} (h : a = 0 ∨ b = 0) (liq : Nat) (roundUp : Bool) :
    getAmount0Delta a b liq roundUp = .error .precond := by
  have hlower : min a b = 0 := by omega
  simp only [getAmount0Delta, ite_gt_eq_min, ite_gt_eq_max, hlower]
  rcases Nat.eq_zero_or_pos (max a b) with hupper | hupper
  · rw [hupper]
    cases roundUp <;> rfl
  · cases roundUp
    · simp [divide_pos _ hupper]
    · simp [mulDivRoundingUp_eq_ceilDiv _ _ hupper]

/-- Between positive prices the function is the exact amount (R180). -/
theorem getAmount0Delta_of_pos {a b : Nat} (ha : 0 < a) (hb : 0 < b) (liq : Nat) (roundUp : Bool) :
    getAmount0Delta a b liq roundUp = .ok (amount0Exact roundUp a b liq) := by
  have hlower : 0 < min a b := Nat.lt_min.mpr ⟨ha, hb⟩
  have hupper : 0 < max a b := ha.trans_le (Nat.le_max_left a b)
  simp only [getAmount0Delta, ite_gt_eq_min, ite_gt_eq_max, shl_eq]
  cases roundUp
  · simp [divide_pos _ hupper, divide_pos _ hlower, amount0Exact]
  · simp [mulDivRoundingUp_eq_ceilDiv _ _ hupper, mulDivRoundingUp_eq_ceilDiv _ _ hlower, amount0Exact]

/-- What a token0 amount that is answered says. -/
theorem getAmount0Delta_ok {a b liq r : Nat} {roundUp : Bool} (h : getAmount0Delta a b liq roundUp = .ok r) :
    0 < a ∧ 0 < b ∧ r = amount0Exact roundUp a b liq := by
  by_cases hzero : a = 0 ∨ b = 0
  · rw [getAmount0Delta_of_zero hzero] at h
    cases h
  · obtain ⟨ha, hb⟩ := not_or.mp hzero
    rw [getAmount0Delta_of_pos (Nat.pos_of_ne_zero ha) (Nat.pos_of_ne_zero hb)] at h
    exact ⟨Nat.pos_of_ne_zero ha, Nat.pos_of_ne_zero hb, (Except.ok.inj h).symm⟩

/-- The token1 amount is the exact one at every pair of prices (R182). -/
theorem getAmount1Delta_eq (a b liq : Nat) (roundUp : Bool) :
    getAmount1Delta a b liq roundUp = .ok (amount1Exact roundUp a b liq) := by
  have hq96 : 0 < q96 := Nat.two_pow_pos 96
  simp only [getAmount1Delta, amount1Exact, ite_gt_eq_min, ite_gt_eq_max, divide_pos _ hq96,
    mulDivRoundingUp_eq_ceilDiv _ _ hq96]
  split <;> rfl

/-- The token0 amount rounded up, as one ceiling. -/
theorem amount0Exact_up {p q : Nat} (hp : 0 < p) (hq : 0 < q) (liq : Nat) :
    amount0Exact true p q liq = ceilDiv (liq * 2 ^ 96 * (max p q - min p q)) (p * q) := by
  have hlower : 0 < min p q := Nat.lt_min.mpr ⟨hp, hq⟩
  have hupper : 0 < max p q := hp.trans_le (Nat.le_max_left p q)
  rw [← max_mul_min p q, ← ceilDiv_ceilDiv _ hupper hlower]
  rfl

/-- The token0 amount rounded down, as one quotient. -/
theorem amount0Exact_down (p q liq : Nat) :
    amount0Exact false p q liq = liq * 2 ^ 96 * (max p q - min p q) / (p * q) := by
  rw [← max_mul_min p q, ← Nat.div_div_eq_div_mul]
  rfl

/-- Rounding twice in the other direction moves the token0 amount by at most one (R181). -/
theorem amount0Exact_up_eq_or {p q : Nat} (hp : 0 < p) (hq : 0 < q) (liq : Nat) :
    amount0Exact true p q liq = amount0Exact false p q liq ∨
      amount0Exact true p q liq = amount0Exact false p q liq + 1 := by
  rw [amount0Exact_up hp hq, amount0Exact_down]
  exact ceilDiv_eq_div_or_succ _ (Nat.mul_pos hp hq)

/-- Equal prices or no liquidity: nothing to divide. -/
theorem amount0Exact_of_num_zero {p q liq : Nat} (hp : 0 < p) (hq : 0 < q)
    (h : liq * 2 ^ 96 * (max p q - min p q) = 0) (roundUp : Bool) : amount0Exact roundUp p q liq = 0 := by
  cases roundUp
  · rw [amount0Exact_down, h, Nat.zero_div]
  · rw [amount0Exact_up hp hq, h, zero_ceilDiv (Nat.mul_pos hp hq)]

theorem amount0Exact_up_le {p q : Nat} (hp : 0 < p) (hq : 0 < q) (liq : Nat) :
    amount0Exact true p q liq ≤ liq * 2 ^ 96 := by
  rw [amount0Exact_up hp hq, ceilDiv_le_iff (Nat.mul_pos hp hq), Nat.mul_comm (p * q)]
  have hdiff : max p q - min p q ≤ p * q := by
    have hp' : p ≤ p * q := Nat.le_mul_of_pos_right p hq
    have hq' : q ≤ p * q := Nat.le_mul_of_pos_left q hp
    omega
  exact Nat.mul_le_mul_left _ hdiff

/-- No token0 amount exceeds `L * 2^96`, the amount of liquidity `L` from price 1 upwards. -/
theorem amount0Exact_le {p q : Nat} (hp : 0 < p) (hq : 0 < q) (liq : Nat) (roundUp : Bool) :
    amount0Exact roundUp p q liq ≤ liq * 2 ^ 96 := by
  have hup := amount0Exact_up_le hp hq liq
  cases roundUp
  · rcases amount0Exact_up_eq_or hp hq liq with heq | heq <;> omega
  · exact hup

/-- The token0 amounts of the port's operands take 224 bits (R181). -/
theorem amount0Exact_lt {p q liq : Nat} (hp : 0 < p) (hq : 0 < q) (hliq : liq ≤ 2 ^ 128 - 1) (roundUp : Bool) :
    amount0Exact roundUp p q liq < 2 ^ 224 := by
  have hle := amount0Exact_le hp hq liq roundUp
  omega

theorem amount1_num_le {p q liq : Nat} (hp : p ≤ 2 ^ 160 - 1) (hq : q ≤ 2 ^ 160 - 1) (hliq : liq ≤ 2 ^ 128 - 1) :
    liq * (max p q - min p q) ≤ 2 ^ 96 * (2 ^ 192 - 1) := by
  have hdiff : max p q - min p q ≤ 2 ^ 160 - 1 := by omega
  exact (Nat.mul_le_mul hliq hdiff).trans (by decide)

/-- The token1 amounts of the port's operands take 192 bits (R183). -/
theorem amount1Exact_lt {p q liq : Nat} (hp : p ≤ 2 ^ 160 - 1) (hq : q ≤ 2 ^ 160 - 1) (hliq : liq ≤ 2 ^ 128 - 1)
    (roundUp : Bool) : amount1Exact roundUp p q liq < 2 ^ 192 := by
  have hnum := amount1_num_le hp hq hliq
  have hdown := Nat.div_le_of_le_mul hnum
  have hup := (ceilDiv_le_iff (Nat.two_pow_pos 96)).mpr hnum
  simp only [amount1Exact]
  split <;> omega

end Amounts

/-! ### The four price routines -/

section NextPrice

/-- The masked overflow test of R194 sees exactly the products of at least `2^256`. -/
theorem mul256_div_eq_iff {a p : Nat} (ha : 0 < a) : mul256 a p / a = p ↔ a * p < 2 ^ 256 := by
  constructor
  · intro h
    calc a * p = a * (mul256 a p / a) := by rw [h]
      _ ≤ mul256 a p := Nat.mul_div_le _ _
      _ < 2 ^ 256 := u256_lt _
  · intro h
    rw [mul256_exact h, Nat.mul_div_cancel_left p ha]

/-- The masked sum is at least its first term exactly when it does not wrap. -/
theorem le_add256_iff {n m : Nat} (hm : m < 2 ^ 256) : n ≤ add256 n m ↔ n + m < 2 ^ 256 := by
  simp only [add256, u256, q256]
  omega

/-- The price after `amount` of token0 is paid in (R194): the first formula unless 256 bits would wrap. -/
def priceAfterAmount0In (p liq amount : Nat) : Nat :=
  if amount = 0 then p
  else if liq * 2 ^ 96 + amount * p < 2 ^ 256 then ceilDiv (liq * 2 ^ 96 * p) (liq * 2 ^ 96 + amount * p)
  else ceilDiv (liq * 2 ^ 96) (liq * 2 ^ 96 / p + amount)

theorem nextFromAmount0Fallback_eq {p amount : Nat} (hp : 0 < p) (hamount : 0 < amount) (liq : Nat) :
    nextFromAmount0Fallback p liq amount = .ok (ceilDiv (liq * 2 ^ 96) (liq * 2 ^ 96 / p + amount)) := by
  rw [nextFromAmount0Fallback, shl_eq, divide_pos _ hp, except_ok_bind,
    mulDivRoundingUp_eq_ceilDiv _ _ (Nat.add_pos_right _ hamount), Nat.mul_one]

/-- The add branch of the amount0 routine answers on every positive price and liquidity (R194). -/
theorem nextFromAmount0RoundingUp_add {p liq : Nat} (hp : 0 < p) (hliq : 0 < liq) (amount : Nat) :
    nextFromAmount0RoundingUp p liq amount true = .ok (priceAfterAmount0In p liq amount) := by
  unfold priceAfterAmount0In
  rcases Nat.eq_zero_or_pos amount with rfl | hamount
  · rfl
  rw [nextFromAmount0RoundingUp, if_neg hamount.ne', if_neg hamount.ne', shl_eq]
  simp only [if_true, ge_iff_le, mul256_div_eq_iff hamount, nextFromAmount0Fallback_eq hp hamount]
  by_cases hproduct : amount * p < 2 ^ 256
  · rw [if_pos hproduct, mul256_exact hproduct]
    simp only [le_add256_iff hproduct]
    split
    · rename_i hsum
      rw [add256_exact hsum, mulDivRoundingUp_eq_ceilDiv _ _ (by positivity)]
    · rfl
  · rw [if_neg hproduct, if_neg (by omega)]

/-- The subtract branch of the amount0 routine: the masked test lets through the products that are exact (R194). -/
theorem nextFromAmount0RoundingUp_sub {p liq : Nat} (hliq : 0 < liq) (amount : Nat) :
    nextFromAmount0RoundingUp p liq amount false =
      if amount * p < 2 ^ 256 ∧ amount * p < liq * 2 ^ 96 then
        .ok (ceilDiv (liq * 2 ^ 96 * p) (liq * 2 ^ 96 - amount * p))
      else .error .precond := by
  have hnum : 0 < liq * 2 ^ 96 := by positivity
  rcases Nat.eq_zero_or_pos amount with rfl | hamount
  · rw [Nat.zero_mul, if_pos ⟨by decide, hnum⟩, Nat.sub_zero, mul_ceilDiv_cancel_left hnum]
    rfl
  rw [nextFromAmount0RoundingUp, if_neg hamount.ne', shl_eq]
  simp only [Bool.false_eq_true, if_false, gt_iff_lt, mul256_div_eq_iff hamount, ite_and]
  by_cases hproduct : amount * p < 2 ^ 256
  · rw [if_pos hproduct, if_pos hproduct, mul256_exact hproduct]
    split
    · rename_i hlt
      exact mulDivRoundingUp_eq_ceilDiv _ _ (Nat.sub_pos_of_lt hlt)
    · rfl
  · rw [if_neg hproduct, if_neg hproduct]

/-- Both forms of the quotient of the amount1 routine are one number (R195). -/
theorem nextFromAmount1RoundingDown_add {liq : Nat} (hliq : 0 < liq) (p amount : Nat) :
    nextFromAmount1RoundingDown p liq amount true = .ok (p + amount * 2 ^ 96 / liq) := by
  have hquotient : amount1AddQuotient liq amount = .ok (amount * 2 ^ 96 / liq) := by
    unfold amount1AddQuotient
    split <;> exact divide_pos _ hliq
  rw [nextFromAmount1RoundingDown, if_pos rfl, hquotient, except_map_value]

/-- The subtract branch of the amount1 routine, with its strict assertion (R195). -/
theorem nextFromAmount1RoundingDown_sub {liq : Nat} (hliq : 0 < liq) (p amount : Nat) :
    nextFromAmount1RoundingDown p liq amount false =
      if ceilDiv (amount * 2 ^ 96) liq < p then .ok (p - ceilDiv (amount * 2 ^ 96) liq) else .error .precond := by
  rw [nextFromAmount1RoundingDown, if_neg nofun, mulDivRoundingUp_eq_ceilDiv _ _ hliq, except_ok_bind]

theorem getNextSqrtPriceFromInput_of_zero {p liq : Nat} (h : p = 0 ∨ liq = 0) (amount : Nat) (zfo : Bool) :
    getNextSqrtPriceFromInput p liq amount zfo = .error .precond := by
  unfold getNextSqrtPriceFromInput
  rcases h with rfl | rfl
  · rfl
  · split <;> rfl

theorem getNextSqrtPriceFromOutput_of_zero {p liq : Nat} (h : p = 0 ∨ liq = 0) (amount : Nat) (zfo : Bool) :
    getNextSqrtPriceFromOutput p liq amount zfo = .error .precond := by
  unfold getNextSqrtPriceFromOutput
  rcases h with rfl | rfl
  · rfl
  · split <;> rfl

/-- Which routine serves an input (R190, R196). -/
theorem getNextSqrtPriceFromInput_of_pos {p liq : Nat} (hp : 0 < p) (hliq : 0 < liq) (amount : Nat) (zfo : Bool) :
    getNextSqrtPriceFromInput p liq amount zfo =
      if zfo then nextFromAmount0RoundingUp p liq amount true else nextFromAmount1RoundingDown p liq amount true := by
  rw [getNextSqrtPriceFromInput, if_neg hp.ne', if_neg hliq.ne']

/-- Which routine serves an output (R192, R196). -/
theorem getNextSqrtPriceFromOutput_of_pos {p liq : Nat} (hp : 0 < p) (hliq : 0 < liq) (amount : Nat) (zfo : Bool) :
    getNextSqrtPriceFromOutput p liq amount zfo =
      if zfo then nextFromAmount1RoundingDown p liq amount false
      else nextFromAmount0RoundingUp p liq amount false := by
  rw [getNextSqrtPriceFromOutput, if_neg hp.ne', if_neg hliq.ne']

theorem getNextSqrtPriceFromInput_zfo {p liq : Nat} (hp : 0 < p) (hliq : 0 < liq) (amount : Nat) :
    getNextSqrtPriceFromInput p liq amount true = .ok (priceAfterAmount0In p liq amount) :=
  (getNextSqrtPriceFromInput_of_pos hp hliq amount true).trans (nextFromAmount0RoundingUp_add hp hliq amount)

theorem getNextSqrtPriceFromInput_ofz {p liq : Nat} (hp : 0 < p) (hliq : 0 < liq) (amount : Nat) :
    getNextSqrtPriceFromInput p liq amount false = .ok (p + amount * 2 ^ 96 / liq) :=
  (getNextSqrtPriceFromInput_of_pos hp hliq amount false).trans (nextFromAmount1RoundingDown_add hliq p amount)

theorem getNextSqrtPriceFromOutput_zfo {p liq : Nat} (hp : 0 < p) (hliq : 0 < liq) (amount : Nat) :
    getNextSqrtPriceFromOutput p liq amount true =
      if ceilDiv (amount * 2 ^ 96) liq < p then .ok (p - ceilDiv (amount * 2 ^ 96) liq) else .error .precond :=
  (getNextSqrtPriceFromOutput_of_pos hp hliq amount true).trans (nextFromAmount1RoundingDown_sub hliq p amount)

theorem getNextSqrtPriceFromOutput_ofz {p liq : Nat} (hp : 0 < p) (hliq : 0 < liq) (amount : Nat) :
    getNextSqrtPriceFromOutput p liq amount false =
      if amount * p < 2 ^ 256 ∧ amount * p < liq * 2 ^ 96 then
        .ok (ceilDiv (liq * 2 ^ 96 * p) (liq * 2 ^ 96 - amount * p))
      else .error .precond :=
  (getNextSqrtPriceFromOutput_of_pos hp hliq amount false).trans (nextFromAmount0RoundingUp_sub hliq amount)

end NextPrice

/-! ### The way the price moves -/

section Direction

/-- Paying token0 in does not raise the price, whichever formula serves it (R196). -/
theorem priceAfterAmount0In_le {p liq : Nat} (hp : 0 < p) (hliq : 0 < liq) (amount : Nat) :
    priceAfterAmount0In p liq amount ≤ p := by
  unfold priceAfterAmount0In
  split
  · exact le_rfl
  rename_i hamount
  have hamount : 0 < amount := Nat.pos_of_ne_zero hamount
  split
  · rw [ceilDiv_le_iff (by positivity)]
    exact Nat.mul_le_mul_right p (Nat.le_add_right _ _)
  · rw [ceilDiv_le_iff (Nat.add_pos_right _ hamount), Nat.mul_comm _ p]
    have hquotient : liq * 2 ^ 96 < p * (liq * 2 ^ 96 / p + 1) := Nat.lt_mul_div_succ _ hp
    exact hquotient.le.trans (Nat.mul_le_mul_left p (Nat.add_le_add_left hamount _))

theorem priceAfterAmount0In_pos {p liq : Nat} (hp : 0 < p) (hliq : 0 < liq) (amount : Nat) :
    0 < priceAfterAmount0In p liq amount := by
  unfold priceAfterAmount0In
  split
  · exact hp
  rename_i hamount
  have hamount : 0 < amount := Nat.pos_of_ne_zero hamount
  split <;> exact ceilDiv_pos (by positivity) (by positivity)

/-- An amount too small to reach `q` leaves the price above `q`, whichever formula serves it. -/
theorem lt_priceAfterAmount0In {p q liq amount : Nat} (hp : 0 < p) (hq : q ≤ p)
    (h : p * q * amount < liq * 2 ^ 96 * (p - q)) : q < priceAfterAmount0In p liq amount := by
  have hnum : q * (liq * 2 ^ 96 + amount * p) < p * (liq * 2 ^ 96) := by
    obtain ⟨d, rfl⟩ := Nat.exists_eq_add_of_le hq
    rw [Nat.add_sub_cancel_left] at h
    linarith
  have hliq : 0 < liq * 2 ^ 96 := Nat.pos_of_mul_pos_right (Nat.zero_lt_of_lt h)
  unfold priceAfterAmount0In
  generalize liq * 2 ^ 96 = n at *
  split
  · subst amount
    rw [Nat.zero_mul, Nat.add_zero] at hnum
    exact Nat.lt_of_mul_lt_mul_right hnum
  rename_i hamount
  have hamount : 0 < amount := Nat.pos_of_ne_zero hamount
  split
  · rw [lt_ceilDiv_iff (by positivity)]
    linarith
  · rw [lt_ceilDiv_iff (by positivity)]
    have hquotient : p * (n / p) ≤ n := Nat.mul_div_le n p
    refine Nat.lt_of_mul_lt_mul_left (a := p) ?_
    calc p * ((n / p + amount) * q) = (p * (n / p) + amount * p) * q := by ring
      _ ≤ (n + amount * p) * q := Nat.mul_le_mul_right q (Nat.add_le_add_right hquotient _)
      _ < p * n := by rwa [Nat.mul_comm _ q]

/-- Taking token0 out does not lower the price: the divisor of its formula is at most `n` (R196). -/
theorem le_ceilDiv_sub {n p m : Nat} (h : m < n) : p ≤ ceilDiv (n * p) (n - m) := by
  have hreach := le_ceilDiv_mul (n * p) (Nat.sub_pos_of_lt h)
  have hshrink := Nat.mul_le_mul_left (ceilDiv (n * p) (n - m)) (Nat.sub_le n m)
  refine Nat.le_of_mul_le_mul_right (c := n) ?_ (by omega)
  rw [Nat.mul_comm p n]
  exact hreach.trans hshrink

end Direction

end Sys2Proof.Machine

namespace Sys2Proof.Machine

/-! ### From the operands to the command -/

section PriceCommands

/-- A command's checks are the widths of the port (R266). -/
theorem operandsAccepted_iff (i : Instr) (s : State) :
    s.operandsAccepted (commandChecks i) = true ↔ operandsInWidth i s := by
  cases i <;> simp [commandChecks, operandsInWidth, priceOperand, liquidityOperand, feeOperand, maxUint160, maxUint128,
    Config.priceBits, Config.liqBits]

/-- An operand past its width fails the command with `OPERAND` (R266, R269 step 3). -/
theorem exec_of_not_inWidth {i : Instr} {s : State} (h : ¬ operandsInWidth i s) :
    exec i s = .next (failedWith s .operand) := by
  have hi : i ≠ .clrf := by
    rintro rfl
    exact h trivial
  exact exec_of_refused hi (Bool.eq_false_iff.mpr fun hacc => h ((operandsAccepted_iff i s).mp hacc))

/-- Within the widths, a failed assertion of the function is the command's (R269 step 4). -/
theorem exec_of_precond {i : Instr} {s : State} (hi : i ≠ .clrf) (hwidth : operandsInWidth i s)
    (hf : commandFunction i s = .error .precond) : exec i s = .next (failedWith s .precond) :=
  exec_of_error hi ((operandsAccepted_iff i s).mpr hwidth) hf

/-- Within the widths, a single amount that fits 256 bits goes to `Y[0]` (R267). -/
theorem exec_of_amount {i : Instr} {s : State} {n : Nat} (hi : i ≠ .clrf) (hwidth : operandsInWidth i s)
    (hf : commandFunction i s = .ok [.unsigned n]) (hn : n < 2 ^ 256) :
    exec i s = .next (succeeded s #v[word n, 0, 0, 0]) :=
  exec_of_unsigned hi ((operandsAccepted_iff i s).mpr hwidth) hf (Nat.le_sub_one_of_lt hn)

/-- Within the widths, a single price that fits 160 bits goes to `Y[0]` (R267). -/
theorem exec_of_price {i : Instr} {s : State} {n : Nat} (hi : i ≠ .clrf) (hwidth : operandsInWidth i s)
    (hf : commandFunction i s = .ok [.price n]) (hn : n ≤ 2 ^ 160 - 1) :
    exec i s = .next (succeeded s #v[word n, 0, 0, 0]) :=
  exec_of_fit hi ((operandsAccepted_iff i s).mpr hwidth) hf ((price_fits n).trans (decide_eq_true hn)) (price_word n)

/-- Within the widths, a single price past 160 bits fails the command with `RESULT` (R267). -/
theorem exec_of_price_large {i : Instr} {s : State} {n : Nat} (hi : i ≠ .clrf) (hwidth : operandsInWidth i s)
    (hf : commandFunction i s = .ok [.price n]) (hn : 2 ^ 160 - 1 < n) :
    exec i s = .next (failedWith s .result) := by
  refine exec_of_unfit hi ((operandsAccepted_iff i s).mpr hwidth) hf ?_
  rw [List.all_cons, price_fits, decide_eq_false (not_le.mpr hn), Bool.false_and]

theorem commandFunction_amt0delta (roundUp : Bool) (s : State) :
    commandFunction (.amt0delta roundUp) s =
      (getAmount0Delta (s.xUnsigned 0) (s.xUnsigned 1) (s.xUnsigned 2) roundUp).map
        fun (r : Nat) => [.unsigned r] := rfl

theorem commandFunction_amt1delta (roundUp : Bool) (s : State) :
    commandFunction (.amt1delta roundUp) s =
      (getAmount1Delta (s.xUnsigned 0) (s.xUnsigned 1) (s.xUnsigned 2) roundUp).map
        fun (r : Nat) => [.unsigned r] := rfl

theorem commandFunction_nextpin (zfo : Bool) (s : State) :
    commandFunction (.nextpin zfo) s =
      (getNextSqrtPriceFromInput (s.xUnsigned 0) (s.xUnsigned 1) (s.xUnsigned 2) zfo).map
        fun (r : Nat) => [.price r] := rfl

theorem commandFunction_nextpout (zfo : Bool) (s : State) :
    commandFunction (.nextpout zfo) s =
      (getNextSqrtPriceFromOutput (s.xUnsigned 0) (s.xUnsigned 1) (s.xUnsigned 2) zfo).map
        fun (r : Nat) => [.price r] := rfl

end PriceCommands

end Sys2Proof.Machine

namespace Sys2Proof.Proofs

open Sys2Proof.Machine

/-- Settles O18: between positive prices both roundings are one quotient over the product of the prices. -/
theorem amt0RoundingsDifferByAtMostOne : Obligations.Amt0RoundingsDifferByAtMostOne := by
  intro a b liq roundUp
  refine ⟨?_, fun ha => ?_, fun ha hb => ?_, fun ha hb => ?_⟩
  · by_cases hzero : a = 0 ∨ b = 0
    · rw [getAmount0Delta_of_zero hzero, getAmount0Delta_of_zero hzero.symm]
    · have ha : 0 < a := by omega
      have hb : 0 < b := by omega
      rw [getAmount0Delta_of_pos ha hb, getAmount0Delta_of_pos hb ha, amount0Exact_comm]
  · rw [getAmount0Delta_of_pos ha ha, amount0Exact_of_num_zero ha ha (by simp)]
  · rw [getAmount0Delta_of_pos ha hb, amount0Exact_of_num_zero ha hb (by simp)]
  · exact ⟨_, _, getAmount0Delta_of_pos ha hb liq false, getAmount0Delta_of_pos ha hb liq true,
      amount0Exact_up_eq_or ha hb liq⟩

/-- Settles O17: a zero price fails the function; otherwise it answers the exact amount, which fits. -/
theorem amt0DeltaReturnsTheAmount : Obligations.Amt0DeltaReturnsTheAmount := by
  refine ⟨rfl, rfl, fun s roundUp => ⟨fun hwide => exec_of_not_inWidth hwide, fun hwidth hzero => ?_,
    fun hwidth hp hq => ?_⟩⟩
  · refine exec_of_precond nofun hwidth ?_
    rw [commandFunction_amt0delta, getAmount0Delta_of_zero hzero, except_map_error]
  · have ⟨_, _, hliq⟩ := hwidth
    have hfit := amount0Exact_lt (Nat.pos_of_ne_zero hp) (Nat.pos_of_ne_zero hq) hliq roundUp
    refine ⟨hfit, exec_of_amount nofun hwidth ?_ (hfit.trans (by decide))⟩
    rw [commandFunction_amt0delta, getAmount0Delta_of_pos (Nat.pos_of_ne_zero hp) (Nat.pos_of_ne_zero hq),
      except_map_value]

/-- Settles O19: the function always answers the exact amount, which fits. -/
theorem amt1DeltaReturnsTheAmount : Obligations.Amt1DeltaReturnsTheAmount := by
  refine ⟨rfl, rfl, fun s roundUp => ⟨fun hwide => exec_of_not_inWidth hwide, fun hwidth => ?_⟩⟩
  have ⟨hp, hq, hliq⟩ := hwidth
  have hfit := amount1Exact_lt hp hq hliq roundUp
  refine ⟨hfit, exec_of_amount nofun hwidth ?_ (hfit.trans (by decide))⟩
  rw [commandFunction_amt1delta, getAmount1Delta_eq, except_map_value]

/-- Settles O20: both forms of the quotient are one number, and the price it is added to may pass 160 bits. -/
theorem nextPInOneForZero : Obligations.NextPInOneForZero := by
  intro s
  have hvalue (hp : s.xUnsigned 0 ≠ 0) (hliq : s.xUnsigned 1 ≠ 0) : commandFunction (.nextpin false) s =
      .ok [.price (s.xUnsigned 0 + s.xUnsigned 2 * 2 ^ 96 / s.xUnsigned 1 : Nat)] := by
    rw [commandFunction_nextpin, getNextSqrtPriceFromInput_ofz (Nat.pos_of_ne_zero hp) (Nat.pos_of_ne_zero hliq),
      except_map_value]
  refine ⟨fun hwide => exec_of_not_inWidth hwide, fun hwidth hzero => ?_, fun hwidth hp hliq hfit => ?_,
    fun hwidth hp hliq hlarge => ?_⟩
  · refine exec_of_precond nofun hwidth ?_
    rw [commandFunction_nextpin, getNextSqrtPriceFromInput_of_zero hzero, except_map_error]
  · exact exec_of_price nofun hwidth (hvalue hp hliq) hfit
  · exact exec_of_price_large nofun hwidth (hvalue hp hliq) hlarge

/-- Settles O21: the masked tests take the first formula exactly when nothing wraps, and both formulas stay between 1
and the price. -/
theorem nextPInZeroForOne : Obligations.NextPInZeroForOne := by
  refine fun s => ⟨fun hwide => exec_of_not_inWidth hwide, fun hwidth hzero => ?_, fun hwidth hp hliq => ?_⟩
  · refine exec_of_precond nofun hwidth ?_
    rw [commandFunction_nextpin, getNextSqrtPriceFromInput_of_zero hzero, except_map_error]
  · have hp := Nat.pos_of_ne_zero hp
    have hliq := Nat.pos_of_ne_zero hliq
    have hle := priceAfterAmount0In_le hp hliq (s.xUnsigned 2)
    have ⟨hprice, _⟩ := hwidth
    refine ⟨priceAfterAmount0In_pos hp hliq _, hle,
      exec_of_price nofun hwidth ?_ (hle.trans hprice)⟩
    rw [commandFunction_nextpin, getNextSqrtPriceFromInput_zfo hp hliq, except_map_value]
    rfl

/-- Settles O22: the strict assertion of the subtract branch is the only failure that is left, and a lower price
fits. -/
theorem nextPOutZeroForOne : Obligations.NextPOutZeroForOne := by
  refine fun s => ⟨fun hwide => exec_of_not_inWidth hwide, fun hwidth hfail => ?_, fun hwidth hp hliq hlt => ?_⟩
  · refine exec_of_precond nofun hwidth ?_
    rw [commandFunction_nextpout]
    by_cases hzero : s.xUnsigned 0 = 0 ∨ s.xUnsigned 1 = 0
    · rw [getNextSqrtPriceFromOutput_of_zero hzero, except_map_error]
    · obtain ⟨hp, hliq⟩ := not_or.mp hzero
      have hreached := (or_assoc.mpr hfail).resolve_left hzero
      rw [getNextSqrtPriceFromOutput_zfo (Nat.pos_of_ne_zero hp) (Nat.pos_of_ne_zero hliq),
        if_neg (not_lt.mpr hreached), except_map_error]
  · have ⟨hprice, _⟩ := hwidth
    refine exec_of_price nofun hwidth ?_ ((Nat.sub_le _ _).trans hprice)
    rw [commandFunction_nextpout, getNextSqrtPriceFromOutput_zfo (Nat.pos_of_ne_zero hp) (Nat.pos_of_ne_zero hliq),
      if_pos hlt, except_map_value]

/-- Settles O23: a product below `L * 2^96` does not wrap, so the masked test is the comparison with the exact
product. -/
theorem nextPOutOneForZero : Obligations.NextPOutOneForZero := by
  intro s
  have hvalue (hp : s.xUnsigned 0 ≠ 0) (hliq : s.xUnsigned 1 ≠ 0) (hwidth : s.xUnsigned 1 ≤ 2 ^ 128 - 1)
      (hlt : s.xUnsigned 2 * s.xUnsigned 0 < s.xUnsigned 1 * 2 ^ 96) : commandFunction (.nextpout false) s =
      .ok [.price (ceilDiv (s.xUnsigned 1 * 2 ^ 96 * s.xUnsigned 0)
        (s.xUnsigned 1 * 2 ^ 96 - s.xUnsigned 2 * s.xUnsigned 0) : Nat)] := by
    have hexact : s.xUnsigned 2 * s.xUnsigned 0 < 2 ^ 256 := by omega
    rw [commandFunction_nextpout, getNextSqrtPriceFromOutput_ofz (Nat.pos_of_ne_zero hp) (Nat.pos_of_ne_zero hliq),
      if_pos ⟨hexact, hlt⟩, except_map_value]
  refine ⟨fun hwide => exec_of_not_inWidth hwide, fun hwidth hfail => ?_, fun hwidth hp hliq hlt hfit => ?_,
    fun hwidth hp hliq hlt hlarge => ?_⟩
  · refine exec_of_precond nofun hwidth ?_
    rw [commandFunction_nextpout]
    by_cases hzero : s.xUnsigned 0 = 0 ∨ s.xUnsigned 1 = 0
    · rw [getNextSqrtPriceFromOutput_of_zero hzero, except_map_error]
    · obtain ⟨hp, hliq⟩ := not_or.mp hzero
      have hreached := (or_assoc.mpr hfail).resolve_left hzero
      rw [getNextSqrtPriceFromOutput_ofz (Nat.pos_of_ne_zero hp) (Nat.pos_of_ne_zero hliq),
        if_neg fun hlt => absurd hlt.2 (not_lt.mpr hreached), except_map_error]
  · exact exec_of_price nofun hwidth (hvalue hp hliq hwidth.2 hlt) hfit
  · exact exec_of_price_large nofun hwidth (hvalue hp hliq hwidth.2 hlt) hlarge

/-- Settles O24, routine by routine. -/
theorem priceMovesInItsDirection : Obligations.PriceMovesInItsDirection := by
  intro p liq amount r hp hliq
  refine ⟨⟨getNextSqrtPriceFromInput_of_pos hp hliq amount true, fun h => ?_⟩,
    ⟨getNextSqrtPriceFromInput_of_pos hp hliq amount false, fun h => ?_⟩,
    ⟨getNextSqrtPriceFromOutput_of_pos hp hliq amount true, fun h => ?_⟩,
    ⟨getNextSqrtPriceFromOutput_of_pos hp hliq amount false, fun h => ?_⟩⟩
  · rw [getNextSqrtPriceFromInput_zfo hp hliq] at h
    obtain rfl := Except.ok.inj h
    exact priceAfterAmount0In_le hp hliq amount
  · rw [getNextSqrtPriceFromInput_ofz hp hliq] at h
    obtain rfl := Except.ok.inj h
    exact Nat.le_add_right p _
  · rw [getNextSqrtPriceFromOutput_zfo hp hliq] at h
    split at h
    · obtain rfl := Except.ok.inj h
      exact ⟨Nat.sub_le p _, fun hamount => Nat.sub_lt hp (ceilDiv_pos (by positivity) hliq)⟩
    · cases h
  · rw [getNextSqrtPriceFromOutput_ofz hp hliq] at h
    split at h
    · rename_i hbound
      obtain rfl := Except.ok.inj h
      exact le_ceilDiv_sub hbound.2
    · cases h

end Sys2Proof.Proofs
end

section
/-!
SUPPORT. The values of a swap step and its failures on zero prices (`46_swap_step.md` R210, R213). The layers, in
order: the only failure, the stages of a step that answers, steps that stop short of the target; the statements settled
from them stand last.
-/

namespace Sys2Proof.Machine

/-! ### The only failure of a swap step -/

section OnlyPrecond

/-- A function-layer computation answers a value or is the failure of an assertion. -/
def AnswersOrPrecond {α : Type} (e : Except Tag α) : Prop :=
  e = .error .precond ∨ ∃ a, e = .ok a

theorem answersOrPrecond_ok {α : Type} (a : α) : AnswersOrPrecond (.ok a) := .inr ⟨a, rfl⟩

theorem answersOrPrecond_precond {α : Type} : AnswersOrPrecond (.error .precond : Except Tag α) := .inl rfl

theorem AnswersOrPrecond.bind {α β : Type} {e : Except Tag α} {f : α → Except Tag β} (he : AnswersOrPrecond e)
    (hf : ∀ a, AnswersOrPrecond (f a)) : AnswersOrPrecond (e >>= f) := by
  rcases he with rfl | ⟨a, rfl⟩
  · exact answersOrPrecond_precond
  · exact hf a

theorem AnswersOrPrecond.map {α β : Type} {e : Except Tag α} (he : AnswersOrPrecond e) (f : α → β) :
    AnswersOrPrecond (e.map f) := by
  rcases he with rfl | ⟨a, rfl⟩
  · exact answersOrPrecond_precond
  · exact answersOrPrecond_ok (f a)

theorem answersOrPrecond_ite {α : Type} {p : Prop} [Decidable p] {e e' : Except Tag α} (he : AnswersOrPrecond e)
    (he' : AnswersOrPrecond e') : AnswersOrPrecond (if p then e else e') := by
  split
  · exact he
  · exact he'

theorem getAmount0Delta_answersOrPrecond (a b liq : Nat) (roundUp : Bool) :
    AnswersOrPrecond (getAmount0Delta a b liq roundUp) := by
  by_cases hzero : a = 0 ∨ b = 0
  · exact .inl (getAmount0Delta_of_zero hzero liq roundUp)
  · obtain ⟨ha, hb⟩ := not_or.mp hzero
    exact .inr ⟨_, getAmount0Delta_of_pos (Nat.pos_of_ne_zero ha) (Nat.pos_of_ne_zero hb) liq roundUp⟩

theorem getAmount1Delta_answersOrPrecond (a b liq : Nat) (roundUp : Bool) :
    AnswersOrPrecond (getAmount1Delta a b liq roundUp) :=
  .inr ⟨_, getAmount1Delta_eq a b liq roundUp⟩

theorem amountInBetween_answersOrPrecond (zfo : Bool) (cur price liq : Nat) :
    AnswersOrPrecond (amountInBetween zfo cur price liq) :=
  answersOrPrecond_ite (getAmount0Delta_answersOrPrecond ..) (getAmount1Delta_answersOrPrecond ..)

theorem amountOutBetween_answersOrPrecond (zfo : Bool) (cur price liq : Nat) :
    AnswersOrPrecond (amountOutBetween zfo cur price liq) :=
  answersOrPrecond_ite (getAmount1Delta_answersOrPrecond ..) (getAmount0Delta_answersOrPrecond ..)

theorem getNextSqrtPriceFromInput_answersOrPrecond (p liq amount : Nat) (zfo : Bool) :
    AnswersOrPrecond (getNextSqrtPriceFromInput p liq amount zfo) := by
  by_cases hzero : p = 0 ∨ liq = 0
  · exact .inl (getNextSqrtPriceFromInput_of_zero hzero amount zfo)
  have hp : 0 < p := by omega
  have hliq : 0 < liq := by omega
  cases zfo
  · exact .inr ⟨_, getNextSqrtPriceFromInput_ofz hp hliq amount⟩
  · exact .inr ⟨_, getNextSqrtPriceFromInput_zfo hp hliq amount⟩

theorem getNextSqrtPriceFromOutput_answersOrPrecond (p liq amount : Nat) (zfo : Bool) :
    AnswersOrPrecond (getNextSqrtPriceFromOutput p liq amount zfo) := by
  by_cases hzero : p = 0 ∨ liq = 0
  · exact .inl (getNextSqrtPriceFromOutput_of_zero hzero amount zfo)
  have hp : 0 < p := by omega
  have hliq : 0 < liq := by omega
  cases zfo
  · rw [getNextSqrtPriceFromOutput_ofz hp hliq]
    exact answersOrPrecond_ite (answersOrPrecond_ok _) answersOrPrecond_precond
  · rw [getNextSqrtPriceFromOutput_zfo hp hliq]
    exact answersOrPrecond_ite (answersOrPrecond_ok _) answersOrPrecond_precond

theorem swapNextPrice_answersOrPrecond (zfo exactIn : Bool) (cur tgt liq amount fee toTarget : Nat) :
    AnswersOrPrecond (swapNextPrice zfo exactIn cur tgt liq amount fee toTarget) :=
  answersOrPrecond_ite
    (answersOrPrecond_ite (answersOrPrecond_ok _) (getNextSqrtPriceFromInput_answersOrPrecond ..))
    (answersOrPrecond_ite (answersOrPrecond_ok _) (getNextSqrtPriceFromOutput_answersOrPrecond ..))

theorem mulDivRoundingUp_answersOrPrecond (a b d : Nat) : AnswersOrPrecond (mulDivRoundingUp a b d) :=
  answersOrPrecond_ite answersOrPrecond_precond (answersOrPrecond_ok _)

theorem swapFee_answersOrPrecond (exactIn : Bool) (tgt amount fee next amountIn : Nat) :
    AnswersOrPrecond (swapFee exactIn tgt amount fee next amountIn) := by
  unfold swapFee
  exact answersOrPrecond_ite (answersOrPrecond_ok _) ((mulDivRoundingUp_answersOrPrecond ..).map _)

/-- Every failure of a swap step is a callee's assertion (R213). -/
theorem computeSwapStep_answersOrPrecond (cur tgt liq : Nat) (rem : Int) (fee : Nat) :
    AnswersOrPrecond (computeSwapStep cur tgt liq rem fee) := by
  unfold computeSwapStep
  refine AnswersOrPrecond.bind ?_ fun toTarget => (swapNextPrice_answersOrPrecond ..).bind fun next =>
    AnswersOrPrecond.bind ?_ fun amountIn => AnswersOrPrecond.bind ?_ fun amountOut =>
      (swapFee_answersOrPrecond ..).map _
  · exact answersOrPrecond_ite (amountInBetween_answersOrPrecond ..) (amountOutBetween_answersOrPrecond ..)
  · exact answersOrPrecond_ite (answersOrPrecond_ok _) (amountInBetween_answersOrPrecond ..)
  · exact answersOrPrecond_ite (answersOrPrecond_ok _) (amountOutBetween_answersOrPrecond ..)

end OnlyPrecond

/-! ### The amounts of a move -/

section Move

theorem amountInBetween_zfo (cur price liq : Nat) :
    amountInBetween true cur price liq = getAmount0Delta price cur liq true := rfl

theorem amountInBetween_ofz (cur price liq : Nat) :
    amountInBetween false cur price liq = getAmount1Delta cur price liq true := rfl

theorem amountOutBetween_zfo (cur price liq : Nat) :
    amountOutBetween true cur price liq = getAmount1Delta price cur liq false := rfl

theorem amountOutBetween_ofz (cur price liq : Nat) :
    amountOutBetween false cur price liq = getAmount0Delta cur price liq false := rfl

/-- The exact amount in of a move: token0 when the price falls, else token1, rounded up (R210). -/
def exactAmountIn (zfo : Bool) (cur price liq : Nat) : Nat :=
  if zfo then amount0Exact true cur price liq else amount1Exact true cur price liq

/-- The exact amount out of a move: token1 when the price falls, else token0, rounded down (R210). -/
def exactAmountOut (zfo : Bool) (cur price liq : Nat) : Nat :=
  if zfo then amount1Exact false cur price liq else amount0Exact false cur price liq

theorem exactAmountIn_zfo (cur price liq : Nat) :
    exactAmountIn true cur price liq = amount0Exact true cur price liq := if_pos rfl

theorem exactAmountIn_ofz (cur price liq : Nat) :
    exactAmountIn false cur price liq = amount1Exact true cur price liq := if_neg nofun

theorem exactAmountOut_zfo (cur price liq : Nat) :
    exactAmountOut true cur price liq = amount1Exact false cur price liq := if_pos rfl

theorem exactAmountOut_ofz (cur price liq : Nat) :
    exactAmountOut false cur price liq = amount0Exact false cur price liq := if_neg nofun

/-- An amount in that is answered is the exact one; a falling price has neither end at 0. -/
theorem amountInBetween_ok {zfo : Bool} {cur price liq n : Nat} (h : amountInBetween zfo cur price liq = .ok n) :
    n = exactAmountIn zfo cur price liq ∧ (zfo = true → 0 < cur ∧ 0 < price) := by
  cases zfo
  · rw [amountInBetween_ofz, getAmount1Delta_eq, ← exactAmountIn_ofz] at h
    exact ⟨(Except.ok.inj h).symm, nofun⟩
  · rw [amountInBetween_zfo] at h
    obtain ⟨hprice, hcur, rfl⟩ := getAmount0Delta_ok h
    exact ⟨(amount0Exact_comm ..).trans (exactAmountIn_zfo ..).symm, fun _ => ⟨hcur, hprice⟩⟩

/-- An amount out that is answered is the exact one; a rising price has neither end at 0. -/
theorem amountOutBetween_ok {zfo : Bool} {cur price liq n : Nat} (h : amountOutBetween zfo cur price liq = .ok n) :
    n = exactAmountOut zfo cur price liq ∧ (zfo = false → 0 < cur ∧ 0 < price) := by
  cases zfo
  · rw [amountOutBetween_ofz] at h
    obtain ⟨hcur, hprice, rfl⟩ := getAmount0Delta_ok h
    exact ⟨(exactAmountOut_ofz ..).symm, fun _ => ⟨hcur, hprice⟩⟩
  · rw [amountOutBetween_zfo, getAmount1Delta_eq, amount1Exact_comm, ← exactAmountOut_zfo] at h
    exact ⟨(Except.ok.inj h).symm, nofun⟩

end Move

/-! ### The stages of a swap step -/

section Stages

variable {zfo exactIn : Bool} {cur tgt liq amount fee toTarget out next amountIn : Nat} {r : SwapStep}

/-- Keeping the stage-1 amount in is recomputing it (R210). -/
theorem swapAmountIn_eq_between (h : amountToTarget zfo exactIn cur tgt liq = .ok toTarget) (next : Nat) :
    swapAmountIn zfo exactIn cur tgt liq next toTarget = amountInBetween zfo cur next liq := by
  unfold swapAmountIn
  split
  · rename_i hkept
    obtain ⟨rfl, rfl⟩ := hkept
    exact h.symm
  · rfl

/-- Keeping the stage-1 amount out is recomputing it (R210). -/
theorem swapAmountOut_eq_between (h : amountToTarget zfo exactIn cur tgt liq = .ok toTarget) (next : Nat) :
    swapAmountOut zfo exactIn cur tgt liq next toTarget = amountOutBetween zfo cur next liq := by
  unfold swapAmountOut
  split
  · rename_i hkept
    obtain ⟨rfl, rfl⟩ := hkept
    exact h.symm
  · rfl

theorem swapNextPrice_exactIn_covered (h : toTarget ≤ lessFee amount fee) :
    swapNextPrice zfo true cur tgt liq amount fee toTarget = .ok tgt := if_pos h

theorem swapNextPrice_exactIn_short (h : lessFee amount fee < toTarget) :
    swapNextPrice zfo true cur tgt liq amount fee toTarget =
      getNextSqrtPriceFromInput cur liq (lessFee amount fee) zfo := if_neg (not_le.mpr h)

theorem swapNextPrice_exactOut_covered (h : toTarget ≤ amount) :
    swapNextPrice zfo false cur tgt liq amount fee toTarget = .ok tgt := if_pos h

theorem swapNextPrice_exactOut_short (h : amount < toTarget) :
    swapNextPrice zfo false cur tgt liq amount fee toTarget = getNextSqrtPriceFromOutput cur liq amount zfo :=
  if_neg (not_le.mpr h)

/-- In exact-in mode nothing is cut. -/
theorem swapClamp_exactIn (amount out : Nat) : swapClamp true amount out = out := if_neg nofun

/-- In exact-out mode the amount out is cut to the request. -/
theorem swapClamp_exactOut (amount out : Nat) : swapClamp false amount out = min out amount := by
  simp only [swapClamp, true_and]
  split <;> omega

/-- The fee where it is charged on the amount in (R210). -/
theorem swapFee_charged (hfee : fee < 1000000) (h : next = tgt ∨ exactIn = false) :
    swapFee exactIn tgt amount fee next amountIn = .ok (ceilDiv (amountIn * fee) (1000000 - fee) : Nat) := by
  have hcharged : ¬ (exactIn = true ∧ next ≠ tgt) := by
    rintro ⟨rfl, hne⟩
    exact h.elim hne nofun
  have hdenominator : 0 < maxFee - fee := Nat.sub_pos_of_lt hfee
  rw [swapFee, if_neg hcharged, mulDivRoundingUp_eq_ceilDiv _ _ hdenominator, except_map_value]

/-- The fee where the whole remainder is kept (R210). -/
theorem swapFee_remainder (h : next ≠ tgt) :
    swapFee true tgt amount fee next amountIn = .ok ((amount : Int) - amountIn) :=
  if_pos ⟨rfl, h⟩

/-- The four stages of R210 with their values: what a swap step that answers `r` went through. -/
structure SwapStages (zfo exactIn : Bool) (cur tgt liq amount fee : Nat) (r : SwapStep) (toTarget out : Nat) :
    Prop where
  target_eq : amountToTarget zfo exactIn cur tgt liq = .ok toTarget
  next_eq : swapNextPrice zfo exactIn cur tgt liq amount fee toTarget = .ok r.sqrtNext
  amountIn_eq : amountInBetween zfo cur r.sqrtNext liq = .ok r.amountIn
  out_eq : amountOutBetween zfo cur r.sqrtNext liq = .ok out
  amountOut_eq : r.amountOut = swapClamp exactIn amount out
  fee_eq : swapFee exactIn tgt amount fee r.sqrtNext r.amountIn = .ok r.feeAmount

/-- A swap step answers exactly what its stages give. -/
theorem computeSwapStep_ok_iff {rem : Int} :
    computeSwapStep cur tgt liq rem fee = .ok r ↔
      ∃ toTarget out,
        SwapStages (decide (tgt ≤ cur)) (decide (0 ≤ rem)) cur tgt liq rem.natAbs fee r toTarget out := by
  constructor
  · intro h
    obtain ⟨toTarget, htarget, h⟩ := except_bind_ok h
    obtain ⟨next, hnext, h⟩ := except_bind_ok h
    obtain ⟨amountIn, hin, h⟩ := except_bind_ok h
    obtain ⟨out, hout, h⟩ := except_bind_ok h
    obtain ⟨feeAmount, hfee, rfl⟩ := except_map_ok h
    rw [swapAmountIn_eq_between htarget] at hin
    rw [swapAmountOut_eq_between htarget] at hout
    exact ⟨toTarget, out, htarget, hnext, hin, hout, rfl, hfee⟩
  · rintro ⟨toTarget, out, htarget, hnext, hin, hout, hclamp, hfee⟩
    rw [← swapAmountIn_eq_between htarget] at hin
    rw [← swapAmountOut_eq_between htarget] at hout
    simp only [computeSwapStep, ge_iff_le, htarget, hnext, hin, hout, hfee, ← hclamp, except_ok_bind,
      except_map_value]

/-- One of the two amounts is token0's, which no zero price has: a step that answers has neither (R213). -/
theorem SwapStages.prices_pos (h : SwapStages zfo exactIn cur tgt liq amount fee r toTarget out) :
    0 < cur ∧ 0 < r.sqrtNext := by
  cases zfo
  · obtain ⟨-, hpos⟩ := amountOutBetween_ok h.out_eq
    exact hpos rfl
  · obtain ⟨-, hpos⟩ := amountInBetween_ok h.amountIn_eq
    exact hpos rfl

/-- The next price of an exact-in step (R210). -/
theorem SwapStages.next_exactIn (h : SwapStages zfo true cur tgt liq amount fee r toTarget out) :
    (exactAmountIn zfo cur tgt liq ≤ lessFee amount fee → r.sqrtNext = tgt) ∧
    (lessFee amount fee < exactAmountIn zfo cur tgt liq →
      getNextSqrtPriceFromInput cur liq (lessFee amount fee) zfo = .ok r.sqrtNext) := by
  obtain ⟨rfl, -⟩ := amountInBetween_ok h.target_eq
  have hnext := h.next_eq
  refine ⟨fun hcovered => ?_, fun hshort => ?_⟩
  · rw [swapNextPrice_exactIn_covered hcovered] at hnext
    exact (Except.ok.inj hnext).symm
  · rwa [swapNextPrice_exactIn_short hshort] at hnext

/-- The next price of an exact-out step (R210). -/
theorem SwapStages.next_exactOut (h : SwapStages zfo false cur tgt liq amount fee r toTarget out) :
    (exactAmountOut zfo cur tgt liq ≤ amount → r.sqrtNext = tgt) ∧
    (amount < exactAmountOut zfo cur tgt liq →
      getNextSqrtPriceFromOutput cur liq amount zfo = .ok r.sqrtNext) := by
  obtain ⟨rfl, -⟩ := amountOutBetween_ok h.target_eq
  have hnext := h.next_eq
  refine ⟨fun hcovered => ?_, fun hshort => ?_⟩
  · rw [swapNextPrice_exactOut_covered hcovered] at hnext
    exact (Except.ok.inj hnext).symm
  · rwa [swapNextPrice_exactOut_short hshort] at hnext

theorem SwapStages.amountIn_exact (h : SwapStages zfo exactIn cur tgt liq amount fee r toTarget out) :
    r.amountIn = exactAmountIn zfo cur r.sqrtNext liq :=
  (amountInBetween_ok h.amountIn_eq).1

theorem SwapStages.amountOut_exact (h : SwapStages zfo exactIn cur tgt liq amount fee r toTarget out) :
    r.amountOut = swapClamp exactIn amount (exactAmountOut zfo cur r.sqrtNext liq) := by
  obtain ⟨hout, -⟩ := amountOutBetween_ok h.out_eq
  rw [h.amountOut_eq, hout]

theorem SwapStages.fee_charged (h : SwapStages zfo exactIn cur tgt liq amount fee r toTarget out)
    (hfee : fee < 1000000) (hcharged : r.sqrtNext = tgt ∨ exactIn = false) :
    r.feeAmount = ceilDiv (r.amountIn * fee) (1000000 - fee) :=
  (Except.ok.inj ((swapFee_charged hfee hcharged).symm.trans h.fee_eq)).symm

theorem SwapStages.fee_remainder (h : SwapStages zfo true cur tgt liq amount fee r toTarget out)
    (hne : r.sqrtNext ≠ tgt) : r.feeAmount = amount - r.amountIn :=
  (Except.ok.inj ((swapFee_remainder hne).symm.trans h.fee_eq)).symm

end Stages

/-! ### A step whose amount does not cover the target stops short of it -/

section StopsShort

theorem lt_exactAmountIn_zfo {cur tgt liq amount : Nat} (hcur : 0 < cur) (htgt : 0 < tgt) (hle : tgt ≤ cur)
    (h : amount < exactAmountIn true cur tgt liq) : cur * tgt * amount < liq * 2 ^ 96 * (cur - tgt) := by
  rw [exactAmountIn_zfo, amount0Exact_up hcur htgt, lt_ceilDiv_iff (Nat.mul_pos hcur htgt), max_eq_left hle,
    min_eq_right hle] at h
  exact h

theorem lt_exactAmountIn_ofz {cur tgt liq amount : Nat} (hlt : cur < tgt)
    (h : amount < exactAmountIn false cur tgt liq) : amount * 2 ^ 96 < liq * (tgt - cur) := by
  simp only [exactAmountIn_ofz, amount1Exact, if_true] at h
  rw [lt_ceilDiv_iff (Nat.two_pow_pos 96), max_eq_right hlt.le, min_eq_left hlt.le, Nat.mul_comm] at h
  exact h

/-- An input smaller than the amount in to the target does not reach the target (R210). -/
theorem getNextSqrtPriceFromInput_ne_target {cur tgt liq amount next : Nat}
    (hpos : tgt ≤ cur → 0 < tgt)
    (hshort : amount < exactAmountIn (decide (tgt ≤ cur)) cur tgt liq)
    (hnext : getNextSqrtPriceFromInput cur liq amount (decide (tgt ≤ cur)) = .ok next) : next ≠ tgt := by
  have hnonzero : ¬ (cur = 0 ∨ liq = 0) := fun hzero => by
    rw [getNextSqrtPriceFromInput_of_zero hzero] at hnext
    cases hnext
  have hcur : 0 < cur := by omega
  have hliq : 0 < liq := by omega
  rcases Nat.lt_or_ge cur tgt with hlt | hle
  · rw [decide_eq_false (not_le.mpr hlt)] at hshort hnext
    rw [getNextSqrtPriceFromInput_ofz hcur hliq] at hnext
    obtain rfl := Except.ok.inj hnext
    have hrise := Nat.div_lt_of_lt_mul (lt_exactAmountIn_ofz hlt hshort)
    omega
  · rw [decide_eq_true hle] at hshort hnext
    rw [getNextSqrtPriceFromInput_zfo hcur hliq] at hnext
    obtain rfl := Except.ok.inj hnext
    exact (lt_priceAfterAmount0In hcur hle (lt_exactAmountIn_zfo hcur (hpos hle) hle hshort)).ne'

end StopsShort

/-! ### From the swap step to the command -/

section SwapCommand

theorem commandFunction_swapstep (s : State) :
    commandFunction .swapstep s =
      (computeSwapStep (s.xUnsigned 0) (s.xUnsigned 1) (s.xUnsigned 2) (sint256 s.x[3]) (s.xUnsigned 4)).map
        fun (r : SwapStep) =>
          [.price r.sqrtNext, .unsigned r.amountIn, .unsigned r.amountOut, .unsigned r.feeAmount] := rfl

/-- Within the widths, a swap step that answers nothing fails the command with `PRECOND` (R213). -/
theorem exec_swapstep_of_no_answer {s : State} (hwidth : operandsInWidth .swapstep s)
    (h : ∀ r, computeSwapStep (s.xUnsigned 0) (s.xUnsigned 1) (s.xUnsigned 2) (sint256 s.x[3]) (s.xUnsigned 4) ≠
      .ok r) : exec .swapstep s = .next (failedWith s .precond) := by
  refine exec_of_precond nofun hwidth ?_
  rcases computeSwapStep_answersOrPrecond (s.xUnsigned 0) (s.xUnsigned 1) (s.xUnsigned 2) (sint256 s.x[3])
    (s.xUnsigned 4) with hfails | ⟨r, hr⟩
  · rw [commandFunction_swapstep, hfails, except_map_error]
  · exact absurd hr (h r)

/-- Within the widths, four results that fit fill `Y` (R211). -/
theorem exec_swapstep_of_answer {s : State} {next amountIn amountOut fee : Nat} (hwidth : operandsInWidth .swapstep s)
    (h : computeSwapStep (s.xUnsigned 0) (s.xUnsigned 1) (s.xUnsigned 2) (sint256 s.x[3]) (s.xUnsigned 4) =
      .ok ⟨next, amountIn, amountOut, fee⟩)
    (hnext : next ≤ 2 ^ 160 - 1) (hin : amountIn < 2 ^ 256) (hout : amountOut < 2 ^ 256) (hfee : fee < 2 ^ 256) :
    exec .swapstep s = .next (succeeded s #v[word next, word amountIn, word amountOut, word fee]) := by
  have hfits : [Component.price next, .unsigned amountIn, .unsigned amountOut, .unsigned fee].all
      Component.fits = true := by
    simp only [List.all_cons, List.all_nil, price_fits, unsigned_fits, Bool.and_true, Bool.and_eq_true,
      decide_eq_true_eq]
    exact ⟨hnext, Nat.le_sub_one_of_lt hin, Nat.le_sub_one_of_lt hout, Nat.le_sub_one_of_lt hfee⟩
  have hi : Instr.swapstep ≠ .clrf := nofun
  have hvalue := commandFunction_swapstep s
  rw [h, except_map_value] at hvalue
  rw [exec_eq_runCommand hi, State.runCommand_commit ((operandsAccepted_iff _ s).mpr hwidth) hvalue hfits,
    resultFile_four, price_word, unsigned_word, unsigned_word, unsigned_word]
  rfl

/-- The fee charged on a token0 amount of the port's operands fits a register (R214). -/
theorem chargedFee_lt {amountIn fee : Nat} (hin : amountIn < 2 ^ 224) (hfee : fee ≤ 999999) :
    ceilDiv (amountIn * fee) (1000000 - fee) < 2 ^ 256 :=
  calc ceilDiv (amountIn * fee) (1000000 - fee) ≤ amountIn * fee := ceilDiv_le_self _ (by omega)
    _ ≤ 2 ^ 224 * 999999 := Nat.mul_le_mul hin.le hfee
    _ < 2 ^ 256 := by decide

theorem natAbs_sint256_lt (w : Word) : (sint256 w).natAbs < 2 ^ 256 := by
  have hlo := le_sint256 w
  have hhi := sint256_le w
  omega

end SwapCommand

/-! ### A zero target -/

section ZeroTarget

theorem amount1Exact_down_zero (p liq : Nat) : amount1Exact false p 0 liq = liq * p / 2 ^ 96 := by
  simp only [amount1Exact, Nat.max_zero, Nat.min_zero, Nat.sub_zero, Bool.false_eq_true, if_false]

/-- A pool with an output to fall short of has liquidity. -/
theorem liquidity_pos_of_output {amount liq cur : Nat} (h : amount < liq * cur / 2 ^ 96) : 0 < liq := by
  refine Nat.pos_of_ne_zero fun hzero => ?_
  rw [hzero, Nat.zero_mul, Nat.zero_div] at h
  exact Nat.not_lt_zero _ h

/-- In exact-in mode the amount to a zero target is a token0 amount, which it does not have (R213). -/
theorem SwapStages.not_exactIn_zero {cur liq amount fee toTarget out : Nat} {r : SwapStep} :
    ¬ SwapStages true true cur 0 liq amount fee r toTarget out := by
  intro h
  have htarget : amountInBetween true cur 0 liq = .ok toTarget := h.target_eq
  obtain ⟨-, hpos⟩ := amountInBetween_ok htarget
  exact absurd (hpos rfl).2 (Nat.lt_irrefl 0)

/-- In exact-out mode a step with a zero target that answers stopped short of it: the request is below the whole
output, and its rounded-up quotient below the price (R195, R213). -/
theorem SwapStages.short_of_exactOut_zero {cur liq amount fee toTarget out : Nat} {r : SwapStep}
    (h : SwapStages true false cur 0 liq amount fee r toTarget out) :
    amount < liq * cur / 2 ^ 96 ∧ ceilDiv (amount * 2 ^ 96) liq < cur := by
  obtain ⟨hcur, hnext⟩ := h.prices_pos
  obtain ⟨hcovered, hshort⟩ := h.next_exactOut
  have htarget : exactAmountOut true cur 0 liq = liq * cur / 2 ^ 96 :=
    (exactAmountOut_zfo ..).trans (amount1Exact_down_zero cur liq)
  rw [htarget] at hcovered hshort
  have hbelow : amount < liq * cur / 2 ^ 96 := not_le.mp fun hle => hnext.ne' (hcovered hle)
  have hliq := liquidity_pos_of_output hbelow
  have hprice := hshort hbelow
  rw [getNextSqrtPriceFromOutput_zfo hcur hliq] at hprice
  split at hprice
  · exact ⟨hbelow, ‹_›⟩
  · cases hprice

/-- Such a step moves to the price that its request reaches (R210, R213). -/
theorem swapStages_exactOut_zero {cur liq amount fee next : Nat} (hfee : fee < 1000000)
    (hbelow : amount < liq * cur / 2 ^ 96) (hquotient : ceilDiv (amount * 2 ^ 96) liq < cur)
    (hnext : next = cur - ceilDiv (amount * 2 ^ 96) liq) :
    SwapStages true false cur 0 liq amount fee
      ⟨next, amount0Exact true cur next liq, min (amount1Exact false cur next liq) amount,
        (ceilDiv (amount0Exact true cur next liq * fee) (1000000 - fee) : Nat)⟩
      (liq * cur / 2 ^ 96) (amount1Exact false cur next liq) := by
  have hcur : 0 < cur := Nat.zero_lt_of_lt hquotient
  have hpos : 0 < next := hnext ▸ Nat.sub_pos_of_lt hquotient
  have hliq := liquidity_pos_of_output hbelow
  constructor
  case target_eq =>
    rw [← amount1Exact_down_zero, amount1Exact_comm]
    exact getAmount1Delta_eq 0 cur liq false
  case next_eq =>
    rw [swapNextPrice_exactOut_short hbelow, getNextSqrtPriceFromOutput_zfo hcur hliq, if_pos hquotient, hnext]
  case amountIn_eq => rw [amountInBetween_zfo, getAmount0Delta_of_pos hpos hcur, amount0Exact_comm]
  case out_eq => rw [amountOutBetween_zfo, getAmount1Delta_eq, amount1Exact_comm]
  case amountOut_eq => exact (swapClamp_exactOut _ _).symm
  case fee_eq => exact swapFee_charged hfee (.inr rfl)

theorem computeSwapStep_exactOut_zero {cur tgt liq fee : Nat} {rem : Int} (hfee : fee < 1000000) (htgt : tgt = 0)
    (hneg : rem < 0) (hbelow : rem.natAbs < liq * cur / 2 ^ 96)
    (hquotient : ceilDiv (rem.natAbs * 2 ^ 96) liq < cur) {next : Nat}
    (hnext : next = cur - ceilDiv (rem.natAbs * 2 ^ 96) liq) :
    computeSwapStep cur tgt liq rem fee =
      .ok ⟨next, amount0Exact true cur next liq, min (amount1Exact false cur next liq) rem.natAbs,
        (ceilDiv (amount0Exact true cur next liq * fee) (1000000 - fee) : Nat)⟩ := by
  subst htgt
  refine computeSwapStep_ok_iff.mpr ?_
  rw [decide_eq_true (Nat.zero_le cur), decide_eq_false (not_le.mpr hneg)]
  exact ⟨_, _, swapStages_exactOut_zero hfee hbelow hquotient hnext⟩

end ZeroTarget

end Sys2Proof.Machine

namespace Sys2Proof.Proofs

open Sys2Proof.Machine

/-- Settles O26, from the stages of a step that answers, in each mode; an exact-in amount that does not cover the target
stops short of it. -/
theorem swapStepAmountsMatchTheMove : Obligations.SwapStepAmountsMatchTheMove := by
  intro cur tgt liq fee rem r hcur _ _ _ hfee h zeroForOne amount afterFee amountIn amountOut
  have hin : amountIn = fun q => exactAmountIn zeroForOne cur q liq := by
    funext q
    simp only [amountIn, exactAmountIn, zeroForOne, decide_eq_true_eq]
  have hout : amountOut = fun q => exactAmountOut zeroForOne cur q liq := by
    funext q
    simp only [amountOut, exactAmountOut, zeroForOne, decide_eq_true_eq]
  clear_value amountIn amountOut
  subst hin hout
  obtain ⟨toTarget, out, hstages⟩ := computeSwapStep_ok_iff.mp h
  rcases Int.lt_or_le rem 0 with hneg | hpos
  · have hmode : ¬ 0 ≤ rem := not_le.mpr hneg
    rw [decide_eq_false hmode] at hstages
    obtain ⟨hcovered, hshort⟩ := hstages.next_exactOut
    refine ⟨fun hpos => absurd hpos hmode, fun hpos => absurd hpos hmode, fun _ => hcovered, fun _ => hshort,
      hstages.amountIn_exact, fun hpos => absurd hpos hmode, fun _ => ?_, fun _ => hstages.fee_charged hfee (.inr rfl),
      fun hpos => absurd hpos hmode⟩
    exact hstages.amountOut_exact.trans (swapClamp_exactOut _ _)
  · have hmode : ¬ rem < 0 := not_lt.mpr hpos
    rw [decide_eq_true hpos] at hstages
    obtain ⟨hcovered, hshort⟩ := hstages.next_exactIn
    have htarget (hle : tgt ≤ cur) : 0 < tgt := by
      obtain ⟨-, hprices⟩ := amountInBetween_ok hstages.target_eq
      exact (hprices (decide_eq_true hle)).2
    refine ⟨fun _ => ⟨fun hreached => ?_, hcovered⟩, fun _ => hshort, fun hneg => absurd hneg hmode,
      fun hneg => absurd hneg hmode, hstages.amountIn_exact, fun _ => ?_, fun hneg => absurd hneg hmode,
      fun hcharged => hstages.fee_charged hfee (hcharged.imp_right fun hneg => absurd hneg hmode), fun _ hne => ?_⟩
    · exact not_lt.mp fun hlt => getNextSqrtPriceFromInput_ne_target htarget hlt (hshort hlt) hreached
    · exact hstages.amountOut_exact.trans (swapClamp_exactIn _ _)
    · rw [hstages.fee_remainder hne, Int.natAbs_of_nonneg hpos]

/-- Settles O29: a step that answers has no zero price among the current and the next one, and with a zero target it is
an exact-out step that stops short. -/
theorem swapStepOnZeroPrices : Obligations.SwapStepOnZeroPrices := by
  intro s hwidth
  refine ⟨fun hzero => ?_, fun hp htgt hpos => ?_, fun hp htgt hneg hreached => ?_,
    fun hp htgt hneg hbelow hquotient => ?_⟩
  · refine exec_swapstep_of_no_answer hwidth fun r hr => ?_
    obtain ⟨_, _, hstages⟩ := computeSwapStep_ok_iff.mp hr
    exact hstages.prices_pos.1.ne' hzero
  · refine exec_swapstep_of_no_answer hwidth fun r hr => ?_
    obtain ⟨_, _, hstages⟩ := computeSwapStep_ok_iff.mp hr
    rw [htgt, decide_eq_true (Nat.zero_le _), decide_eq_true hpos] at hstages
    exact hstages.not_exactIn_zero
  · refine exec_swapstep_of_no_answer hwidth fun r hr => ?_
    obtain ⟨_, _, hstages⟩ := computeSwapStep_ok_iff.mp hr
    rw [htgt, decide_eq_true (Nat.zero_le _), decide_eq_false (not_le.mpr hneg)] at hstages
    obtain ⟨hbelow, hquotient⟩ := hstages.short_of_exactOut_zero
    exact hreached.elim hbelow.not_ge hquotient.not_ge
  · have ⟨hprice, _, hliq, hfee⟩ := hwidth
    have hanswer := computeSwapStep_exactOut_zero (Nat.lt_succ_of_le hfee) htgt hneg hbelow hquotient rfl
    have hin := amount0Exact_lt (Nat.pos_of_ne_zero hp) (Nat.sub_pos_of_lt hquotient) hliq true
    exact exec_swapstep_of_answer hwidth hanswer ((Nat.sub_le _ _).trans hprice) (hin.trans (by decide))
      ((Nat.min_le_right _ _).trans_lt (natAbs_sint256_lt _)) (chargedFee_lt hin hfee)

end Sys2Proof.Proofs
end

section
/-!
SUPPORT. When a swap step answers and how large its results are (`46_swap_step.md` R211 to R214). The layers, in order:
the amounts of a move between positive prices, the amount an input pays for, the bounds of the next price, when the
step answers, the fee against the remaining amount, steps that exchange nothing; the statements settled from them stand
last.
-/

namespace Sys2Proof.Machine

/-! ### The amounts of a move between positive prices -/

section MoveBounds

variable {cur price liq : Nat}

theorem amountInBetween_of_pos (hcur : 0 < cur) (hprice : 0 < price) (zfo : Bool) (liq : Nat) :
    amountInBetween zfo cur price liq = .ok (exactAmountIn zfo cur price liq) := by
  cases zfo
  · rw [amountInBetween_ofz, getAmount1Delta_eq, exactAmountIn_ofz]
  · rw [amountInBetween_zfo, getAmount0Delta_of_pos hprice hcur, amount0Exact_comm, exactAmountIn_zfo]

theorem amountOutBetween_of_pos (hcur : 0 < cur) (hprice : 0 < price) (zfo : Bool) (liq : Nat) :
    amountOutBetween zfo cur price liq = .ok (exactAmountOut zfo cur price liq) := by
  cases zfo
  · rw [amountOutBetween_ofz, getAmount0Delta_of_pos hcur hprice, exactAmountOut_ofz]
  · rw [amountOutBetween_zfo, getAmount1Delta_eq, amount1Exact_comm, exactAmountOut_zfo]

/-- Equal prices or no liquidity: no token1 amount. -/
theorem amount1Exact_of_num_zero {p q : Nat} (h : liq * (max p q - min p q) = 0) (roundUp : Bool) :
    amount1Exact roundUp p q liq = 0 := by
  cases roundUp
  · simp only [amount1Exact, h, Nat.zero_div, Bool.false_eq_true, if_false]
  · simp only [amount1Exact, h, if_true, zero_ceilDiv (Nat.two_pow_pos 96)]

theorem move_num_eq_zero (h : price = cur ∨ liq = 0) (c : Nat) : liq * c * (max cur price - min cur price) = 0 := by
  rcases h with rfl | rfl
  · rw [max_self, min_self, Nat.sub_self, Nat.mul_zero]
  · rw [Nat.zero_mul, Nat.zero_mul]

/-- A move that goes nowhere, or that no liquidity serves, costs nothing. -/
theorem exactAmountIn_eq_zero (hcur : 0 < cur) (hprice : 0 < price) (h : price = cur ∨ liq = 0) (zfo : Bool) :
    exactAmountIn zfo cur price liq = 0 := by
  cases zfo
  · exact (exactAmountIn_ofz ..).trans (amount1Exact_of_num_zero (Nat.mul_one liq ▸ move_num_eq_zero h 1) true)
  · exact (exactAmountIn_zfo ..).trans (amount0Exact_of_num_zero hcur hprice (move_num_eq_zero h _) true)

/-- Such a move gives nothing either. -/
theorem exactAmountOut_eq_zero (hcur : 0 < cur) (hprice : 0 < price) (h : price = cur ∨ liq = 0) (zfo : Bool) :
    exactAmountOut zfo cur price liq = 0 := by
  cases zfo
  · exact (exactAmountOut_ofz ..).trans (amount0Exact_of_num_zero hcur hprice (move_num_eq_zero h _) false)
  · exact (exactAmountOut_zfo ..).trans (amount1Exact_of_num_zero (Nat.mul_one liq ▸ move_num_eq_zero h 1) false)

/-- Every other move costs something, because the amount in is rounded up. -/
theorem exactAmountIn_pos (hcur : 0 < cur) (hprice : 0 < price) (hne : price ≠ cur) (hliq : 0 < liq) (zfo : Bool) :
    0 < exactAmountIn zfo cur price liq := by
  have hdiff : 0 < max cur price - min cur price := by omega
  cases zfo
  · rw [exactAmountIn_ofz]
    simp only [amount1Exact, if_true]
    exact ceilDiv_pos (Nat.mul_pos hliq hdiff) (Nat.two_pow_pos 96)
  · rw [exactAmountIn_zfo, amount0Exact_up hcur hprice]
    exact ceilDiv_pos (by positivity) (Nat.mul_pos hcur hprice)

theorem exactAmountIn_lt (hcur : 0 < cur) (hprice : 0 < price) (hcurWidth : cur ≤ 2 ^ 160 - 1)
    (hpriceWidth : price ≤ 2 ^ 160 - 1) (hliq : liq ≤ 2 ^ 128 - 1) (zfo : Bool) :
    exactAmountIn zfo cur price liq < 2 ^ 224 := by
  cases zfo
  · rw [exactAmountIn_ofz]
    exact (amount1Exact_lt hcurWidth hpriceWidth hliq true).trans (by decide)
  · rw [exactAmountIn_zfo]
    exact amount0Exact_lt hcur hprice hliq true

theorem exactAmountOut_lt (hcur : 0 < cur) (hprice : 0 < price) (hcurWidth : cur ≤ 2 ^ 160 - 1)
    (hpriceWidth : price ≤ 2 ^ 160 - 1) (hliq : liq ≤ 2 ^ 128 - 1) (zfo : Bool) :
    exactAmountOut zfo cur price liq < 2 ^ 224 := by
  cases zfo
  · rw [exactAmountOut_ofz]
    exact amount0Exact_lt hcur hprice hliq false
  · rw [exactAmountOut_zfo]
    exact (amount1Exact_lt hcurWidth hpriceWidth hliq false).trans (by decide)

end MoveBounds

/-! ### The amount in of the move an input makes -/

section InputPays

/-- The price after a token0 input, whichever formula gives it, is not below the exact price `n * p / (n + amount * p)`:
it is rounded up. -/
theorem num_le_priceAfterAmount0In {p : Nat} (hp : 0 < p) (liq amount : Nat) :
    p * (liq * 2 ^ 96) ≤ priceAfterAmount0In p liq amount * (liq * 2 ^ 96 + amount * p) := by
  unfold priceAfterAmount0In
  generalize liq * 2 ^ 96 = n
  split
  · exact Nat.mul_le_mul_left p (Nat.le_add_right n _)
  rename_i hamount
  have hamount : 0 < amount := Nat.pos_of_ne_zero hamount
  split
  · rw [Nat.mul_comm p n]
    exact le_ceilDiv_mul _ (by positivity)
  · have hreach := le_ceilDiv_mul n (Nat.add_pos_right (n / p) hamount)
    have hquotient : p * (n / p) ≤ n := Nat.mul_div_le n p
    generalize ceilDiv n (n / p + amount) = next at *
    calc p * n ≤ p * (next * (n / p + amount)) := Nat.mul_le_mul_left p hreach
      _ = next * (p * (n / p) + amount * p) := by ring
      _ ≤ next * (n + amount * p) := Nat.mul_le_mul_left next (Nat.add_le_add_right hquotient _)

/-- A token0 input pays for the move it makes. -/
theorem amount0Exact_priceAfterAmount0In_le {p liq : Nat} (hp : 0 < p) (hliq : 0 < liq) (amount : Nat) :
    amount0Exact true p (priceAfterAmount0In p liq amount) liq ≤ amount := by
  have hpos := priceAfterAmount0In_pos hp hliq amount
  have hle := priceAfterAmount0In_le hp hliq amount
  have hnum := num_le_priceAfterAmount0In hp liq amount
  rw [amount0Exact_up hp hpos, ceilDiv_le_iff (Nat.mul_pos hp hpos), max_eq_left hle, min_eq_right hle]
  generalize priceAfterAmount0In p liq amount = next at *
  obtain ⟨d, rfl⟩ := Nat.exists_eq_add_of_le hle
  rw [Nat.add_sub_cancel_left]
  linarith

/-- A token1 input pays for the move it makes. -/
theorem amount1Exact_priceAfterAmount1In_le (p liq amount : Nat) :
    amount1Exact true p (p + amount * 2 ^ 96 / liq) liq ≤ amount := by
  have hle : p ≤ p + amount * 2 ^ 96 / liq := Nat.le_add_right p _
  simp only [amount1Exact, if_true]
  rw [ceilDiv_le_iff (Nat.two_pow_pos 96), max_eq_right hle, min_eq_left hle, Nat.add_sub_cancel_left,
    Nat.mul_comm (2 ^ 96)]
  exact Nat.mul_div_le _ _

/-- The input routine answers only from a positive price and liquidity (R190). -/
theorem getNextSqrtPriceFromInput_ok_pos {cur liq amount next : Nat} {zfo : Bool}
    (h : getNextSqrtPriceFromInput cur liq amount zfo = .ok next) : 0 < cur ∧ 0 < liq := by
  by_cases hzero : cur = 0 ∨ liq = 0
  · rw [getNextSqrtPriceFromInput_of_zero hzero] at h
    cases h
  · omega

/-- An input is never less than the amount in of the move it makes (R210, R212). -/
theorem getNextSqrtPriceFromInput_exactAmountIn_le {cur liq amount next : Nat} {zfo : Bool}
    (h : getNextSqrtPriceFromInput cur liq amount zfo = .ok next) : exactAmountIn zfo cur next liq ≤ amount := by
  obtain ⟨hcur, hliq⟩ := getNextSqrtPriceFromInput_ok_pos h
  cases zfo
  · rw [getNextSqrtPriceFromInput_ofz hcur hliq] at h
    obtain rfl := Except.ok.inj h
    rw [exactAmountIn_ofz]
    exact amount1Exact_priceAfterAmount1In_le cur liq amount
  · rw [getNextSqrtPriceFromInput_zfo hcur hliq] at h
    obtain rfl := Except.ok.inj h
    rw [exactAmountIn_zfo]
    exact amount0Exact_priceAfterAmount0In_le hcur hliq amount

end InputPays

/-! ### The next price lies between the current price and the target -/

section NextBetween

variable {cur tgt liq amount next : Nat}

/-- An amount short of the amount in to the target does not carry the price past it (R210). -/
theorem getNextSqrtPriceFromInput_between (hpos : tgt ≤ cur → 0 < tgt)
    (hshort : amount < exactAmountIn (decide (tgt ≤ cur)) cur tgt liq)
    (hnext : getNextSqrtPriceFromInput cur liq amount (decide (tgt ≤ cur)) = .ok next) :
    min cur tgt ≤ next ∧ next ≤ max cur tgt := by
  obtain ⟨hcur, hliq⟩ := getNextSqrtPriceFromInput_ok_pos hnext
  rcases Nat.lt_or_ge cur tgt with hlt | hle
  · rw [decide_eq_false (not_le.mpr hlt)] at hshort hnext
    rw [getNextSqrtPriceFromInput_ofz hcur hliq] at hnext
    obtain rfl := Except.ok.inj hnext
    have hrise := Nat.div_lt_of_lt_mul (lt_exactAmountIn_ofz hlt hshort)
    generalize amount * 2 ^ 96 / liq = rise at *
    omega
  · rw [decide_eq_true hle] at hshort hnext
    rw [getNextSqrtPriceFromInput_zfo hcur hliq] at hnext
    obtain rfl := Except.ok.inj hnext
    have hnear := lt_priceAfterAmount0In hcur hle (lt_exactAmountIn_zfo hcur (hpos hle) hle hshort)
    have hfar := priceAfterAmount0In_le hcur hliq amount
    omega

/-- A token1 request short of the target moves the price by no more than the way to the target. -/
theorem ceilDiv_le_of_lt_exactAmountOut_zfo (hliq : 0 < liq) (hle : tgt ≤ cur)
    (h : amount < exactAmountOut true cur tgt liq) : ceilDiv (amount * 2 ^ 96) liq ≤ cur - tgt := by
  simp only [exactAmountOut_zfo, amount1Exact, Bool.false_eq_true, if_false, max_eq_left hle, min_eq_right hle] at h
  rw [ceilDiv_le_iff hliq]
  exact (Nat.le_div_iff_mul_le (Nat.two_pow_pos 96)).mp h.le

/-- A token0 request short of the target, over the product of the prices. -/
theorem le_of_lt_exactAmountOut_ofz (hcur : 0 < cur) (hlt : cur < tgt)
    (h : amount < exactAmountOut false cur tgt liq) : amount * (cur * tgt) ≤ liq * 2 ^ 96 * (tgt - cur) := by
  rw [exactAmountOut_ofz, amount0Exact_down, max_eq_right hlt.le, min_eq_left hlt.le] at h
  exact (Nat.le_div_iff_mul_le (Nat.mul_pos hcur (hcur.trans hlt))).mp h.le

/-- Such a request passes the assertion of the subtract branch (R194). -/
theorem mul_lt_of_lt_exactAmountOut_ofz (hcur : 0 < cur) (hliq : 0 < liq) (hlt : cur < tgt)
    (h : amount < exactAmountOut false cur tgt liq) : amount * cur < liq * 2 ^ 96 := by
  have hway : tgt - cur < tgt := Nat.sub_lt (hcur.trans hlt) hcur
  refine Nat.lt_of_mul_lt_mul_right (a := tgt) ?_
  calc amount * cur * tgt = amount * (cur * tgt) := Nat.mul_assoc ..
    _ ≤ liq * 2 ^ 96 * (tgt - cur) := le_of_lt_exactAmountOut_ofz hcur hlt h
    _ < liq * 2 ^ 96 * tgt := Nat.mul_lt_mul_of_pos_left hway (by positivity)

/-- Such a request does not carry the price past the target. -/
theorem ceilDiv_le_of_lt_exactAmountOut_ofz (hcur : 0 < cur) (hliq : 0 < liq) (hlt : cur < tgt)
    (h : amount < exactAmountOut false cur tgt liq) :
    ceilDiv (liq * 2 ^ 96 * cur) (liq * 2 ^ 96 - amount * cur) ≤ tgt := by
  have hproduct := mul_lt_of_lt_exactAmountOut_ofz hcur hliq hlt h
  have hle := le_of_lt_exactAmountOut_ofz hcur hlt h
  rw [ceilDiv_le_iff (Nat.sub_pos_of_lt hproduct)]
  obtain ⟨rest, hrest⟩ := Nat.exists_eq_add_of_le hproduct.le
  rw [hrest, Nat.add_sub_cancel_left, ← hrest]
  obtain ⟨way, rfl⟩ := Nat.exists_eq_add_of_le hlt.le
  rw [Nat.add_sub_cancel_left] at hle
  generalize liq * 2 ^ 96 = n at *
  subst hrest
  linarith

/-- The output routine answers only from a positive price and liquidity (R192). -/
theorem getNextSqrtPriceFromOutput_ok_pos {zfo : Bool} (h : getNextSqrtPriceFromOutput cur liq amount zfo = .ok next) :
    0 < cur ∧ 0 < liq := by
  by_cases hzero : cur = 0 ∨ liq = 0
  · rw [getNextSqrtPriceFromOutput_of_zero hzero] at h
    cases h
  · omega

/-- A request short of the amount out to the target does not carry the price past it (R210). -/
theorem getNextSqrtPriceFromOutput_between
    (hshort : amount < exactAmountOut (decide (tgt ≤ cur)) cur tgt liq)
    (hnext : getNextSqrtPriceFromOutput cur liq amount (decide (tgt ≤ cur)) = .ok next) :
    min cur tgt ≤ next ∧ next ≤ max cur tgt := by
  obtain ⟨hcur, hliq⟩ := getNextSqrtPriceFromOutput_ok_pos hnext
  rcases Nat.lt_or_ge cur tgt with hlt | hle
  · rw [decide_eq_false (not_le.mpr hlt)] at hshort hnext
    rw [getNextSqrtPriceFromOutput_ofz hcur hliq] at hnext
    split at hnext
    · obtain rfl := Except.ok.inj hnext
      have hnear := ceilDiv_le_of_lt_exactAmountOut_ofz hcur hliq hlt hshort
      have hfar : cur ≤ _ := le_ceilDiv_sub (mul_lt_of_lt_exactAmountOut_ofz hcur hliq hlt hshort)
      omega
    · cases hnext
  · rw [decide_eq_true hle] at hshort hnext
    rw [getNextSqrtPriceFromOutput_zfo hcur hliq] at hnext
    split at hnext
    · obtain rfl := Except.ok.inj hnext
      have hfall := ceilDiv_le_of_lt_exactAmountOut_zfo hliq hle hshort
      omega
    · cases hnext

/-- With a positive target, a request short of it passes the assertions of both output branches (R213). -/
theorem getNextSqrtPriceFromOutput_answers (hcur : 0 < cur) (htgt : 0 < tgt) (hliq : 0 < liq)
    (hwidth : liq ≤ 2 ^ 128 - 1) (hshort : amount < exactAmountOut (decide (tgt ≤ cur)) cur tgt liq) :
    ∃ next, getNextSqrtPriceFromOutput cur liq amount (decide (tgt ≤ cur)) = .ok next := by
  rcases Nat.lt_or_ge cur tgt with hlt | hle
  · rw [decide_eq_false (not_le.mpr hlt)] at hshort ⊢
    have hproduct := mul_lt_of_lt_exactAmountOut_ofz hcur hliq hlt hshort
    have hexact : amount * cur < 2 ^ 256 := by omega
    exact ⟨_, (getNextSqrtPriceFromOutput_ofz hcur hliq amount).trans (if_pos ⟨hexact, hproduct⟩)⟩
  · rw [decide_eq_true hle] at hshort ⊢
    have hfall := ceilDiv_le_of_lt_exactAmountOut_zfo hliq hle hshort
    have hassert : ceilDiv (amount * 2 ^ 96) liq < cur := by omega
    exact ⟨_, (getNextSqrtPriceFromOutput_zfo hcur hliq amount).trans (if_pos hassert)⟩

end NextBetween

/-! ### What holds of every swap step that answers -/

section Answered

variable {zfo exactIn : Bool} {cur tgt liq amount fee toTarget out : Nat} {r : SwapStep}

/-- The next price lies between the current price and the target, in both modes (R210). -/
theorem SwapStages.next_between
    (h : SwapStages (decide (tgt ≤ cur)) exactIn cur tgt liq amount fee r toTarget out) :
    min cur tgt ≤ r.sqrtNext ∧ r.sqrtNext ≤ max cur tgt := by
  have hreached (htgt : r.sqrtNext = tgt) : min cur tgt ≤ r.sqrtNext ∧ r.sqrtNext ≤ max cur tgt := by omega
  cases exactIn
  · obtain ⟨hcovered, hshort⟩ := h.next_exactOut
    rcases Nat.lt_or_ge amount (exactAmountOut (decide (tgt ≤ cur)) cur tgt liq) with hlt | hle
    · exact getNextSqrtPriceFromOutput_between hlt (hshort hlt)
    · exact hreached (hcovered hle)
  · obtain ⟨hcovered, hshort⟩ := h.next_exactIn
    have htarget (hle : tgt ≤ cur) : 0 < tgt := by
      obtain ⟨-, hprices⟩ := amountInBetween_ok h.target_eq
      exact (hprices (decide_eq_true hle)).2
    rcases Nat.lt_or_ge (lessFee amount fee) (exactAmountIn (decide (tgt ≤ cur)) cur tgt liq) with hlt | hle
    · exact getNextSqrtPriceFromInput_between htarget hlt (hshort hlt)
    · exact hreached (hcovered hle)

/-- In exact-in mode what is paid in is at most the remaining amount less the fee, at the target and short of it
(R212). -/
theorem SwapStages.amountIn_le_lessFee (h : SwapStages zfo true cur tgt liq amount fee r toTarget out) :
    r.amountIn ≤ lessFee amount fee := by
  obtain ⟨hcovered, hshort⟩ := h.next_exactIn
  rw [h.amountIn_exact]
  rcases Nat.lt_or_ge (lessFee amount fee) (exactAmountIn zfo cur tgt liq) with hlt | hle
  · exact getNextSqrtPriceFromInput_exactAmountIn_le (hshort hlt)
  · rwa [hcovered hle]

theorem lessFee_le (amount fee : Nat) : lessFee amount fee ≤ amount :=
  Nat.div_le_of_le_mul ((Nat.mul_le_mul_left amount (Nat.sub_le ..)).trans_eq (Nat.mul_comm ..))

/-- The fee charged on an amount that leaves room for it stays within that room (R212). -/
theorem add_chargedFee_le {amountIn : Nat} (hfee : fee < 1000000) (h : amountIn ≤ lessFee amount fee) :
    amountIn + ceilDiv (amountIn * fee) (1000000 - fee) ≤ amount := by
  have hroom : amountIn * maxFee ≤ amount * (maxFee - fee) := (Nat.le_div_iff_mul_le (by decide)).mp h
  obtain ⟨room, rfl⟩ := Nat.exists_eq_add_of_le (h.trans (lessFee_le amount fee))
  have hcharge : ceilDiv (amountIn * fee) (1000000 - fee) ≤ room := by
    rw [ceilDiv_le_iff (Nat.sub_pos_of_lt hfee)]
    obtain ⟨rest, hrest⟩ := Nat.exists_eq_add_of_le hfee.le
    simp only [maxFee, hrest, Nat.add_sub_cancel_left] at hroom ⊢
    linarith
  exact Nat.add_le_add_left hcharge amountIn

/-- The two amounts of a step over the port's widths take 224 bits (R214). -/
theorem SwapStages.amounts_lt (h : SwapStages (decide (tgt ≤ cur)) exactIn cur tgt liq amount fee r toTarget out)
    (hcur : cur ≤ 2 ^ 160 - 1) (htgt : tgt ≤ 2 ^ 160 - 1) (hliq : liq ≤ 2 ^ 128 - 1) :
    r.amountIn < 2 ^ 224 ∧ r.amountOut < 2 ^ 224 := by
  obtain ⟨hcurPos, hnextPos⟩ := h.prices_pos
  obtain ⟨-, hnext⟩ := h.next_between
  have hnext : r.sqrtNext ≤ 2 ^ 160 - 1 := hnext.trans (Nat.max_le.mpr ⟨hcur, htgt⟩)
  have hclamp (exact : Nat) : swapClamp exactIn amount exact ≤ exact := by
    cases exactIn
    · exact (swapClamp_exactOut amount exact).trans_le (Nat.min_le_left _ _)
    · exact (swapClamp_exactIn amount exact).le
  rw [h.amountIn_exact, h.amountOut_exact]
  exact ⟨exactAmountIn_lt hcurPos hnextPos hcur hnext hliq _,
    (hclamp _).trans_lt (exactAmountOut_lt hcurPos hnextPos hcur hnext hliq _)⟩

/-- The fee is charged on the amount in, or the remainder of an exact-in step short of the target is kept (R210). -/
theorem charged_or_kept (exactIn : Bool) (next tgt : Nat) :
    (next = tgt ∨ exactIn = false) ∨ (next ≠ tgt ∧ exactIn = true) := by
  cases exactIn
  · exact .inl (.inr rfl)
  · exact (eq_or_ne next tgt).imp .inl fun hne => ⟨hne, rfl⟩

/-- The fee is a non-negative number that fits a register: where the remainder is kept, the amount in does not exceed
the remaining amount (R214). -/
theorem SwapStages.fee_fits (h : SwapStages zfo exactIn cur tgt liq amount fee r toTarget out)
    (hfee : fee ≤ 999999) (hin : r.amountIn < 2 ^ 224) (hamount : amount < 2 ^ 256) :
    ∃ n : Nat, r.feeAmount = n ∧ n < 2 ^ 256 := by
  rcases charged_or_kept exactIn r.sqrtNext tgt with hcharged | ⟨hne, rfl⟩
  · exact ⟨_, h.fee_charged (Nat.lt_succ_of_le hfee) hcharged, chargedFee_lt hin hfee⟩
  · have hpaid := h.amountIn_le_lessFee.trans (lessFee_le amount fee)
    exact ⟨amount - r.amountIn, (h.fee_remainder hne).trans (Nat.cast_sub hpaid).symm,
      (Nat.sub_le ..).trans_lt hamount⟩

end Answered

/-! ### When a swap step answers -/

section Answers

variable {cur tgt liq fee : Nat}

theorem amountToTarget_answers (hcur : 0 < cur) (htgt : 0 < tgt) (zfo exactIn : Bool) (liq : Nat) :
    ∃ toTarget, amountToTarget zfo exactIn cur tgt liq = .ok toTarget := by
  cases exactIn
  · exact ⟨_, amountOutBetween_of_pos hcur htgt zfo liq⟩
  · exact ⟨_, amountInBetween_of_pos hcur htgt zfo liq⟩

theorem getNextSqrtPriceFromInput_answers (hcur : 0 < cur) (hliq : 0 < liq) (amount : Nat) (zfo : Bool) :
    ∃ next, getNextSqrtPriceFromInput cur liq amount zfo = .ok next := by
  cases zfo
  · exact ⟨_, getNextSqrtPriceFromInput_ofz hcur hliq amount⟩
  · exact ⟨_, getNextSqrtPriceFromInput_zfo hcur hliq amount⟩

/-- Between positive prices stage 1 answers a positive price: an amount that falls short of the target means there is
liquidity to divide by (R210, R213). -/
theorem swapNextPrice_answers (hcur : 0 < cur) (htgt : 0 < tgt) (hwidth : liq ≤ 2 ^ 128 - 1) {exactIn : Bool}
    {amount toTarget : Nat} (htarget : amountToTarget (decide (tgt ≤ cur)) exactIn cur tgt liq = .ok toTarget) :
    ∃ next, swapNextPrice (decide (tgt ≤ cur)) exactIn cur tgt liq amount fee toTarget = .ok next ∧ 0 < next := by
  have hpositive {next : Nat} (hbetween : min cur tgt ≤ next ∧ next ≤ max cur tgt) : 0 < next := by omega
  cases exactIn
  · obtain ⟨rfl, -⟩ := amountOutBetween_ok htarget
    rcases Nat.lt_or_ge amount (exactAmountOut (decide (tgt ≤ cur)) cur tgt liq) with hlt | hle
    · have hliq : 0 < liq := Nat.pos_of_ne_zero fun hzero =>
        (Nat.zero_lt_of_lt hlt).ne' (exactAmountOut_eq_zero hcur htgt (.inr hzero) _)
      obtain ⟨next, hnext⟩ := getNextSqrtPriceFromOutput_answers hcur htgt hliq hwidth hlt
      exact ⟨next, (swapNextPrice_exactOut_short hlt).trans hnext,
        hpositive (getNextSqrtPriceFromOutput_between hlt hnext)⟩
    · exact ⟨tgt, swapNextPrice_exactOut_covered hle, htgt⟩
  · obtain ⟨rfl, -⟩ := amountInBetween_ok htarget
    rcases Nat.lt_or_ge (lessFee amount fee) (exactAmountIn (decide (tgt ≤ cur)) cur tgt liq) with hlt | hle
    · have hliq : 0 < liq := Nat.pos_of_ne_zero fun hzero =>
        (Nat.zero_lt_of_lt hlt).ne' (exactAmountIn_eq_zero hcur htgt (.inr hzero) _)
      obtain ⟨next, hnext⟩ := getNextSqrtPriceFromInput_answers hcur hliq (lessFee amount fee) (decide (tgt ≤ cur))
      exact ⟨next, (swapNextPrice_exactIn_short hlt).trans hnext,
        hpositive (getNextSqrtPriceFromInput_between (fun _ => htgt) hlt hnext)⟩
    · exact ⟨tgt, swapNextPrice_exactIn_covered hle, htgt⟩

theorem swapFee_answers (exactIn : Bool) (tgt amount next amountIn : Nat) (hfee : fee < 1000000) :
    ∃ feeAmount, swapFee exactIn tgt amount fee next amountIn = .ok feeAmount := by
  rcases charged_or_kept exactIn next tgt with hcharged | ⟨hne, rfl⟩
  · exact ⟨_, swapFee_charged hfee hcharged⟩
  · exact ⟨_, swapFee_remainder hne⟩

/-- A swap step between positive prices answers: no assertion of a callee fails (R211, R213). -/
theorem computeSwapStep_answers (hcur : 0 < cur) (htgt : 0 < tgt) (hwidth : liq ≤ 2 ^ 128 - 1) (hfee : fee < 1000000)
    (rem : Int) : ∃ r, computeSwapStep cur tgt liq rem fee = .ok r := by
  obtain ⟨toTarget, htarget⟩ :=
    amountToTarget_answers hcur htgt (decide (tgt ≤ cur)) (decide (0 ≤ rem)) liq
  obtain ⟨next, hnext, hnextPos⟩ := swapNextPrice_answers hcur htgt hwidth (amount := rem.natAbs) (fee := fee) htarget
  obtain ⟨feeAmount, hfeeAmount⟩ := swapFee_answers (decide (0 ≤ rem)) tgt rem.natAbs next
    (exactAmountIn (decide (tgt ≤ cur)) cur next liq) hfee
  exact ⟨⟨next, _, _, feeAmount⟩, computeSwapStep_ok_iff.mpr ⟨toTarget, _, htarget, hnext,
    amountInBetween_of_pos hcur hnextPos _ liq, amountOutBetween_of_pos hcur hnextPos _ liq, rfl, hfeeAmount⟩⟩

end Answers

/-! ### Steps that exchange nothing -/

section Idle

variable {zfo exactIn : Bool} {cur tgt liq amount fee toTarget out : Nat} {r : SwapStep}

/-- Without a move or without liquidity nothing is exchanged, and the fee, charged or kept, is 0 (R212). -/
theorem SwapStages.exchanges_nothing (h : SwapStages zfo exactIn cur tgt liq amount fee r toTarget out)
    (hfee : fee < 1000000) (hidle : r.sqrtNext = cur ∨ liq = 0) (hfree : r.sqrtNext = tgt ∨ amount = 0) :
    r = ⟨r.sqrtNext, 0, 0, (0 : Nat)⟩ := by
  obtain ⟨hcur, hnext⟩ := h.prices_pos
  have hin : r.amountIn = 0 := h.amountIn_exact.trans (exactAmountIn_eq_zero hcur hnext hidle zfo)
  have hout : r.amountOut = 0 := by
    rw [h.amountOut_exact, exactAmountOut_eq_zero hcur hnext hidle]
    exact if_neg fun hover => Nat.not_lt_zero _ hover.2
  have hfeeAmount : r.feeAmount = 0 := by
    rcases charged_or_kept exactIn r.sqrtNext tgt with hcharged | ⟨hne, rfl⟩
    · rw [h.fee_charged hfee hcharged, hin, Nat.zero_mul, zero_ceilDiv (Nat.sub_pos_of_lt hfee), Nat.cast_zero]
    · rw [h.fee_remainder hne, hin, hfree.resolve_left hne, sub_self]
  obtain ⟨next, amountIn, amountOut, feeAmount⟩ := r
  subst hin hout hfeeAmount
  rfl

/-- A step over no liquidity goes to the target: the amount to it is 0 in both modes (R212). -/
theorem SwapStages.next_of_no_liquidity (h : SwapStages zfo exactIn cur tgt 0 amount fee r toTarget out)
    (htgt : 0 < tgt) : r.sqrtNext = tgt := by
  obtain ⟨hcur, -⟩ := h.prices_pos
  cases exactIn
  · exact h.next_exactOut.1 ((exactAmountOut_eq_zero hcur htgt (.inr rfl) zfo).trans_le (Nat.zero_le _))
  · exact h.next_exactIn.1 ((exactAmountIn_eq_zero hcur htgt (.inr rfl) zfo).trans_le (Nat.zero_le _))

/-- An exact-in step over liquidity with nothing to pay in stays: every move would cost something (R212). -/
theorem SwapStages.next_of_no_amount (h : SwapStages zfo true cur tgt liq 0 fee r toTarget out) (hliq : 0 < liq) :
    r.sqrtNext = cur := by
  obtain ⟨hcur, hnext⟩ := h.prices_pos
  by_contra hmoved
  have hpaid := h.amountIn_le_lessFee.trans (lessFee_le 0 fee)
  rw [h.amountIn_exact] at hpaid
  exact (exactAmountIn_pos hcur hnext hmoved hliq zfo).not_ge hpaid

end Idle

/-! ### The command on a step that answers -/

section SwapCommandAnswers

variable {s : State} {r : SwapStep}

/-- Within the widths, a step that answers has results that fit, and the command succeeds with them (R211, R214). -/
theorem exec_swapstep_of_ok (hwidth : operandsInWidth .swapstep s)
    (h : computeSwapStep (s.xUnsigned 0) (s.xUnsigned 1) (s.xUnsigned 2) (sint256 s.x[3]) (s.xUnsigned 4) = .ok r) :
    ∃ fee : Nat, r.feeAmount = fee ∧ r.amountIn < 2 ^ 256 ∧ r.amountOut < 2 ^ 256 ∧ fee < 2 ^ 256 ∧
      exec .swapstep s =
        .next (succeeded s #v[word r.sqrtNext, word r.amountIn, word r.amountOut, word fee]) := by
  have ⟨hcur, htgt, hliq, hfeeRate⟩ := hwidth
  obtain ⟨toTarget, out, hstages⟩ := computeSwapStep_ok_iff.mp h
  obtain ⟨hin, hout⟩ := hstages.amounts_lt hcur htgt hliq
  obtain ⟨fee, hfee, hfeeFits⟩ := hstages.fee_fits hfeeRate hin (natAbs_sint256_lt _)
  have hin256 : r.amountIn < 2 ^ 256 := hin.trans (by decide)
  have hout256 : r.amountOut < 2 ^ 256 := hout.trans (by decide)
  have hnext : r.sqrtNext ≤ 2 ^ 160 - 1 := hstages.next_between.2.trans (Nat.max_le.mpr ⟨hcur, htgt⟩)
  refine ⟨fee, hfee, hin256, hout256, hfeeFits, exec_swapstep_of_answer hwidth ?_ hnext hin256 hout256 hfeeFits⟩
  rw [h, ← hfee]

/-- A step that exchanges nothing leaves its next price alone in `Y`. -/
theorem exec_swapstep_of_nothing {next : Nat} (hwidth : operandsInWidth .swapstep s)
    (h : computeSwapStep (s.xUnsigned 0) (s.xUnsigned 1) (s.xUnsigned 2) (sint256 s.x[3]) (s.xUnsigned 4) =
      .ok ⟨next, 0, 0, (0 : Nat)⟩) : exec .swapstep s = .next (succeeded s #v[word next, 0, 0, 0]) := by
  obtain ⟨fee, hfee, -, -, -, hexec⟩ := exec_swapstep_of_ok hwidth h
  obtain rfl := Int.ofNat.inj hfee
  exact hexec

/-- A price read from a register, written back (R72). -/
theorem word_xUnsigned (s : State) (i : Fin Config.nx) : word (s.xUnsigned i) = s.x[i] := BitVec.ofNat_toNat ..

end SwapCommandAnswers

end Sys2Proof.Machine

namespace Sys2Proof.Proofs

open Sys2Proof.Machine

/-- Settles O30: a stage-1 amount that is kept was computed for the same move. -/
theorem skippedRecomputationIsEqual : Obligations.SkippedRecomputationIsEqual := by
  intro cur tgt liq rem fee
  unfold computeSwapStep swapStepRecomputed
  cases htarget : amountToTarget (decide (cur ≥ tgt)) (decide (rem ≥ 0)) cur tgt liq with
  | error t => simp only [htarget, except_error_bind]
  | ok toTarget =>
    simp only [htarget, except_ok_bind, swapAmountIn_eq_between htarget, swapAmountOut_eq_between htarget]

/-- Settles O27: the fee where the remainder is kept, the room for the charged fee, and the clamp. -/
theorem swapStepConservesTheAmount : Obligations.SwapStepConservesTheAmount := by
  intro cur tgt liq fee rem r _ _ _ hfee h
  obtain ⟨toTarget, out, hstages⟩ := computeSwapStep_ok_iff.mp h
  refine ⟨fun hpos hne => ?_, fun hpos hreached => ?_, fun hneg => ?_⟩
  · rw [decide_eq_true hpos] at hstages
    rw [hstages.fee_remainder hne, Int.natAbs_of_nonneg hpos]
    exact add_sub_cancel _ _
  · rw [decide_eq_true hpos] at hstages
    have hroom := add_chargedFee_le hfee hstages.amountIn_le_lessFee
    rw [hstages.fee_charged hfee (.inl hreached)]
    omega
  · rw [decide_eq_false (not_le.mpr hneg)] at hstages
    have hclamp := hstages.amountOut_exact.trans (swapClamp_exactOut _ _)
    omega

/-- Settles O31: outside the widths the command fails with `OPERAND`, without an answer with `PRECOND`, and an answer
fits. -/
theorem swapStepResultsAlwaysFit : Obligations.SwapStepResultsAlwaysFit := by
  intro s t h
  by_cases hwidth : operandsInWidth .swapstep s
  · rcases computeSwapStep_answersOrPrecond (s.xUnsigned 0) (s.xUnsigned 1) (s.xUnsigned 2) (sint256 s.x[3])
      (s.xUnsigned 4) with hfails | ⟨r, hr⟩
    · rw [exec_swapstep_of_no_answer hwidth fun r hr => nomatch hfails.symm.trans hr] at h
      obtain rfl := Host.Outcome.next.inj h
      nofun
    · obtain ⟨_, -, -, -, -, hexec⟩ := exec_swapstep_of_ok hwidth hr
      obtain rfl := Host.Outcome.next.inj (hexec.symm.trans h)
      nofun
  · rw [exec_of_not_inWidth hwidth] at h
    obtain rfl := Host.Outcome.next.inj h
    nofun

/-- Settles O25: between positive prices the step answers, and an answer fits. -/
theorem swapStepCompletesOnNonzeroPrices : Obligations.SwapStepCompletesOnNonzeroPrices := by
  intro s hwidth hcur htgt
  have ⟨_, _, hliq, hfeeRate⟩ := hwidth
  obtain ⟨r, hr⟩ := computeSwapStep_answers (Nat.pos_of_ne_zero hcur) (Nat.pos_of_ne_zero htgt) hliq
    (Nat.lt_succ_of_le hfeeRate) (sint256 s.x[3])
  obtain ⟨_, _, hstages⟩ := computeSwapStep_ok_iff.mp hr
  obtain ⟨hlow, hhigh⟩ := hstages.next_between
  obtain ⟨fee, hfee, hin, hout, hfeeFits, hexec⟩ := exec_swapstep_of_ok hwidth hr
  exact ⟨r.sqrtNext, r.amountIn, r.amountOut, fee, hfee ▸ hr, hlow, hhigh, hin, hout, hfeeFits, hexec⟩

/-- Settles O28: the step answers, and in each corner its next price is known and nothing is exchanged. -/
theorem swapStepCornerCases : Obligations.SwapStepCornerCases := by
  intro s hwidth hcur htgt
  have ⟨_, _, hliqWidth, hfeeRate⟩ := hwidth
  have hcur := Nat.pos_of_ne_zero hcur
  have htgt := Nat.pos_of_ne_zero htgt
  have hfee := Nat.lt_succ_of_le hfeeRate
  obtain ⟨r, hr⟩ := computeSwapStep_answers hcur htgt hliqWidth hfee (sint256 s.x[3])
  obtain ⟨toTarget, out, hstages⟩ := computeSwapStep_ok_iff.mp hr
  have hnothing (i : Fin Config.nx) (hnext : r.sqrtNext = s.xUnsigned i)
      (hidle : r.sqrtNext = s.xUnsigned 0 ∨ s.xUnsigned 2 = 0)
      (hfree : r.sqrtNext = s.xUnsigned 1 ∨ (sint256 s.x[3]).natAbs = 0) :
      exec .swapstep s = .next (succeeded s #v[s.x[i], 0, 0, 0]) := by
    rw [← word_xUnsigned, ← hnext]
    exact exec_swapstep_of_nothing hwidth (hstages.exchanges_nothing hfee hidle hfree ▸ hr)
  refine ⟨fun heq => ?_, fun hliq => ?_, fun hrem _ hliq => ?_⟩
  · obtain ⟨hlow, hhigh⟩ := hstages.next_between
    have hnext : r.sqrtNext = s.xUnsigned 0 := by omega
    exact hnothing 0 hnext (.inl hnext) (.inl (hnext.trans heq))
  · rw [hliq] at hstages
    have hnext := hstages.next_of_no_liquidity htgt
    exact hnothing 1 hnext (.inr hliq) (.inl hnext)
  · rw [hrem, decide_eq_true le_rfl, Int.natAbs_zero] at hstages
    have hnext := hstages.next_of_no_amount (Nat.pos_of_ne_zero hliq)
    exact hnothing 0 hnext (.inl hnext) (.inr (Int.natAbs_eq_zero.mpr hrem))

end Sys2Proof.Proofs
end

section
/-!
SUPPORT. Fee growth: `SUBIN256`, `FEEINSIDE` and `TOKOWED` compute on words modulo `2^256` (`47_fee_growth.md` R230 to
R238). The layers, in order: the wrapped subtraction on integers and on words, the growth of one token on words, the
commands' answers; the statements settled from them stand last.
-/

namespace Sys2Proof.Machine

/-! ### The wrapped subtraction -/

section Subtraction

theorem subIn256_of_neg {x y : Int} (h : x - y < 0) : subIn256 x y = 2 ^ 256 + (x - y) := if_pos h

theorem subIn256_of_nonneg {x y : Int} (h : 0 ≤ x - y) : subIn256 x y = x - y := if_neg (not_lt.mpr h)

/-- Adding the modulus once reduces a difference that is less than one modulus away from 0 (R230). -/
theorem subIn256_eq_emod {x y : Int} (hlo : -(2 ^ 256) ≤ x - y) (hhi : x - y < 2 ^ 256) :
    subIn256 x y = (x - y) % 2 ^ 256 := by
  rcases lt_or_ge (x - y) 0 with hneg | hpos
  · rw [subIn256_of_neg hneg, ← Int.add_emod_left, Int.emod_eq_of_lt (by omega) (by omega)]
  · rw [subIn256_of_nonneg hpos, Int.emod_eq_of_lt hpos hhi]

/-- Between register values `subIn256` is the subtraction of words. -/
theorem subIn256_toNat (a b : Word) : subIn256 a.toNat b.toNat = (a - b).toNat := by
  have ha : a.toNat < 2 ^ 256 := a.isLt
  have hb : b.toNat < 2 ^ 256 := b.isLt
  rw [subIn256_eq_emod (by omega) (by omega), BitVec.toNat_sub]
  simp only [Config.xlen]
  omega

end Subtraction

/-! ### The growth of one token -/

section Growth

/-- Below the lower tick: the snapshot, or the global growth minus it (R232). -/
theorem growthBelow_toNat (outside global : Word) (lower current : Int) :
    growthBelow outside.toNat lower current global.toNat =
      (if lower ≤ current then outside else global - outside).toNat := by
  by_cases h : lower ≤ current
  · rw [growthBelow, if_pos h, if_pos h]
  · rw [growthBelow, if_neg h, if_neg h, subIn256_toNat]

/-- Above the upper tick: the snapshot, or the global growth minus it (R232). -/
theorem growthAbove_toNat (outside global : Word) (upper current : Int) :
    growthAbove outside.toNat upper current global.toNat =
      (if current < upper then outside else global - outside).toNat := by
  by_cases h : current < upper
  · rw [growthAbove, if_pos h, if_pos h]
  · rw [growthAbove, if_neg h, if_neg h, subIn256_toNat]

/-- Between the ticks: what is left of the global growth, as words (R232). -/
theorem growthInside_toNat (outsideLower outsideUpper global : Word) (lower upper current : Int) :
    growthInside outsideLower.toNat outsideUpper.toNat lower upper current global.toNat =
      (global - (if lower ≤ current then outsideLower else global - outsideLower) -
        (if current < upper then outsideUpper else global - outsideUpper)).toNat := by
  rw [growthInside, growthBelow_toNat, growthAbove_toNat, subIn256_toNat, subIn256_toNat]

/-- The growth since the snapshot, as a word, scaled by the liquidity (R234). -/
theorem tokenOwed_toNat (last current : Word) (liquidity : Nat) :
    tokenOwed last.toNat liquidity current.toNat = ((current - last).toNat * liquidity / 2 ^ 128 : Nat) := by
  rw [tokenOwed, subIn256_toNat, shrInt_eq]
  push_cast
  rfl

/-- A growth scaled by an accepted liquidity fits a register (R235). -/
theorem toNat_mul_liquidity_div_lt (growth : Word) {liquidity : Nat} (h : liquidity ≤ 2 ^ 128 - 1) :
    growth.toNat * liquidity / 2 ^ 128 < 2 ^ 256 := by
  rw [Nat.div_lt_iff_lt_mul (by decide)]
  calc growth.toNat * liquidity ≤ growth.toNat * 2 ^ 128 := Nat.mul_le_mul_left _ (by omega)
    _ < 2 ^ 256 * 2 ^ 128 := Nat.mul_lt_mul_of_pos_right growth.isLt (by decide)

end Growth

/-! ### From the function's answer to the command's -/

section FeeCommands

theorem word_toNat (w : Word) : word w.toNat = w := BitVec.ofNat_toNat ..

/-- Within the widths, two unsigned results that fit go to `Y[0]` and `Y[1]` (R267). -/
theorem exec_of_two_amounts {i : Instr} {s : State} {n m : Nat} (hi : i ≠ .clrf) (hwidth : operandsInWidth i s)
    (hf : commandFunction i s = .ok [.unsigned n, .unsigned m]) (hn : n < 2 ^ 256) (hm : m < 2 ^ 256) :
    exec i s = .next (succeeded s #v[word n, word m, 0, 0]) := by
  have hfits : [Component.unsigned n, .unsigned m].all Component.fits = true := by
    simp only [List.all_cons, List.all_nil, unsigned_fits, Bool.and_true, Bool.and_eq_true, decide_eq_true_eq]
    exact ⟨Nat.le_sub_one_of_lt hn, Nat.le_sub_one_of_lt hm⟩
  rw [exec_eq_runCommand hi, State.runCommand_commit ((operandsAccepted_iff i s).mpr hwidth) hf hfits, resultFile_two,
    unsigned_word, unsigned_word]
  rfl

theorem commandFunction_subin256 (s : State) :
    commandFunction .subin256 s = .ok [.unsigned (s.x[0] - s.x[1]).toNat] := by
  rw [← subIn256_toNat]
  rfl

/-- What `FEEINSIDE` leaves in one token's result register, of the global growth and the snapshots in operand registers
(R232, R233). -/
def insideWord (s : State) (lower upper global : Fin Config.nx) : Word :=
  s.x[global] - (if s.x[4].toInt ≤ s.x[6].toInt then s.x[lower] else s.x[global] - s.x[lower]) -
    (if s.x[6].toInt < s.x[5].toInt then s.x[upper] else s.x[global] - s.x[upper])

theorem growthInside_eq_insideWord (s : State) (lower upper global : Fin Config.nx) :
    growthInside (s.xUnsigned lower) (s.xUnsigned upper) (s.xSigned 4) (s.xSigned 5) (s.xSigned 6)
      (s.xUnsigned global) = (insideWord s lower upper global).toNat := by
  simp only [State.xSigned, sint256_eq_toInt]
  exact growthInside_toNat s.x[lower] s.x[upper] s.x[global] _ _ _

theorem commandFunction_feeinside (s : State) :
    commandFunction .feeinside s =
      .ok [.unsigned (insideWord s 0 2 7).toNat, .unsigned (insideWord s 1 3 8).toNat] := by
  rw [commandFunction, growthInside_eq_insideWord, growthInside_eq_insideWord]

theorem commandFunction_tokowed (s : State) :
    commandFunction .tokowed s =
      .ok [.unsigned ((s.x[3] - s.x[0]).toNat * s.xUnsigned 2 / 2 ^ 128 : Nat),
        .unsigned ((s.x[4] - s.x[1]).toNat * s.xUnsigned 2 / 2 ^ 128 : Nat)] := by
  rw [← tokenOwed_toNat, ← tokenOwed_toNat]
  rfl

end FeeCommands

end Sys2Proof.Machine

namespace Sys2Proof.Proofs

open Sys2Proof.Machine

/-- Settles O33: the function is the subtraction of words, which a register holds. -/
theorem subIn256Subtracts : Obligations.SubIn256Subtracts := by
  refine ⟨rfl, fun s => ?_⟩
  rw [exec_of_amount (i := .subin256) nofun trivial (commandFunction_subin256 s) (BitVec.isLt _), word_toNat]

/-- Settles O34: the function is R232's formula on words, for each token. -/
theorem feeInsideSubtractsBelowAndAbove : Obligations.FeeInsideSubtractsBelowAndAbove := by
  refine ⟨rfl, fun s => ?_⟩
  have hexec := exec_of_two_amounts (i := .feeinside) nofun trivial (commandFunction_feeinside s) (BitVec.isLt _)
    (BitVec.isLt _)
  rw [word_toNat, word_toNat] at hexec
  exact hexec

/-- Settles O35: the width check refuses the liquidity, or the function answers two products that fit. -/
theorem tokOwedScalesTheGrowth : Obligations.TokOwedScalesTheGrowth := by
  refine ⟨rfl, fun s => ⟨fun hlarge => ?_, fun hwidth => ?_⟩⟩
  · exact exec_of_not_inWidth (i := .tokowed) (not_le.mpr hlarge)
  · exact exec_of_two_amounts nofun hwidth (commandFunction_tokowed s) (toNat_mul_liquidity_div_lt _ hwidth)
      (toNat_mul_liquidity_div_lt _ hwidth)

/-- Settles O32: the two branches give the clauses outside the port's domain, the remainder those inside it. -/
theorem subIn256WrapsOnce : Obligations.SubIn256WrapsOnce := by
  intro x y
  refine ⟨subIn256_of_neg, subIn256_of_nonneg, fun hx hx' hy hy' => ?_, fun hlow => ?_, fun hhigh => ?_⟩
  · rw [subIn256_eq_emod (by omega) (by omega)]
    exact ⟨rfl, Int.emod_nonneg _ (by decide), Int.le_sub_one_of_lt (Int.emod_lt_of_pos _ (by decide))⟩
  · rw [subIn256_of_neg (by omega)]
    omega
  · rw [subIn256_of_nonneg (by omega)]
    exact hhigh

end Sys2Proof.Proofs
end

section
/-!
SUPPORT. The failure state (`48_control.md` R250, `60_exceptions.md` R260 to R274): what clears it, what enters it, and
which cause a command enters it for. The layers, in order: the ways a command fails, the failures of the functions, the
results that always fit; the statements settled from them stand last.
-/

namespace Sys2Proof.Machine

/-! ### The ways a command fails -/

section WaysToFail

/-- Every cause a legal command can fail for, by the step of R269 that raises it. -/
theorem exec_failed_cases {i : Instr} {s t : State} {c : Cause} (h : exec i s = .next t) (hc : t.code = .failed c) :
    (¬ operandsInWidth i s ∧ c = .operand) ∨
    (∃ tag, commandFunction i s = .error tag ∧ c = tag.cause) ∨
    (i ≠ .clrf ∧ operandsInWidth i s ∧ c = .result ∧
      ∃ r, commandFunction i s = .ok r ∧ r.all Component.fits = false) := by
  rcases exec_cases h with ⟨-, rfl⟩ | ⟨-, hrefused, rfl⟩ | ⟨hi, hacc, hends⟩
  · cases hc
  · refine .inl ⟨fun hwidth => ?_, (Code.failed.inj hc).symm⟩
    rw [(operandsAccepted_iff i s).mpr hwidth] at hrefused
    cases hrefused
  · rcases hends with ⟨tag, hf, rfl⟩ | ⟨r, hf, hr, rfl⟩ | ⟨r, -, -, rfl⟩
    · exact .inr (.inl ⟨tag, hf, (Code.failed.inj hc).symm⟩)
    · exact .inr (.inr ⟨hi, (operandsAccepted_iff i s).mp hacc, (Code.failed.inj hc).symm, r, hf, hr⟩)
    · cases hc

/-- The port's own causes are none of the function layer's (R11, R260). -/
theorem Tag.cause_ne_operand (tag : Tag) : tag.cause ≠ .operand := by
  cases tag <;> decide

/-- Two descriptions of one command's next state agree on `CODE`. -/
theorem code_eq_of_exec {i : Instr} {s t u : State} (h : exec i s = .next t) (h' : exec i s = .next u) :
    t.code = u.code := by
  obtain rfl := Host.Outcome.next.inj (h.symm.trans h')
  rfl

end WaysToFail

/-! ### The operand check and the functions raise only the causes of the code table -/

section Causes

/-- A command without a row in the table of operand checks accepts every operand (R266). -/
theorem mayRaise_operand {i : Instr} {s : State} (h : ¬ operandsInWidth i s) : mayRaise .operand i := by
  cases i with
  | msb | muldivru | tick2sqrt | sqrt2tick | subin256 | feeinside | clrf => exact absurd trivial h
  | adddelta | amt0delta | amt1delta | nextpin | nextpout | swapstep | tokowed => simp [mayRaise]

/-- On a register value the only failure of the search is `ZERO`: `RANGE` is out of reach (R120, R122). -/
theorem mostSignificantBit_register_error {n : Nat} {tag : Tag} (hn : n < 2 ^ 256)
    (h : mostSignificantBit n = .error tag) : tag = .zero := by
  by_cases hzero : n = 0
  · subst hzero
    exact (Except.error.inj h).symm
  · rw [mostSignificantBit_eq_log hzero hn] at h
    cases h

/-- The inversion of a valid tick's ratio does not divide by zero, so `TICK` is the only failure (R152). -/
theorem getSqrtRatioAtTick_error {t : Int} {tag : Tag} (h : getSqrtRatioAtTick t = .error tag) : tag = .tick := by
  by_cases hvalid : minTick ≤ t ∧ t ≤ maxTick
  · obtain ⟨p, hp⟩ := exists_priceOf hvalid.1 hvalid.2
    cases hp.value.symm.trans h
  · rw [getSqrtRatioAtTick_of_invalid hvalid] at h
    exact (Except.error.inj h).symm

/-- Every valid price has a tick, so `SQRT_RATIO` is the only failure (R160, R163). -/
theorem getTickAtSqrtRatio_error {p : Nat} {tag : Tag} (h : getTickAtSqrtRatio p = .error tag) :
    tag = .sqrtRatio := by
  by_cases hinvalid : p < minSqrtRatio ∨ maxSqrtRatio ≤ p
  · rw [getTickAtSqrtRatio_of_invalid hinvalid] at h
    exact (Except.error.inj h).symm
  · obtain ⟨hlo, hhi⟩ := not_or.mp hinvalid
    obtain ⟨t, hvalue, -⟩ := getTickAtSqrtRatio_tickOf (not_lt.mp hlo) (not_le.mp hhi)
    cases hvalue.symm.trans h

theorem AnswersOrPrecond.error_eq {α : Type} {e : Except Tag α} {tag : Tag} (he : AnswersOrPrecond e)
    (h : e = .error tag) : tag = .precond := by
  rcases he with hfails | ⟨a, ha⟩
  · exact Except.error.inj (h.symm.trans hfails)
  · cases ha.symm.trans h

theorem except_map_eq_error {α β : Type} {e : Except Tag α} {f : α → β} {tag : Tag} (h : e.map f = .error tag) :
    e = .error tag := by
  cases e with
  | error t => exact congrArg _ (Except.error.inj h)
  | ok a => cases h

/-- A command whose function fails only on a callee's assertion raises `PRECOND` for it (R260). -/
theorem mayRaise_of_answersOrPrecond {i : Instr} {s : State} {tag : Tag} (h : commandFunction i s = .error tag)
    (hanswers : AnswersOrPrecond (commandFunction i s)) (hi : mayRaise .precond i) : mayRaise tag.cause i := by
  obtain rfl := hanswers.error_eq h
  exact hi

/-- A function fails only with the tags that the code table lists for its command (R260). -/
theorem mayRaise_of_commandFunction_error {i : Instr} {s : State} {tag : Tag}
    (h : commandFunction i s = .error tag) : mayRaise tag.cause i := by
  cases i with
  | msb =>
    obtain rfl := mostSignificantBit_register_error (s.xUnsigned_lt 0) (except_map_eq_error h)
    rfl
  | tick2sqrt =>
    obtain rfl := getSqrtRatioAtTick_error (except_map_eq_error h)
    exact .inl rfl
  | sqrt2tick =>
    obtain rfl := getTickAtSqrtRatio_error (except_map_eq_error h)
    rfl
  | muldivru =>
    exact mayRaise_of_answersOrPrecond h ((mulDivRoundingUp_answersOrPrecond ..).map _) (by simp [mayRaise])
  | amt0delta roundUp =>
    exact mayRaise_of_answersOrPrecond h ((getAmount0Delta_answersOrPrecond ..).map _) (by simp [mayRaise])
  | nextpin zfo =>
    exact mayRaise_of_answersOrPrecond h ((getNextSqrtPriceFromInput_answersOrPrecond ..).map _) (by simp [mayRaise])
  | nextpout zfo =>
    exact mayRaise_of_answersOrPrecond h ((getNextSqrtPriceFromOutput_answersOrPrecond ..).map _) (by simp [mayRaise])
  | swapstep =>
    exact mayRaise_of_answersOrPrecond h ((computeSwapStep_answersOrPrecond ..).map _) (by simp [mayRaise])
  | amt1delta roundUp =>
    rw [commandFunction_amt1delta, getAmount1Delta_eq] at h
    cases h
  | adddelta | subin256 | feeinside | tokowed | clrf => cases h

end Causes

/-! ### The results that always fit -/

section Fits

/-- `RESULT` is raised only by the commands the code table lists for it: the settled outcomes of the others leave no
room for a result that does not fit (R260, R267). -/
theorem mayRaise_result {i : Instr} {s : State} {r : List Component} (hi : i ≠ .clrf) (hwidth : operandsInWidth i s)
    (hf : commandFunction i s = .ok r) (hr : r.all Component.fits = false) : mayRaise .result i := by
  have hresult := exec_of_unfit hi ((operandsAccepted_iff i s).mpr hwidth) hf hr
  cases i with
  | muldivru | adddelta | nextpin | nextpout | swapstep => simp [mayRaise]
  | clrf => exact absurd rfl hi
  | msb =>
    obtain ⟨hzero, hpos⟩ := Proofs.msbReturnsTheHighestSetBit.2 s
    by_cases h : s.xUnsigned 0 = 0
    · cases code_eq_of_exec hresult (hzero h)
    · obtain ⟨_, -, -, -, hexec⟩ := hpos h
      cases code_eq_of_exec hresult hexec
  | tick2sqrt =>
    obtain ⟨hinvalid, hvalid⟩ := Proofs.tick2SqrtConvertsEveryValidTick.2 s
    by_cases h : s.xUnsigned 0 ≤ 887272 ∨ 2 ^ 256 - 887272 ≤ s.xUnsigned 0
    · obtain ⟨_, -, -, -, -, hexec⟩ := hvalid h
      cases code_eq_of_exec hresult hexec
    · obtain ⟨hlow, hhigh⟩ := not_or.mp h
      cases code_eq_of_exec hresult (hinvalid (not_le.mp hlow) (not_le.mp hhigh))
  | sqrt2tick =>
    obtain ⟨hinvalid, hvalid⟩ := Proofs.sqrt2TickConvertsEveryValidPrice.2 s
    by_cases h : s.xUnsigned 0 < minSqrtRatio ∨ maxSqrtRatio ≤ s.xUnsigned 0
    · cases code_eq_of_exec hresult (hinvalid h)
    · obtain ⟨hlo, hhi⟩ := not_or.mp h
      obtain ⟨_, -, -, -, hexec⟩ := hvalid (not_lt.mp hlo) (not_le.mp hhi)
      cases code_eq_of_exec hresult hexec
  | amt0delta roundUp =>
    obtain ⟨-, -, houtcome⟩ := Proofs.amt0DeltaReturnsTheAmount
    obtain ⟨-, hzero, hpos⟩ := houtcome s roundUp
    by_cases h : s.xUnsigned 0 = 0 ∨ s.xUnsigned 1 = 0
    · cases code_eq_of_exec hresult (hzero hwidth h)
    · obtain ⟨hp, hq⟩ := not_or.mp h
      cases code_eq_of_exec hresult (hpos hwidth hp hq).2
  | amt1delta roundUp =>
    obtain ⟨-, -, houtcome⟩ := Proofs.amt1DeltaReturnsTheAmount
    obtain ⟨-, hexec⟩ := houtcome s roundUp
    cases code_eq_of_exec hresult (hexec hwidth).2
  | subin256 => cases code_eq_of_exec hresult (Proofs.subIn256Subtracts.2 s)
  | feeinside => cases code_eq_of_exec hresult (Proofs.feeInsideSubtractsBelowAndAbove.2 s)
  | tokowed => cases code_eq_of_exec hresult ((Proofs.tokOwedScalesTheGrowth.2 s).2 hwidth)

end Fits

end Sys2Proof.Machine

namespace Sys2Proof.Proofs

open Sys2Proof.Machine

/-- Settles O36: of the three ways a command ends, only `CLRF`'s turns `STICKY` off; its opcode with another bit set is
illegal in one of the ways of R78. -/
theorem clrfClearsTheFailureState : Obligations.ClrfClearsTheFailureState := by
  refine ⟨rfl, fun s => rfl, fun i s t h hset hclear => ?_, fun v s hopc hne => ?_⟩
  · rcases exec_raise_clear_commit h with ⟨-, c, rfl⟩ | ⟨hi, -⟩ | ⟨-, r, -, rfl⟩
    · cases hclear
    · exact hi
    · cases hset.symm.trans hclear
  · have hillegal : IllegalWord v.toNat := by
      unfold IllegalWord
      omega
    exact execute_of_illegalWord s hillegal

/-- Settles O37: of the three ways a write of `CMD` ends, only failure entry leaves a failure code. -/
theorem failureEntryWritesOnlyResultsAndStatus : Obligations.FailureEntryWritesOnlyResultsAndStatus := by
  intro v s t c h hc
  rcases execute_raise_clear_commit h with ⟨-, c', rfl⟩ | ⟨-, rfl⟩ | ⟨i, r, -, -, -, rfl⟩
  · obtain rfl := Code.failed.inj hc
    rfl
  · cases hc
  · cases hc

/-- Settles O41: neither a function's failure nor a result that does not fit has the cause `OPERAND`. -/
theorem operandRaisedExactlyOnWidth : Obligations.OperandRaisedExactlyOnWidth := by
  refine fun i s t h => ⟨fun hc => ?_, fun hwidth => code_eq_of_exec h (exec_of_not_inWidth hwidth)⟩
  rcases exec_failed_cases h hc with ⟨hwidth, -⟩ | ⟨tag, -, htag⟩ | ⟨-, -, hresult, -⟩
  · exact hwidth
  · exact absurd htag.symm tag.cause_ne_operand
  · cases hresult

/-- Settles O42, by the step of the command sequence that raises the cause. -/
theorem causesAreRaisedOnlyWhereListed : Obligations.CausesAreRaisedOnlyWhereListed := by
  refine ⟨by decide, fun i s t c h hc => ?_⟩
  rcases exec_failed_cases h hc with ⟨hwidth, rfl⟩ | ⟨tag, hf, rfl⟩ | ⟨hi, hwidth, rfl, r, hf, hr⟩
  · exact mayRaise_operand hwidth
  · exact mayRaise_of_commandFunction_error hf
  · exact mayRaise_result hi hwidth hf hr

/-- Settles O53: with nothing pending the state itself, otherwise whatever the oldest event ends in. -/
theorem everyStateHasASuccessor : Obligations.EveryStateHasASuccessor := by
  intro s
  cases hp : s.pending with
  | nil => exact ⟨s, step_idle hp⟩
  | cons ev rest => exact step_next_of_pending hp

/-- Settles O43: decoding comes before the command, the operand checks before its function, and the function's own
check before its result. -/
theorem priorityAmongCauses : Obligations.PriorityAmongCauses := by
  intro s
  obtain ⟨-, -, -, -, -, -, hstray⟩ := specWordsDecode
  refine ⟨execute_illegal s hstray, fun _ hfee => exec_of_not_inWidth ?_, (mulDivRuReturnsTheCeiling.2 s).1⟩
  rintro ⟨-, -, -, hwidth⟩
  omega

end Sys2Proof.Proofs
end

section
/-!
SUPPORT. The reset state (`70_reset_and_hazards.md` R290 to R292): what its registers hold and read as, and what each
command does from it. The statements settled from these facts stand last.
-/

namespace Sys2Proof.Machine

section AtReset

theorem State.reset_x_getElem (k : Fin Config.nx) : State.reset.x[k] = 0 := by
  simp

theorem State.reset_y_getElem (k : Fin Config.ny) : State.reset.y[k] = 0 := by
  simp

theorem State.reset_xUnsigned (k : Fin Config.nx) : State.reset.xUnsigned k = 0 :=
  congrArg BitVec.toNat (State.reset_x_getElem k)

/-- `STATUS` has no bit above `STICKY` (R25). -/
theorem State.statusWord_high_bits (s : State) : s.statusWord.toNat / 2 ^ 5 = 0 := by
  have hcode := s.code.number_le
  have hsticky := s.sticky.toNat_le
  rw [s.statusWord_toNat]
  omega

/-- Every range of the register map reads 0 at reset (R290). -/
theorem State.reset_regRead (idx : RegIndex) : State.reset.regRead idx = 0 := by
  by_cases hx : idx.toNat < Config.nx
  · rw [State.regRead_eq_x (k := ⟨idx.toNat, hx⟩) _ rfl, State.reset_x_getElem]
  by_cases hy : 16 ≤ idx.toNat ∧ idx.toNat < 16 + Config.ny
  · have hm : idx.toNat = 16 + (idx.toNat - 16) := by omega
    have hlt : idx.toNat - 16 < Config.ny := by omega
    rw [State.regRead_eq_y (m := ⟨idx.toNat - 16, hlt⟩) _ hm, State.reset_y_getElem]
  by_cases hstatus : idx.toNat = 25
  · exact BitVec.eq_of_toNat_eq (State.regRead_status_toNat _ hstatus)
  · exact State.regRead_eq_zero _ (not_lt.mp hx) (by omega) hstatus

/-- Zero operands are within every width: the reset state is a legal operand set for every command (R292). -/
theorem operandsInWidth_reset (i : Instr) : operandsInWidth i State.reset := by
  cases i <;> simp [operandsInWidth, State.reset_xUnsigned]

/-- A command that succeeds with zero results leaves the reset state. -/
theorem exec_eq_reset {i : Instr} {y : YFile} (h : exec i State.reset = .next (succeeded State.reset y))
    (hy : y = zeroResults) : exec i State.reset = .next State.reset := by
  rw [h, hy]
  rfl

end AtReset

end Sys2Proof.Machine

namespace Sys2Proof.Proofs

open Sys2Proof.Machine

/-- Settles O48, range by range of the register map. -/
theorem resetValues : Obligations.ResetValues :=
  ⟨State.reset_x_getElem, State.reset_y_getElem, rfl, rfl, rfl,
    fun s => ⟨s.regRead_eq_zero (by decide) (by decide) (by decide), s.statusWord_high_bits⟩, State.reset_regRead⟩

/-- Settles O49: the step performs the reset, which keeps only what is still pending. -/
theorem resetEventRestoresRegisters : Obligations.ResetEventRestoresRegisters :=
  fun _ _ hp => step_event hp

/-- Settles O51: at reset `CODE` is `OK`. -/
theorem resetIsCoherent : Obligations.ResetIsCoherent :=
  State.coherent_of_code_ok State.reset_code

/-- Settles O50: each command's settled outcome, at zero operands. -/
theorem firstCommandAfterReset : Obligations.FirstCommandAfterReset := by
  have hzero := State.reset_xUnsigned
  have hwidth := operandsInWidth_reset
  refine ⟨?msb, ?muldivru, ?adddelta, ?tick2sqrt, ?sqrt2tick, fun b => ?amt0delta, fun b => ?amt1delta,
    fun b => ?nextpin, fun b => ?nextpout, ?swapstep, ?subin256, ?feeinside, ?tokowed, rfl, rfl, rfl, rfl⟩
  case msb => exact (msbReturnsTheHighestSetBit.2 State.reset).1 (hzero 0)
  case muldivru => exact (mulDivRuReturnsTheCeiling.2 State.reset).1 (hzero 2)
  case adddelta =>
    obtain ⟨-, -, hexec⟩ := addDeltaAddsExactly.2 State.reset
    exact exec_eq_reset (hexec (hwidth .adddelta) (by decide)) rfl
  case tick2sqrt =>
    refine exec_of_price nofun (hwidth .tick2sqrt) ?_ (by decide)
    obtain ⟨-, -, -, -, hprice⟩ := tickToPriceIsStrictlyIncreasing
    have htick : sint256 State.reset.x[0] = 0 := rfl
    rw [commandFunction_tick2sqrt, htick, hprice, except_map_value]
  case sqrt2tick =>
    refine (sqrt2TickConvertsEveryValidPrice.2 State.reset).1 (.inl ?_)
    rw [hzero]
    decide
  case amt0delta =>
    obtain ⟨-, -, houtcome⟩ := amt0DeltaReturnsTheAmount
    obtain ⟨-, hprecond, -⟩ := houtcome State.reset b
    exact hprecond (hwidth (.amt0delta b)) (.inl (hzero 0))
  case amt1delta =>
    obtain ⟨-, -, houtcome⟩ := amt1DeltaReturnsTheAmount
    obtain ⟨-, hexec⟩ := houtcome State.reset b
    exact exec_eq_reset (hexec (hwidth (.amt1delta b))).2 (by cases b <;> rfl)
  case nextpin =>
    refine exec_of_precond nofun (hwidth (.nextpin b)) ?_
    rw [commandFunction_nextpin, getNextSqrtPriceFromInput_of_zero (.inl (hzero 0)), except_map_error]
  case nextpout =>
    refine exec_of_precond nofun (hwidth (.nextpout b)) ?_
    rw [commandFunction_nextpout, getNextSqrtPriceFromOutput_of_zero (.inl (hzero 0)), except_map_error]
  case swapstep => exact (swapStepOnZeroPrices State.reset (hwidth .swapstep)).1 (hzero 0)
  case subin256 => exact exec_eq_reset (subIn256Subtracts.2 State.reset) rfl
  case feeinside => exact exec_eq_reset (feeInsideSubtractsBelowAndAbove.2 State.reset) rfl
  case tokowed =>
    obtain ⟨-, hexec⟩ := tokOwedScalesTheGrowth.2 State.reset
    exact exec_eq_reset (hexec (hwidth .tokowed)) rfl

end Sys2Proof.Proofs
end
